-- ==== Sys2Proof/Word.lean ====
section
/-! DEFINITION. The byte and the 8-byte hardware word (spec/00_scope.md R7, R9; spec/30_encoding.md R90).
A word is a string of eight bytes, byte 0 first, and never a number: no rule gives its bytes a numeric order (R64). -/

namespace Sys2Proof

/-- A byte (R60: "A byte is 8 bits"). -/
abbrev Byte := BitVec 8

/-- An 8-byte word of the raw stream. `b7` is the byte at offset 7: the MARK byte of a header word (R91). In a sample slot
`b0 b1`, `b2 b3`, `b4 b5` are W0, W1, W2 and `b6 b7` is the skipped W3 (R93). -/
structure Word8 where
  b0 : Byte
  b1 : Byte
  b2 : Byte
  b3 : Byte
  b4 : Byte
  b5 : Byte
  b6 : Byte
  b7 : Byte
  deriving DecidableEq, Repr, Inhabited

end Sys2Proof
end

