-- ==== Sys2Proof/Config.lean ====
section
/-! DEFINITION. What an implementation fixes (the open parameters of spec/00_scope.md R7, as plain data that State carries)
and the free values (constants with no body): the parameters themselves, the header analysis outside the known table, and
everything the environment answers (R12: "a draw"). -/

namespace Sys2Proof

/-- `PHASE`, the sequencer position inside the Streaming loop (R25). -/
inductive Phase where
  | top | select | wait | burst | align | decode | compact | send
  deriving DecidableEq, Repr, Inhabited

/-- FIFOStatus (R37, R101): occupancy in 8-byte words and the overflow, underflow and over-threshold flags. -/
structure FifoStatus where
  occ : Nat
  ovf : Bool
  unf : Bool
  thr : Bool
  deriving DecidableEq, Repr, Inhabited

/-- How the stream device answers a `DevRead(n)`: exactly `n` bytes (R192), fewer bytes or an error (D26, U18), or not at all
(R277, U8). -/
inductive DevAnswer where
  | complete | short | stuck
  deriving DecidableEq, Repr, Inhabited

/-- Who moves next when no trace record is waiting (R52): the worker or, in PHASE SEND, the downstream consumer; the external
control path (R240); another alarm source of the process (R240). The last three are the consumer's choices (R205). -/
inductive Choice where
  | worker
  | envAct (b : Bool)
  | envDiagClear (m : Nat)
  | envDiagSet (m : Nat)
  | drain (c n : Nat)
  | sendDone
  | sendFail (c : Nat)
  deriving DecidableEq, Repr, Inhabited

/-- A result of `Analyse` (R168): `flen` is L, the frame length in 8-byte words without the header, and `cnt` the samples of
each channel. -/
structure Layout where
  flen : Nat
  cnt : List Nat
  deriving DecidableEq, Repr, Inhabited

/-- The parameters of R7. ALIGN_LIMIT, FC_RESELECT and RESTART_ON_LEVEL have R7's defaults (D13, D16, D25); the others R7 calls
OPEN. Ranges the spec gives are built into the fields (log 2): N_CH is `extraCh + 1`, DIAG_WIDTH is
`diagBit + 1 + diagAbove`, PKT_SAMPLES is `pktLess1 + 1`. `layouts` is the known part of `Analyse` (log 3), `fill` what an
arena byte that nothing has written holds (log 5), `packetizer` whether the downstream consumer is the loop of R211 or any
legal consumer (R205; log 16). -/
structure Params where
  marker : Byte
  extraCh : Nat
  rawCap : Nat
  chCap : Nat
  layouts : List (Word8 × Layout)
  maxFlen : Nat
  graceBursts : Nat
  diagBit : Nat
  diagAbove : Nat
  occWidth : Nat
  alignLimit : Option Nat := none
  fcReselect : Bool := false
  restartOnLevel : Bool := false
  pktLess1 : Fin 65535
  pktType : BitVec 16
  packetizer : Bool
  fill : Byte
  deriving DecidableEq, Repr, Inhabited

/-- The OPEN parameters of the machine that State.reset starts: no value can be proved of them (log 1). -/
opaque Config.params : Params

/-- `Analyse` on a header word that `Params.layouts` does not list (R168: a pure, total function; its table is in no
source). -/
opaque Config.analyse : Word8 → Layout

/-- The FIFO monitor's answers (R12, U15). -/
opaque Config.monDraw : Nat → FifoStatus

/-- Whether an `ActRead()` returns the value before ACT's last write (R71, U11). -/
opaque Config.lagDraw : Nat → Bool

/-- The device's answers (R277, U8, U18) and the bytes it delivers (U15). -/
opaque Config.devDraw : Nat → DevAnswer

/-- The bytes the hardware stream delivers (U15). -/
opaque Config.byteDraw : Nat → Byte

/-- Whether a datagram's transmission succeeds (R12 `SendFail()`). -/
opaque Config.txDraw : Nat → Bool

/-- Which agent moves next, and with what (R52, R205, R240). -/
opaque Config.schedDraw : Nat → Choice

/-- `PHASE` after Streaming was left by a fault or a stop (R25, R44: unspecified). -/
opaque Config.phaseDraw : Nat → Phase

namespace Params

/-- `p` with the three parameters that have a default in R7 at it: ALIGN_LIMIT unlimited (D13), FC_RESELECT false (D16),
RESTART_ON_LEVEL false (D25). -/
def withDefaults (p : Params) : Params := { p with alignLimit := none, fcReselect := false, restartOnLevel := false }

/-- `N_CH` (R7: at least 1). -/
def nCh (p : Params) : Nat := p.extraCh + 1

/-- `DIAG_WIDTH` (R7: `DIAG_BIT` is below it). -/
def diagWidth (p : Params) : Nat := p.diagBit + 1 + p.diagAbove

/-- `PKT_SAMPLES` (R7: at least 1; R209: it fits the datagram's 16-bit sample count). -/
def pktSamples (p : Params) : Nat := p.pktLess1.val + 1

/-- `c` is a channel number, `0 .. N_CH-1`: channel 0 always exists. -/
def hasChannel (p : Params) : Nat → Bool
  | 0 => true
  | c + 1 => decide (c < p.extraCh)

/-- `Analyse(h)` (R168): a pure total function with `L <= MAX_FLEN` and one count for each of the N_CH channels. -/
def analyse (p : Params) (h : Word8) : Layout :=
  let l := (p.layouts.lookup h).getD (Config.analyse h)
  { flen := min l.flen p.maxFlen, cnt := (List.range p.nCh).map fun c => l.cnt.getD c 0 }

end Params

/-- The parameters of the machine that State.reset starts: the OPEN ones open, the others at R7's defaults (log 1). -/
def Config.machine : Params := Config.params.withDefaults

end Sys2Proof
end

