-- ==== Sys2Proof/Syntax.lean ====
section
/-! DEFINITION. The instructions: one constructor per row of spec/opcode_table.json, in the table's order. Rows HDR, FRAME,
SLOT and NONHDR are what stands in the raw byte stream (R90 to R98); rows with an id are the block's operations (R104);
APPEND is the standalone decoder's pseudo-operation (R191). -/

namespace Sys2Proof

/-- The session-fatal causes (R220); NONE is the absence of one. -/
inductive Cause where
  | alignFail | desync | sendFail | badLayout | rawOverrun | chOverrun
  deriving DecidableEq, Repr, Inhabited

/-- One constructor per row of spec/opcode_table.json. -/
inductive Instr where
  /-- HDR: a header word (R91). -/
  | hdr (w : Word8)
  /-- FRAME: a header word and its payload words (R92). -/
  | frame (h : Word8) (ws : List Word8)
  /-- SLOT: payload word `w`, holding sample `k` of channel `c` (R93, R94). -/
  | slot (c k : Nat) (w : Word8)
  /-- NONHDR: a word whose byte 7 is not MARKER (R98). -/
  | nonhdr (w : Word8)
  | idlePoll
  | start
  | topCheck
  | fcSelect
  | fcRepoll
  | burst
  | align
  | decode
  | compactRaw
  /-- DRAIN(c, n) (R206). -/
  | drain (c n : Nat)
  | sendDone
  /-- SEND_FAIL(c) (R210). -/
  | sendFail (c : Nat)
  /-- FAULT_ENTER(cause, info) (R230). -/
  | faultEnter (cause : Cause) (info : Nat)
  | faultExit
  /-- ENV_ACT(b) (R240). -/
  | envAct (b : Bool)
  /-- ENV_DIAG_CLEAR(m) (R240). -/
  | envDiagClear (m : Nat)
  /-- APPEND(data) (R191). -/
  | append (data : List Byte)
  deriving DecidableEq, Repr

end Sys2Proof
end

