-- ==== Sys2Proof/WellFormed.lean ====
section
/-! DEFINITION. Which operand values the spec gives an instruction: the channel range, the least byte count, the fault
information of each cause, the mask width, and the marker and length of what stands in the stream. -/

namespace Sys2Proof

/-- `info` is what FAULT_INFO holds for `cause` (R32, R220): a channel number for SEND_FAIL and CH_OVERRUN, else 0. -/
def infoOk (p : Params) (cause : Cause) (info : Nat) : Bool :=
  match cause with
  | .sendFail => p.hasChannel info
  | .chOverrun => p.hasChannel info
  | .alignFail => info == 0
  | .desync => info == 0
  | .badLayout => info == 0
  | .rawOverrun => info == 0

/-- The operands are in the ranges the spec gives. -/
def WellFormed (p : Params) : Instr → Bool
  | .hdr w => w.b7 == p.marker
  | .frame h ws => h.b7 == p.marker && ws.length == (p.analyse h).flen
  | .slot c _ _ => p.hasChannel c
  | .nonhdr w => w.b7 != p.marker
  | .idlePoll => true
  | .start => true
  | .topCheck => true
  | .fcSelect => true
  | .fcRepoll => true
  | .burst => true
  | .align => true
  | .decode => true
  | .compactRaw => true
  | .drain c n => p.hasChannel c && decide (0 < n)
  | .sendDone => true
  | .sendFail c => p.hasChannel c
  | .faultEnter cause info => infoOk p cause info
  | .faultExit => true
  | .envAct _ => true
  | .envDiagClear m => decide (m < 2 ^ p.diagWidth)
  | .append _ => true

end Sys2Proof
end

