-- ==== Sys2Proof/Decode.lean ====
section
/-! DEFINITION. Decoding, by the "format" column of spec/opcode_table.json, and the encoder written from the same layout.
HDR, FRAME and SLOT are the stream formats of R91 to R93, byte for byte. OP is an operation record: a byte whose bits 3..0
are the id of R104 and whose bits 7..4 are 0, then the operands. PSEUDO is the record of APPEND, which has no id: the byte 10H
and the data. The ids are the spec's; how operands are laid out is this model's (log 10). -/

namespace Sys2Proof

/-- The formats of the table. A slot's channel and sample number come from its place in the frame (R94), not its bytes. -/
inductive Format where
  | hdr
  | frame
  | slot (c k : Nat)
  | op
  | pseudo
  deriving DecidableEq, Repr, Inhabited

/-- Why bytes decode to no instruction. -/
inductive Reject where
  /-- The bytes end inside the instruction. -/
  | truncated
  /-- The first byte of a FRAME's word 0 is no header: byte 7 is not MARKER (R98). -/
  | noMarker
  /-- An OP record whose bits 7..4 are not 0: no id of R104. -/
  | noSuchId
  /-- A number with a redundant last digit. -/
  | overlong
  /-- A flag operand other than 0 and 1. -/
  | badFlag
  /-- A cause operand beyond the six causes (R220). -/
  | badCause
  /-- A PSEUDO record that does not begin with 10H. -/
  | notPseudo
  deriving DecidableEq, Repr, Inhabited

/-- The eight bytes of a word, byte 0 first (R9). -/
def Word8.bytes (w : Word8) : List Byte := [w.b0, w.b1, w.b2, w.b3, w.b4, w.b5, w.b6, w.b7]

/-- The word that a byte string begins with, and the rest. -/
def takeWord : List Byte → Except Reject (Word8 × List Byte)
  | b0 :: b1 :: b2 :: b3 :: b4 :: b5 :: b6 :: b7 :: rest => .ok (⟨b0, b1, b2, b3, b4, b5, b6, b7⟩, rest)
  | _ => .error .truncated

/-- `n` words and the rest. -/
def takeWords : Nat → List Byte → Except Reject (List Word8 × List Byte)
  | 0, bs => .ok ([], bs)
  | n + 1, bs =>
    match takeWord bs with
    | .error e => .error e
    | .ok (w, r) =>
      match takeWords n r with
      | .error e => .error e
      | .ok (ws, r') => .ok (w :: ws, r')

/-- `n` bytes and the rest. -/
def takeBytes : Nat → List Byte → Except Reject (List Byte × List Byte)
  | 0, bs => .ok ([], bs)
  | _ + 1, [] => .error .truncated
  | n + 1, b :: bs =>
    match takeBytes n bs with
    | .error e => .error e
    | .ok (ds, r) => .ok (b :: ds, r)

/-- A natural operand, any size: digits of seven bits, least significant first, bit 7 set on every digit but the last. -/
def takeNat : List Byte → Except Reject (Nat × List Byte)
  | [] => .error .truncated
  | b :: bs =>
    if b.toNat < 128 then .ok (b.toNat, bs)
    else
      match takeNat bs with
      | .error e => .error e
      | .ok (v, r) => if v = 0 then .error .overlong else .ok (b.toNat - 128 + 128 * v, r)

/-- A flag operand, the byte 0 or 1. -/
def takeFlag : List Byte → Except Reject (Bool × List Byte)
  | [] => .error .truncated
  | b :: bs => if b = 0 then .ok (false, bs) else if b = 1 then .ok (true, bs) else .error .badFlag

/-- A cause operand: the code of R220 less 1, one byte. -/
def takeCause : List Byte → Except Reject (Cause × List Byte)
  | [] => .error .truncated
  | b :: bs =>
    match b.toNat with
    | 0 => .ok (.alignFail, bs)
    | 1 => .ok (.desync, bs)
    | 2 => .ok (.sendFail, bs)
    | 3 => .ok (.badLayout, bs)
    | 4 => .ok (.rawOverrun, bs)
    | 5 => .ok (.chOverrun, bs)
    | _ => .error .badCause

/-- The code of a cause (R220). -/
def Cause.code : Cause → Nat
  | .alignFail => 1
  | .desync => 2
  | .sendFail => 3
  | .badLayout => 4
  | .rawOverrun => 5
  | .chOverrun => 6

/-- What FAULT_CAUSE reads as a number (R220): 0 is NONE. -/
def causeCode : Option Cause → Nat
  | none => 0
  | some c => c.code

/-- The operation whose id is `id` (R104), its operands read from what follows the id byte. -/
def decodeOp (id : Nat) (bs : List Byte) : Except Reject (Instr × List Byte) :=
  match id with
  | 0 => .ok (.idlePoll, bs)
  | 1 => .ok (.start, bs)
  | 2 => .ok (.topCheck, bs)
  | 3 => .ok (.fcSelect, bs)
  | 4 => .ok (.fcRepoll, bs)
  | 5 => .ok (.burst, bs)
  | 6 => .ok (.align, bs)
  | 7 => .ok (.decode, bs)
  | 8 => .ok (.compactRaw, bs)
  | 9 =>
    match takeNat bs with
    | .error e => .error e
    | .ok (c, r) =>
      match takeNat r with
      | .error e => .error e
      | .ok (n, r') => .ok (.drain c (n + 1), r')
  | 10 => .ok (.sendDone, bs)
  | 11 =>
    match takeNat bs with
    | .error e => .error e
    | .ok (c, r) => .ok (.sendFail c, r)
  | 12 =>
    match takeCause bs with
    | .error e => .error e
    | .ok (cause, r) =>
      match takeNat r with
      | .error e => .error e
      | .ok (info, r') => .ok (.faultEnter cause info, r')
  | 13 => .ok (.faultExit, bs)
  | 14 =>
    match takeFlag bs with
    | .error e => .error e
    | .ok (b, r) => .ok (.envAct b, r)
  | 15 =>
    match takeNat bs with
    | .error e => .error e
    | .ok (m, r) => .ok (.envDiagClear m, r)
  | _ => .error .noSuchId

/-- What follows the byte 10H of an APPEND record: the data's length, then the data (R191). -/
def decodeAppend (bs : List Byte) : Except Reject (Instr × List Byte) :=
  match takeNat bs with
  | .error e => .error e
  | .ok (n, r) =>
    match takeBytes n r with
    | .error e => .error e
    | .ok (ds, r') => .ok (.append ds, r')

/-- The instruction that `bs` begins with, read in format `f`, and the bytes after it. In the stream, a word is HDR exactly
when its byte 7 is MARKER, else NONHDR (R91, R98); a FRAME's length comes from its header through `Analyse` (R97). -/
def decode (p : Params) (f : Format) (bs : List Byte) : Except Reject (Instr × List Byte) :=
  match f with
  | .hdr =>
    match takeWord bs with
    | .error e => .error e
    | .ok (w, r) => if w.b7 = p.marker then .ok (.hdr w, r) else .ok (.nonhdr w, r)
  | .frame =>
    match takeWord bs with
    | .error e => .error e
    | .ok (h, r) =>
      if h.b7 = p.marker then
        match takeWords (p.analyse h).flen r with
        | .error e => .error e
        | .ok (ws, r') => .ok (.frame h ws, r')
      else .error .noMarker
  | .slot c k =>
    match takeWord bs with
    | .error e => .error e
    | .ok (w, r) => .ok (.slot c k w, r)
  | .op =>
    match bs with
    | [] => .error .truncated
    | b :: r => decodeOp b.toNat r
  | .pseudo =>
    match bs with
    | [] => .error .truncated
    | b :: r => if b = 0x10#8 then decodeAppend r else .error .notPseudo

/-- The record at the front of a trace (R105): APPEND if its first byte is 10H, else an operation. -/
def decodeRecord (p : Params) (bs : List Byte) : Except Reject (Instr × List Byte) :=
  match bs with
  | [] => .error .truncated
  | b :: _ => if b = 0x10#8 then decode p .pseudo bs else decode p .op bs

/-! The encoder. -/

/-- The digits of `n` that `takeNat` reads; `fuel` at least `n` is enough. -/
def natDigits : Nat → Nat → List Byte
  | 0, n => [BitVec.ofNat 8 n]
  | f + 1, n =>
    if n < 128 then [BitVec.ofNat 8 n] else BitVec.ofNat 8 (n % 128 + 128) :: natDigits f (n / 128)

/-- A natural operand's bytes. -/
def natBytes (n : Nat) : List Byte := natDigits n n

/-- The format an instruction is written in (the table's "format" column). -/
def formatOf : Instr → Format
  | .hdr _ => .hdr
  | .frame _ _ => .frame
  | .slot c k _ => .slot c k
  | .nonhdr _ => .hdr
  | .append _ => .pseudo
  | .idlePoll => .op
  | .start => .op
  | .topCheck => .op
  | .fcSelect => .op
  | .fcRepoll => .op
  | .burst => .op
  | .align => .op
  | .decode => .op
  | .compactRaw => .op
  | .drain _ _ => .op
  | .sendDone => .op
  | .sendFail _ => .op
  | .faultEnter _ _ => .op
  | .faultExit => .op
  | .envAct _ => .op
  | .envDiagClear _ => .op

/-- The bytes of an instruction. -/
def encode : Instr → List Byte
  | .hdr w => w.bytes
  | .frame h ws => h.bytes ++ ws.flatMap Word8.bytes
  | .slot _ _ w => w.bytes
  | .nonhdr w => w.bytes
  | .idlePoll => [0]
  | .start => [1]
  | .topCheck => [2]
  | .fcSelect => [3]
  | .fcRepoll => [4]
  | .burst => [5]
  | .align => [6]
  | .decode => [7]
  | .compactRaw => [8]
  | .drain c n => 9 :: (natBytes c ++ natBytes (n - 1))
  | .sendDone => [10]
  | .sendFail c => 11 :: natBytes c
  | .faultEnter cause info => 12 :: BitVec.ofNat 8 (cause.code - 1) :: natBytes info
  | .faultExit => [13]
  | .envAct b => [14, if b then 1 else 0]
  | .envDiagClear m => 15 :: natBytes m
  | .append ds => 0x10#8 :: (natBytes ds.length ++ ds)

/-- `n` bytes of a number, least significant first: the little-endian view of R10. -/
def leBytes : Nat → Nat → List Byte
  | 0, _ => []
  | n + 1, w => BitVec.ofNat 8 w :: leBytes n (w / 256)

/-- The instruction this decoder reads from an instruction whose bits are `w`, numbered as the table numbers them. 64 bits are
a word of the raw stream in the view of R10, read in format HDR; fewer are an operation record whose operands are zeros. -/
def decodeTableWord (nbits w : Nat) : Option Instr :=
  let bytes := leBytes ((nbits + 7) / 8) w
  if nbits = 64 then
    match decode Config.machine .hdr bytes with
    | .ok (i, _) => some i
    | .error _ => none
  else
    match decodeRecord Config.machine (bytes ++ List.replicate 8 0) with
    | .ok (i, _) => some i
    | .error _ => none

end Sys2Proof
end

