-- ==== Sys2Proof/Machine/State.lean ====
section
/-! DEFINITION. The state of the block (spec/10_state.md R20 to R36, R40, R44), the model's own fields beside it, the ways a
step can stop, and the state after power-on. -/

namespace Sys2Proof
namespace Machine

/-- An arena's bytes: (offset, byte) pairs, offsets strictly rising, none equal to what an unlisted offset reads as. -/
abbrev Memory := List Host.Cell

/-- The canonical form of a memory whose unlisted offsets read as `fill`. -/
def Memory.wf (fill : Byte) : Memory → Bool
  | [] => true
  | (a, b) :: m => (b != fill) && (m.all fun c => decide (a < c.1)) && Memory.wf fill m

/-- A buffer (R21, R22): its arena and its two cursors; `base` is offset 0 (R23). -/
structure Buffer where
  mem : Memory
  read : Nat
  head : Nat
  deriving DecidableEq, Repr, Inhabited

/-- An allocated buffer with nothing in it (R44, power-on). -/
def Buffer.empty : Buffer := { mem := [], read := 0, head := 0 }

/-- The lifecycle (R31). -/
inductive Mode where
  | idle | starting | streaming | faulting
  deriving DecidableEq, Repr, Inhabited

/-- The burst sizes S0 to S3 (R7, R29), named by the selector SEL of R100. -/
inductive BurstSize where
  | s0 | s1 | s2 | s3
  deriving DecidableEq, Repr, Inhabited

/-- What the block, or the downstream consumer, issues outward: the commands of R131, calls of `Analyse` (R169), bytes handed
to the consumer (R206) and datagrams sent (R211). -/
inductive Event where
  | streamEnable (b : Bool)
  | fifoReset
  | monRead
  | devRead (n : Nat)
  | analyse (h : Word8)
  | handed (c : Nat) (bytes : List Byte)
  | datagram (c : Nat) (bytes : List Byte)
  deriving DecidableEq, Repr

/-- The environment's answers that are already fixed, each list's head the next one; where a list is empty the answer is a free
value of Config at the counter `draws` (log 7). -/
structure Inputs where
  /-- FIFOStatus answers (R141). -/
  mon : List FifoStatus
  /-- Whether an ActRead returns ACT's previous value (R71, U11). -/
  lag : List Bool
  /-- How the device answers a burst read. -/
  dev : List DevAnswer
  /-- Bytes of the hardware stream not yet delivered (R192). -/
  bytes : List Byte
  /-- Whether a transmission succeeds (R211). -/
  tx : List Bool
  /-- Who moves next when the agenda is empty (R52). -/
  sched : List Choice
  /-- How many free values have been drawn. -/
  draws : Nat
  deriving DecidableEq, Repr, Inhabited

end Machine
end Sys2Proof

namespace Sys2Proof.Machine

/-- The state of the machine. Fields up to `seq` are the spec's; `cfg`, `agenda`, `inputs` and `out` are the model's own. -/
structure State where
  /-- RAW (R21). -/
  raw : Buffer
  /-- CH[0 .. N_CH-1] (R22). -/
  ch : List Buffer
  /-- ALIGNED (R26). -/
  aligned : Bool
  /-- CACHE_VALID (R27). -/
  cacheValid : Bool
  /-- CODE_CACHE (R27). -/
  codeCache : Word8
  /-- FLEN (R28). -/
  flen : Nat
  /-- CNT[] (R28). -/
  cnt : List Nat
  /-- XFER (R29). -/
  xfer : BurstSize
  /-- GRACE_CNT (R30). -/
  graceCnt : Nat
  /-- MODE (R31). -/
  mode : Mode
  /-- PHASE (R25). -/
  phase : Phase
  /-- FAULT_CAUSE; none is NONE (R32, R220). -/
  faultCause : Option Cause
  /-- FAULT_INFO (R32). -/
  faultInfo : Nat
  /-- ARMED (R33). -/
  armed : Bool
  /-- STREAM_EN (R34). -/
  streamEn : Bool
  /-- DIAG, bit i of the register being bit i of the number (R35). -/
  diag : Nat
  /-- ACT (R36). -/
  act : Bool
  /-- ACT before its last write: what a stale read returns (R71, U11). -/
  actPrev : Bool
  /-- SEQ[0 .. N_CH-1], the downstream neighbour's counters (R40, R208). -/
  seq : List (BitVec 32)
  /-- The parameters of R7, which no operation writes (log 1). -/
  cfg : Params
  /-- The trace records still to run (R105; log 9). -/
  agenda : List Byte
  /-- The environment's answers (log 7). -/
  inputs : Inputs
  /-- What has been issued outward, newest first (log 15). -/
  out : List Event
  deriving DecidableEq, Repr

/-- Why the machine stops. -/
inductive Fault where
  /-- An operation that reads, moves or drains buffer bytes, when bytes it would access lie outside the arena or the buffer's
  cursors are out of order (R45 broken). Raised by ALIGN, DECODE (also through HDR, FRAME, NONHDR), SLOT, COMPACT_RAW, DRAIN
  and SEND_DONE. Safe: R63 says no operation makes such an access, and no state that meets R45 raises it. -/
  | outsideArena
  /-- BURST, when the device never answers (R277, U8: "stuck is a possible outcome of BURST"). Safe. -/
  | deviceStuck
  deriving DecidableEq, Repr

/-- Why an instruction has no step. -/
inductive Refusal where
  /-- exec's arm of an instruction that has no meaning yet. Safe. -/
  | notModelled (mnemonic : String)
  /-- An operation in a mode or phase where the spec does not enable it, a DRAIN of more bytes than are buffered, a
  FAULT_ENTER whose fault no operation raises there (R104), or a stream row that does not stand at the decode cursor (R13: "An operation that is not enabled in a state does not happen there").
  Raised by every operation but ENV_ACT and ENV_DIAG_CLEAR. Safe. -/
  | notEnabled
  /-- An operand outside the range the spec gives it (`WellFormed`): raised by HDR, FRAME, SLOT, NONHDR, DRAIN, SEND_FAIL and
  FAULT_ENTER. Safe. -/
  | badOperand
  /-- BURST, when the device answers short or with an error (D26, U18: "a model must refuse them by name"). Safe. -/
  | shortDeviceRead
  /-- step, when the agenda's bytes are no record. Safe. -/
  | undecodable (why : Reject)
  deriving DecidableEq, Repr

/-- What a meaning answers. -/
abbrev Result := Host.Outcome State Fault Refusal

/-- No answer fixed in advance: every answer is a free value. -/
def Inputs.none : Inputs :=
  { mon := [], lag := [], dev := [], bytes := [], tx := [], sched := [], draws := 0 }

/-- The machine right after power-on with the parameters `p` (R44 column "power-on", R261). Where R44 says "unspec." or leaves
the value to the outside, the value is a DESIGN CHOICE of log 6. -/
def State.resetWith (p : Params) : State :=
  { raw := Buffer.empty
    ch := List.replicate p.nCh Buffer.empty
    aligned := false
    cacheValid := false
    codeCache := ⟨0, 0, 0, 0, 0, 0, 0, 0⟩
    flen := 0
    cnt := List.replicate p.nCh 0
    xfer := .s0
    graceCnt := 0
    mode := .idle
    phase := .top
    faultCause := .none
    faultInfo := 0
    armed := true
    streamEn := false
    diag := 0
    act := false
    actPrev := false
    seq := List.replicate p.nCh 0
    cfg := p
    agenda := []
    inputs := Inputs.none
    out := [] }

/-- The machine right after power-on (R260, R261), its OPEN parameters open, the others at R7's defaults (log 1). -/
def State.reset : State := State.resetWith Config.machine

end Sys2Proof.Machine
end

