-- ==== Sys2Proof/Machine/Ops.lean ====
section
/-! DEFINITION. The named operations over memories, buffers and registers that the meanings share: `MemRead` and `MemWrite`
(R11), the environment's answers (R12), the shared compaction `Compact(B)` (R195), the fault entry (R230) and its return
(R231). -/

namespace Sys2Proof.Machine

/-! Memory. -/

/-- The byte at offset `i`. -/
def memGet (fill : Byte) : Memory → Nat → Byte
  | [], _ => fill
  | (a, b) :: m, i => if i = a then b else memGet fill m i

/-- Writes one byte, keeping the canonical form: writing what an unlisted offset reads as removes the entry. -/
def memPut (fill : Byte) : Memory → Nat → Byte → Memory
  | [], i, v => if v = fill then [] else [(i, v)]
  | (a, b) :: m, i, v =>
    if i < a then (if v = fill then (a, b) :: m else (i, v) :: (a, b) :: m)
    else if i = a then (if v = fill then m else (i, v) :: m)
    else (a, b) :: memPut fill m i v

/-- `MemRead(B, a, n)` (R11): lowest offset first. -/
def memRead (fill : Byte) (m : Memory) (a n : Nat) : List Byte :=
  (List.range n).map fun j => memGet fill m (a + j)

/-- `MemWrite(B, a, len s, s)` (R11): the string's first byte at the lowest offset. -/
def memWrite (fill : Byte) (m : Memory) (a : Nat) : List Byte → Memory
  | [] => m
  | v :: s => memWrite fill (memPut fill m a v) (a + 1) s

/-- The eight bytes at offset `a`, as a word. -/
def memWord (fill : Byte) (m : Memory) (a : Nat) : Word8 :=
  ⟨memGet fill m a, memGet fill m (a + 1), memGet fill m (a + 2), memGet fill m (a + 3), memGet fill m (a + 4),
    memGet fill m (a + 5), memGet fill m (a + 6), memGet fill m (a + 7)⟩

/-! Buffers. -/

/-- `avail(B)` (R11): the unread bytes. -/
def avail (B : Buffer) : Nat := B.head - B.read

/-- The buffer's cursors are out of order, or unread bytes of it lie outside an arena of `cap` bytes: R45 is broken and an
access to the unread bytes is none the spec has (R63). -/
def outside (cap : Nat) (B : Buffer) : Bool :=
  decide (B.head < B.read) || (decide (B.read < B.head) && decide (cap < B.head))

/-- Both cursors to `base` (R122, R230); the arena's bytes stay. -/
def flush (B : Buffer) : Buffer := { B with read := 0, head := 0 }

/-- Appends a byte string at `head` (R190, R191). -/
def appendBytes (fill : Byte) (B : Buffer) (s : List Byte) : Buffer :=
  { B with mem := memWrite fill B.mem B.head s, head := B.head + s.length }

/-- `Compact(B)` (R195): the residue to offset 0, as it was before the move (R75). -/
def compact (fill : Byte) (B : Buffer) : Buffer :=
  if 0 < B.read then
    { mem := memWrite fill B.mem 0 (memRead fill B.mem B.read (avail B)), read := 0, head := avail B }
  else B

/-- `CH[c]`. -/
def chan (s : State) (c : Nat) : Buffer := s.ch.getD c Buffer.empty

/-- `CH[c] <- B`. -/
def setChan (s : State) (c : Nat) (B : Buffer) : State := { s with ch := s.ch.set c B }

/-- The number of bytes of a burst size (R7, R100: 4096 shifted left by SEL). -/
def BurstSize.bytes : BurstSize → Nat
  | .s0 => 4096
  | .s1 => 8192
  | .s2 => 16384
  | .s3 => 32768

/-! Enabling (R13, R104). -/

/-- `r` in MODE Streaming and PHASE `ph`; elsewhere the operation does not happen. -/
def whenPhase (ph : Phase) (s : State) (r : Result) : Result :=
  if s.mode = .streaming ∧ s.phase = ph then r else .refused .notEnabled

/-- `r` in mode `m`; elsewhere the operation does not happen. -/
def whenMode (m : Mode) (s : State) (r : Result) : Result :=
  if s.mode = m then r else .refused .notEnabled

/-! The environment's answers (R12). Each reading takes the next fixed answer, or a free value, and moves on. -/

/-- Moves the draw counter past `n` free values. -/
def tick (n : Nat) (i : Inputs) : Inputs := { i with draws := i.draws + n }

/-- `ActRead()` (R36): ACT, or its previous value where the read is stale (R71, U11). -/
def actRead (s : State) : Bool :=
  if s.inputs.lag.headD (Config.lagDraw s.inputs.draws) then s.actPrev else s.act

/-- The inputs after an `ActRead()`. -/
def afterActRead (i : Inputs) : Inputs := { i with lag := i.lag.tail, draws := i.draws + 1 }

/-- `MonRead()` (R141): a fresh FIFOStatus, its occupancy OCC_WIDTH bits wide (R151). -/
def monRead (s : State) : FifoStatus :=
  let st := s.inputs.mon.headD (Config.monDraw s.inputs.draws)
  { st with occ := st.occ % 2 ^ s.cfg.occWidth }

/-- The inputs after a `MonRead()`. -/
def afterMonRead (i : Inputs) : Inputs := { i with mon := i.mon.tail, draws := i.draws + 1 }

/-- How the device answers the next `DevRead`. -/
def devAnswer (i : Inputs) : DevAnswer := i.dev.headD (Config.devDraw i.draws)

/-- `DevRead(n)` (R192): the next `n` bytes of the hardware stream. -/
def devRead (i : Inputs) (n : Nat) : List Byte :=
  (i.bytes ++ (List.range (n - i.bytes.length)).map fun j => Config.byteDraw (i.draws + j)).take n

/-- The inputs after a complete `DevRead(n)`: those bytes are never delivered again (R70). -/
def afterDevRead (i : Inputs) (n : Nat) : Inputs :=
  { i with dev := i.dev.tail, bytes := i.bytes.drop n, draws := i.draws + n + 1 }

/-- Whether the next datagram's transmission succeeds (R211). -/
def txOk (i : Inputs) : Bool := i.tx.headD (Config.txDraw i.draws)

/-- The inputs after a transmission. -/
def afterTx (i : Inputs) : Inputs := { i with tx := i.tx.tail, draws := i.draws + 1 }

/-- Who moves next when the agenda is empty. -/
def nextChoice (i : Inputs) : Choice := i.sched.headD (Config.schedDraw i.draws)

/-- The inputs after that choice. -/
def afterChoice (i : Inputs) : Inputs := { i with sched := i.sched.tail, draws := i.draws + 1 }

/-! The fault entry and its return. -/

/-- FAULT_ENTER(cause, info) (R230), the whole effect of an operation that raises a session-fatal error: the cause is
recorded, the stream disabled, every buffer emptied, the mode Faulting. PHASE becomes meaningless: a free value (log 14).
Everything else keeps its value. -/
def takeFault (cause : Cause) (info : Nat) (s : State) : State :=
  { s with
    faultCause := some cause
    faultInfo := info
    streamEn := false
    out := .streamEnable false :: s.out
    raw := flush s.raw
    ch := s.ch.map flush
    mode := .faulting
    phase := Config.phaseDraw s.inputs.draws
    inputs := tick 1 s.inputs }

/-- FAULT_EXIT (R231): back to Idle; the cause stays readable. -/
def leaveFault (s : State) : State := { s with mode := .idle }

end Sys2Proof.Machine
end

