-- ==== Sys2Proof/Machine/Buffers.lean ====
section
/-! DEFINITION. BURST, its standalone form APPEND, and COMPACT_RAW (spec/43_buffers_compaction.md). -/

namespace Sys2Proof.Machine

/-- `n` more bytes do not fit RAW (R190, R224; `>` is strict). -/
def rawOverruns (s : State) (n : Nat) : Bool := decide (s.cfg.rawCap < s.raw.head + n)

/-- The phase after new data (R190, R191). -/
def phaseAfterData (s : State) : Phase := if s.aligned = true then .decode else .align

/-- BURST's effect when the device delivers its bytes (R190). -/
def burstState (s : State) : State :=
  { s with
    raw := appendBytes s.cfg.fill s.raw (devRead s.inputs s.xfer.bytes)
    graceCnt := s.graceCnt - 1
    phase := phaseAfterData s
    inputs := afterDevRead s.inputs s.xfer.bytes
    out := .devRead s.xfer.bytes :: s.out }

/-- BURST (R190): the capacity test comes before any device access. -/
def execBurst (s : State) : Result :=
  whenPhase .burst s
    (match devAnswer s.inputs with
    | .complete => .next (if rawOverruns s s.xfer.bytes = true then takeFault .rawOverrun 0 s else burstState s)
    | .short =>
      if rawOverruns s s.xfer.bytes = true then .next (takeFault .rawOverrun 0 s) else .refused .shortDeviceRead
    | .stuck =>
      if rawOverruns s s.xfer.bytes = true then .next (takeFault .rawOverrun 0 s) else .fault .deviceStuck)

/-- APPEND's effect (R191). -/
def appendState (data : List Byte) (s : State) : State :=
  if rawOverruns s data.length = true then takeFault .rawOverrun 0 s
  else { s with raw := appendBytes s.cfg.fill s.raw data, phase := phaseAfterData s }

/-- The phases that APPEND replaces (R106, R191; spec/95_test_vectors.md P1: "TOP, SELECT, BURST"; log 18). WAIT is none of
them: only enough occupancy ends it (R276). -/
def feedPhase (s : State) : Bool := s.phase == .top || s.phase == .select || s.phase == .burst

/-- APPEND(data) (R191). -/
def execAppend (data : List Byte) (s : State) : Result :=
  if s.mode = .streaming ∧ feedPhase s = true then .next (appendState data s) else .refused .notEnabled

/-- COMPACT_RAW's effect (R196). -/
def compactRawState (s : State) : State := { s with raw := compact s.cfg.fill s.raw, phase := .send }

/-- COMPACT_RAW (R196). -/
def execCompactRaw (s : State) : Result :=
  whenPhase .compact s
    (if outside s.cfg.rawCap s.raw = true then .fault .outsideArena else .next (compactRawState s))

end Sys2Proof.Machine
end

