-- ==== Sys2Proof/Machine/Operands.lean ====
section
/-! DEFINITION. The operands the block assembles from the raw stream (R95): the header at the decode cursor, the layout from the
cache or from `Analyse` (R169), frame size, slot offsets, sample bytes; the strides of the alignment scan (R162); and the tests
of DECODE in their order (R175). -/

namespace Sys2Proof.Machine

/-- The 8 bytes at the decode cursor (R95 "header"). -/
def headerAt (s : State) : Word8 := memWord s.cfg.fill s.raw.mem s.raw.read

/-- The header equals the cached code (R169: equality of the 8-byte strings). -/
def cacheHit (s : State) (h : Word8) : Bool := s.cacheValid && decide (s.codeCache = h)

/-- `(L, cnt[])` (R95): the cached layout on a hit, else `Analyse(h)`. -/
def layoutFor (s : State) (h : Word8) : Layout :=
  if cacheHit s h then { flen := s.flen, cnt := s.cnt } else s.cfg.analyse h

/-- `cnt[c]`, 0 for a number that is no channel. -/
def cntOf (l : Layout) (c : Nat) : Nat := l.cnt.getD c 0

/-- `cnt[0] + ... + cnt[N_CH-1]`. -/
def total (l : Layout) : Nat := l.cnt.sum

/-- A valid layout (R96): the counts fill the frame. -/
def validLayout (l : Layout) : Bool := decide (total l = l.flen)

/-- `off(c) = cnt[0] + ... + cnt[c-1]` (R94). -/
def slotOff (l : Layout) (c : Nat) : Nat := (l.cnt.take c).sum

/-- Frame size in bytes (R92). -/
def frameSize (l : Layout) : Nat := (l.flen + 1) * 8

/-- The offset in RAW of the slot holding sample `k` of channel `c`, for a frame at `p` (R95). -/
def slotAddr (p : Nat) (l : Layout) (c k : Nat) : Nat := p + 8 + 8 * (slotOff l c + k)

/-- The 6 kept bytes of a slot (R93: W0, W1, W2). -/
def keptBytes (w : Word8) : List Byte := [w.b0, w.b1, w.b2, w.b3, w.b4, w.b5]

/-- Sample `k` of channel `c` of the frame at the cursor (R174): slot bytes 0 to 5; bytes 6 and 7 are not read. -/
def sampleBytes (s : State) (l : Layout) (c k : Nat) : List Byte :=
  memRead s.cfg.fill s.raw.mem (slotAddr s.raw.read l c k) 6

/-- All samples of channel `c`, in order. -/
def channelBytes (s : State) (l : Layout) (c : Nat) : List Byte :=
  (List.range (cntOf l c)).flatMap (sampleBytes s l c)

/-- The lowest channel without room for its samples (R170, R225). -/
def firstOverrun (s : State) (l : Layout) : Option Nat :=
  (List.range s.cfg.nCh).find? fun c => decide (s.cfg.chCap < (chan s c).head + 6 * cntOf l c)

/-- What one DECODE finds (R170). -/
inductive Verdict where
  | empty
  | desync
  | badLayout (h : Word8)
  | defer (h : Word8) (l : Layout)
  | overrun (h : Word8) (c : Nat)
  | copy (h : Word8) (l : Layout)
  deriving DecidableEq, Repr

/-- The tests of DECODE on a header `h` and its layout `l`, in the order of R175: 8 bytes, marker, layout (only when analysed),
whole frame, room. -/
def verdictFor (s : State) (h : Word8) (l : Layout) : Verdict :=
  if avail s.raw < 8 then .empty
  else if h.b7 ≠ s.cfg.marker then .desync
  else if cacheHit s h = false ∧ validLayout l = false then .badLayout h
  else if avail s.raw < frameSize l then .defer h l
  else
    match firstOverrun s l with
    | some c => .overrun h c
    | none => .copy h l

/-- What DECODE finds at the cursor. -/
def verdict (s : State) : Verdict := verdictFor s (headerAt s) (layoutFor s (headerAt s))

/-- The strides ALIGN scans (R162): the complete ones, at most ALIGN_LIMIT. -/
def alignWindow (s : State) : Nat :=
  match s.cfg.alignLimit with
  | none => avail s.raw / 8
  | some m => min (avail s.raw / 8) m

/-- Stride `i` has the marker at its byte 7 (R162). -/
def strideMarked (s : State) (i : Nat) : Bool :=
  decide (memGet s.cfg.fill s.raw.mem (s.raw.read + 8 * i + 7) = s.cfg.marker)

/-- The first marked stride of the window. -/
def firstMarked (s : State) : Option Nat := (List.range (alignWindow s)).find? (strideMarked s)

/-- The `n` words at the decode cursor. -/
def wordsAt (s : State) (p : Nat) : Nat → List Word8
  | 0 => []
  | n + 1 => memWord s.cfg.fill s.raw.mem p :: wordsAt s (p + 8) n

end Sys2Proof.Machine
end

