-- ==== Sys2Proof/Machine/Decoder.lean ====
section
/-! DEFINITION. The frame decoder: ALIGN and DECODE, and what stands in the stream at the decode cursor: HDR, NONHDR, FRAME, SLOT
(spec/42_frame_decoder.md; spec/30_encoding.md R90 to R98). -/

namespace Sys2Proof.Machine

/-! ALIGN. -/

/-- ALIGN's effect (R162): nothing to scan, the first marked stride, or ALIGN_FAIL. -/
def alignState (s : State) : State :=
  if alignWindow s = 0 then { s with phase := .compact }
  else
    match firstMarked s with
    | some k => { s with raw := { s.raw with read := s.raw.read + 8 * k }, aligned := true, phase := .decode }
    | none => takeFault .alignFail 0 s

/-- ALIGN on buffers inside their arenas. -/
def runAlign (s : State) : Result :=
  if outside s.cfg.rawCap s.raw = true then .fault .outsideArena else .next (alignState s)

/-- ALIGN (R162). -/
def execAlign (s : State) : Result := whenPhase .align s (runAlign s)

/-! DECODE. -/

/-- The record of an `Analyse(h)` call: none on a cache hit (R169). -/
def noteAnalyse (h : Word8) (s : State) : State :=
  if cacheHit s h = true then s else { s with out := .analyse h :: s.out }

/-- The cache after the layout of `h` is known (R170 step 2): written when it was analysed; on a hit it holds it already. -/
def cacheLayout (h : Word8) (l : Layout) (s : State) : State :=
  { noteAnalyse h s with codeCache := h, flen := l.flen, cnt := l.cnt, cacheValid := true }

/-- Channel `c` after the frame's samples for it (R174): appended at its head. -/
def copyChannel (s : State) (l : Layout) (c : Nat) (B : Buffer) : Buffer :=
  if c < s.cfg.nCh then
    { B with mem := memWrite s.cfg.fill B.mem B.head (channelBytes s l c), head := B.head + 6 * cntOf l c }
  else B

/-- Outcome COPY (R173): every channel's samples, and the cursor past the frame. -/
def copyState (h : Word8) (l : Layout) (s : State) : State :=
  { cacheLayout h l s with
    ch := s.ch.mapIdx (copyChannel s l)
    raw := { s.raw with read := s.raw.read + frameSize l } }

/-- DECODE's effect (R170). A faulting outcome has no other effect on the block (R11). -/
def decodeState (s : State) : State :=
  match verdict s with
  | .empty => { s with phase := .compact }
  | .desync => takeFault .desync 0 s
  | .badLayout h => takeFault .badLayout 0 (noteAnalyse h s)
  | .defer h l => { cacheLayout h l s with phase := .compact }
  | .overrun h c => takeFault .chOverrun c (noteAnalyse h s)
  | .copy h l => copyState h l s

/-- A payload access would leave the arena: only a cached layout longer than its frame (R169 excludes it) makes it so. -/
def payloadOutside (s : State) : Bool :=
  match verdict s with
  | .copy _ l => decide (s.cfg.rawCap < s.raw.read + 8 + 8 * total l)
  | .empty => false
  | .desync => false
  | .badLayout _ => false
  | .defer _ _ => false
  | .overrun _ _ => false

/-- DECODE on buffers inside their arenas. -/
def runDecode (s : State) : Result :=
  if outside s.cfg.rawCap s.raw = true ∨ payloadOutside s = true then .fault .outsideArena else .next (decodeState s)

/-- DECODE (R170), never on unverified alignment (R26, R270). -/
def execDecode (s : State) : Result :=
  whenPhase .decode s (if s.aligned = true then runDecode s else .refused .notEnabled)

/-! What stands at the decode cursor. -/

/-- The operation the phase has enabled runs on the word `w` at the cursor (R98): the scan in ALIGN, the decoder in DECODE;
elsewhere, or where another word stands there, nothing happens. -/
def runAtCursor (w : Word8) (s : State) : Result :=
  if s.mode = .streaming ∧ 8 ≤ avail s.raw ∧ headerAt s = w then
    match s.phase with
    | .align => runAlign s
    | .decode => if s.aligned = true then runDecode s else .refused .notEnabled
    | .top => .refused .notEnabled
    | .select => .refused .notEnabled
    | .wait => .refused .notEnabled
    | .burst => .refused .notEnabled
    | .compact => .refused .notEnabled
    | .send => .refused .notEnabled
  else .refused .notEnabled

/-- HDR (R91): a header word at the cursor. ALIGN stops at it (R162); DECODE takes the frame it starts (R170). -/
def execHdr (w : Word8) (s : State) : Result :=
  if w.b7 = s.cfg.marker then runAtCursor w s else .refused .badOperand

/-- NONHDR (R98): ALIGN skips it, and raises ALIGN_FAIL where the whole window is such; DECODE raises DESYNC. -/
def execNonhdr (w : Word8) (s : State) : Result :=
  if w.b7 ≠ s.cfg.marker then runAtCursor w s else .refused .badOperand

/-- FRAME (R92): the header and all its payload words stand at the cursor, and DECODE takes the frame (R170). -/
def execFrame (h : Word8) (ws : List Word8) (s : State) : Result :=
  if WellFormed s.cfg (.frame h ws) = false then .refused .badOperand
  else
    whenPhase .decode s
      (if s.aligned = true ∧ (ws.length + 1) * 8 ≤ avail s.raw ∧ wordsAt s s.raw.read (ws.length + 1) = h :: ws
        then runDecode s
        else .refused .notEnabled)

/-- SLOT (R93, R174): payload word `w`, sample `k` of channel `c` of the frame that DECODE copies: its kept bytes go to
`CH[c].mem` at `CH[c].head + 6k`. COPY does this for every slot of the frame and then moves the cursors (log 19). -/
def execSlot (c k : Nat) (w : Word8) (s : State) : Result :=
  if s.cfg.hasChannel c = false then .refused .badOperand
  else
    whenPhase .decode s
      (match verdict s with
      | .copy _ l =>
        if s.aligned = true ∧ k < cntOf l c ∧ memWord s.cfg.fill s.raw.mem (slotAddr s.raw.read l c k) = w then
          if outside s.cfg.rawCap s.raw = true ∨ payloadOutside s = true then .fault .outsideArena
          else
            .next (setChan s c
              { chan s c with mem := memWrite s.cfg.fill (chan s c).mem ((chan s c).head + 6 * k) (keptBytes w) })
        else .refused .notEnabled
      | .empty => .refused .notEnabled
      | .desync => .refused .notEnabled
      | .badLayout _ => .refused .notEnabled
      | .defer _ _ => .refused .notEnabled
      | .overrun _ _ => .refused .notEnabled)

end Sys2Proof.Machine
end

