-- ==== Sys2Proof/Machine/Downstream.lean ====
section
/-! DEFINITION. The downstream neighbour: DRAIN, SEND_DONE, SEND_FAIL, the datagram format and the Packetizer's loop
(spec/44_downstream_packetizer.md). -/

namespace Sys2Proof.Machine

/-- DRAIN's effect (R206): the oldest `n` bytes are handed out and the read cursor passes them. -/
def drainState (c n : Nat) (s : State) : State :=
  let B := chan s c
  setChan { s with out := .handed c (memRead s.cfg.fill B.mem B.read n) :: s.out } c { B with read := B.read + n }

/-- DRAIN(c, n) (R206). -/
def execDrain (c n : Nat) (s : State) : Result :=
  if s.cfg.hasChannel c = true ∧ 0 < n then
    whenPhase .send s
      (if n ≤ avail (chan s c) then
        (if outside s.cfg.chCap (chan s c) = true then .fault .outsideArena else .next (drainState c n s))
      else .refused .notEnabled)
  else .refused .badOperand

/-- SEND_DONE's effect (R207). -/
def sendDoneState (s : State) : State := { s with ch := s.ch.map (compact s.cfg.fill), phase := .top }

/-- SEND_DONE (R207). -/
def execSendDone (s : State) : Result :=
  whenPhase .send s
    (if s.ch.any (outside s.cfg.chCap) = true then .fault .outsideArena else .next (sendDoneState s))

/-- SEND_FAIL(c) (R210). -/
def execSendFail (c : Nat) (s : State) : Result :=
  if s.cfg.hasChannel c = true then whenPhase .send s (.next (takeFault .sendFail c s)) else .refused .badOperand

/-! The Packetizer (R211). -/

/-- `be32(v)` (R209). -/
def be32 (v : BitVec 32) : List Byte :=
  [v.extractLsb' 24 8, v.extractLsb' 16 8, v.extractLsb' 8 8, v.extractLsb' 0 8]

/-- `be16(v)` (R209). -/
def be16 (v : BitVec 16) : List Byte := [v.extractLsb' 8 8, v.extractLsb' 0 8]

/-- `Datagram(seq, count, payload)` (R209). -/
def datagram (p : Params) (seq : BitVec 32) (count : Nat) (payload : List Byte) : List Byte :=
  be32 seq ++ List.replicate 8 0 ++ be16 p.pktType ++ be16 (BitVec.ofNat 16 count) ++ payload

/-- The payload size `P = 6 * PKT_SAMPLES` (R211). -/
def payloadSize (p : Params) : Nat := 6 * p.pktSamples

/-- The channel the Packetizer serves next (R211): the lowest with a whole payload. Channels gain nothing in phase SEND, so
serving the lowest each time is the loop over channels of R211. -/
def nextServed (s : State) : Option Nat :=
  (List.range s.cfg.nCh).find? fun c => decide (payloadSize s.cfg ≤ avail (chan s c))

/-- `SEQ[c]`. -/
def seqOf (s : State) (c : Nat) : BitVec 32 := s.seq.getD c 0

/-- The Packetizer's work on channel `c` before its DRAIN or SEND_FAIL (R211): SEQ[c] counts one datagram, modulo 2^32 (R208);
where the transmission succeeds the datagram, carrying the count before, is out. -/
def sendDatagram (c : Nat) (s : State) : State :=
  let s1 := { s with seq := s.seq.set c (seqOf s c + 1), inputs := afterTx s.inputs }
  if txOk s.inputs = true then
    { s1 with
      out := .datagram c (datagram s.cfg (seqOf s c) s.cfg.pktSamples
        (memRead s.cfg.fill (chan s c).mem (chan s c).read (payloadSize s.cfg))) :: s.out }
  else s1

end Sys2Proof.Machine
end

