-- ==== Sys2Proof/Machine/Faults.lean ====
section
/-! DEFINITION. FAULT_ENTER as R104 has it: the fault outcome of BURST, ALIGN, DECODE and SEND_FAIL (ids 5, 6, 7, 11), never an
operation on its own. The entry itself is `takeFault` (Ops.lean), which those operations call. -/

namespace Sys2Proof.Machine

/-- The outcome `r` of an operation where it is the fault `cause` with `info`; where it is another, that fault does not happen. -/
def faultOutcome (cause : Cause) (info : Nat) (r : Result) : Result :=
  match r with
  | .next t =>
    if t.mode = .faulting ∧ t.faultCause = some cause ∧ t.faultInfo = info then .next t else .refused .notEnabled
  | .fault _ => .refused .notEnabled
  | .refused _ => .refused .notEnabled

/-- The operation of R104 that raises a cause (R220; `info` is the channel of SEND_FAIL), run on `s`. -/
def raiser (cause : Cause) (info : Nat) (s : State) : Result :=
  match cause with
  | .alignFail => execAlign s
  | .desync => execDecode s
  | .sendFail => execSendFail info s
  | .badLayout => execDecode s
  | .rawOverrun => execBurst s
  | .chOverrun => execDecode s

/-- FAULT_ENTER(cause, info) (R230, R104): where the operation that raises the cause raises exactly this fault, its outcome;
anywhere else FAULT_ENTER does not happen (log 17). -/
def execFaultEnter (cause : Cause) (info : Nat) (s : State) : Result :=
  if infoOk s.cfg cause info = true then faultOutcome cause info (raiser cause info s) else .refused .badOperand

end Sys2Proof.Machine
end

