-- ==== Sys2Proof/Machine/Flags.lean ====
section
/-! DEFINITION. The flow controller's functions (R146, R147, R144) and the accesses to DIAG (R35, R240). The block has no
arithmetic condition codes (R41). -/

namespace Sys2Proof.Machine

/-- `SizeOf(occ)` (R146, R100; strict comparisons, C1). -/
def burstSizeFor (occ : Nat) : BurstSize :=
  if 4096 < occ then .s3
  else if 2048 < occ then .s2
  else if 1024 < occ then .s1
  else .s0

/-- `Enough(occ, x)` (R147): `not (occ < x / 8)`. -/
def enough (occ : Nat) (x : BurstSize) : Bool := !decide (occ < x.bytes / 8)

/-- DIAG with bit DIAG_BIT set (R35: OR, other bits kept). -/
def raiseAlarm (p : Params) (diag : Nat) : Nat := diag ||| (1 <<< p.diagBit)

/-- DIAG after `Alarm(st)` (R144): the bit is set when the grace period is over and the over-threshold flag is set; `ovf` and
`unf` have no effect (R145). -/
def alarmed (s : State) (st : FifoStatus) : Nat :=
  if s.graceCnt = 0 ∧ st.thr = true then raiseAlarm s.cfg s.diag else s.diag

/-- `DIAG & ~m` (R240). -/
def clearBits (diag m : Nat) : Nat := diag ^^^ (diag &&& m)

/-- DIAG after another alarm source of the process set the bits of `m` (R240 "set other bits"): bits of the register other than
the block's own. -/
def setOtherBits (p : Params) (diag m : Nat) : Nat :=
  diag ||| clearBits (m % 2 ^ p.diagWidth) (1 <<< p.diagBit)

end Sys2Proof.Machine
end

