-- ==== Sys2Proof/Machine/Flow.lean ====
section
/-! DEFINITION. The flow controller: FC_SELECT and FC_REPOLL (spec/41_flow_controller.md). -/

namespace Sys2Proof.Machine

/-- What FC_SELECT and FC_REPOLL share once the size `x` is chosen: one status read, the alarm, XFER, and BURST or WAIT. -/
def controlState (x : BurstSize) (s : State) : State :=
  { s with
    diag := alarmed s (monRead s)
    xfer := x
    phase := if enough (monRead s).occ x = true then .burst else .wait
    inputs := afterMonRead s.inputs
    out := .monRead :: s.out }

/-- FC_SELECT (R142). -/
def execFcSelect (s : State) : Result :=
  whenPhase .select s (.next (controlState (burstSizeFor (monRead s).occ) s))

/-- The size FC_REPOLL uses (R143): XFER as it stands, or chosen again where FC_RESELECT. -/
def repollSize (s : State) : BurstSize :=
  if s.cfg.fcReselect = true then burstSizeFor (monRead s).occ else s.xfer

/-- FC_REPOLL (R143). -/
def execFcRepoll (s : State) : Result := whenPhase .wait s (.next (controlState (repollSize s) s))

end Sys2Proof.Machine
end

