-- ==== Sys2Proof/Machine/Session.lean ====
section
/-! DEFINITION. Session control, the return from a fault and the external control path: IDLE_POLL, START, TOP_CHECK, FAULT_EXIT,
ENV_ACT, ENV_DIAG_CLEAR (spec/40_session_control.md, spec/60_exceptions.md). -/

namespace Sys2Proof.Machine

/-- IDLE_POLL's effect (R121). -/
def idlePollState (s : State) : State :=
  let s1 := { s with inputs := afterActRead s.inputs }
  if actRead s = false then { s1 with armed := true }
  else if s.armed = true ∨ s.cfg.restartOnLevel = true then { s1 with mode := .starting }
  else s1

/-- IDLE_POLL (R121). -/
def execIdlePoll (s : State) : Result := whenMode .idle s (.next (idlePollState s))

/-- START's effect (R122); outside the block it resets every SEQ[c] (R123). -/
def startState (s : State) : State :=
  { s with
    raw := flush s.raw
    ch := s.ch.map flush
    aligned := false
    cacheValid := false
    graceCnt := s.cfg.graceBursts
    faultCause := none
    faultInfo := 0
    armed := false
    out := .streamEnable true :: .fifoReset :: s.out
    streamEn := true
    mode := .streaming
    phase := .top
    seq := s.seq.map fun _ => 0 }

/-- START (R122). -/
def execStart (s : State) : Result := whenMode .starting s (.next (startState s))

/-- The normal stop (R127): the stream disabled, armed, Idle; buffers and decoder state stay. PHASE becomes meaningless: a free
value (log 14). -/
def stopState (s : State) : State :=
  { s with
    out := .streamEnable false :: s.out
    streamEn := false
    armed := true
    mode := .idle
    phase := Config.phaseDraw s.inputs.draws
    inputs := tick 1 s.inputs }

/-- TOP_CHECK's effect (R127). -/
def topCheckState (s : State) : State :=
  let s1 := { s with inputs := afterActRead s.inputs }
  if actRead s = true then { s1 with phase := .select } else stopState s1

/-- TOP_CHECK (R127). -/
def execTopCheck (s : State) : Result := whenPhase .top s (.next (topCheckState s))

/-- FAULT_EXIT (R231). -/
def execFaultExit (s : State) : Result := whenMode .faulting s (.next (leaveFault s))

/-- ENV_ACT(b) (R240), in every mode: `ACT <- b`; a stale read may still return what ACT held (R71). -/
def execEnvAct (b : Bool) (s : State) : Result := .next { s with act := b, actPrev := s.act }

/-- ENV_DIAG_CLEAR(m) (R240), in every mode. -/
def execEnvDiagClear (m : Nat) (s : State) : Result := .next { s with diag := clearBits s.diag m }

end Sys2Proof.Machine
end

