-- ==== Sys2Proof/Machine/Dispatch.lean ====
section
/-! DEFINITION. exec: one arm per constructor of Instr. -/

namespace Sys2Proof.Machine

def exec (i : Instr) (s : State) : Host.Outcome State Fault Refusal :=
  match i with
  -- what stands in the raw stream
  | .hdr w => Sys2Proof.Machine.execHdr w s
  | .frame h ws => Sys2Proof.Machine.execFrame h ws s
  | .slot c k w => Sys2Proof.Machine.execSlot c k w s
  | .nonhdr w => Sys2Proof.Machine.execNonhdr w s
  -- the operations, ids 0 to 15
  | .idlePoll => Sys2Proof.Machine.execIdlePoll s
  | .start => Sys2Proof.Machine.execStart s
  | .topCheck => Sys2Proof.Machine.execTopCheck s
  | .fcSelect => Sys2Proof.Machine.execFcSelect s
  | .fcRepoll => Sys2Proof.Machine.execFcRepoll s
  | .burst => Sys2Proof.Machine.execBurst s
  | .align => Sys2Proof.Machine.execAlign s
  | .decode => Sys2Proof.Machine.execDecode s
  | .compactRaw => Sys2Proof.Machine.execCompactRaw s
  | .drain c n => Sys2Proof.Machine.execDrain c n s
  | .sendDone => Sys2Proof.Machine.execSendDone s
  | .sendFail c => Sys2Proof.Machine.execSendFail c s
  | .faultEnter cause info => Sys2Proof.Machine.execFaultEnter cause info s
  | .faultExit => Sys2Proof.Machine.execFaultExit s
  | .envAct b => Sys2Proof.Machine.execEnvAct b s
  | .envDiagClear m => Sys2Proof.Machine.execEnvDiagClear m s
  -- the pseudo-operation
  | .append data => Sys2Proof.Machine.execAppend data s

end Sys2Proof.Machine
end

