-- ==== Sys2Proof/Machine/Fetch.lean ====
section
/-! DEFINITION. Which operation happens next. A waiting trace record (R105) comes first; with none, the agents of R52 move by
themselves: the worker by MODE and PHASE (R126), in phase SEND the downstream consumer (R205, R211), at any time the external
control path and other alarm sources (R240). -/

namespace Sys2Proof.Machine

/-- What moves next. -/
inductive Fetched where
  /-- An instruction runs, on this state. -/
  | run (i : Instr) (s : State)
  /-- The world outside the block changed something; no operation of the block ran. -/
  | world (s : State)
  /-- There is no next move. -/
  | reject (r : Refusal)
  deriving DecidableEq, Repr

/-- The worker's operation (R104, R126): by MODE, and in Streaming by PHASE. In phase SEND the worker has none of its own and
SEND_DONE ends the phase. -/
def workerOp : Mode → Phase → Instr
  | .idle, _ => .idlePoll
  | .starting, _ => .start
  | .faulting, _ => .faultExit
  | .streaming, .top => .topCheck
  | .streaming, .select => .fcSelect
  | .streaming, .wait => .fcRepoll
  | .streaming, .burst => .burst
  | .streaming, .align => .align
  | .streaming, .decode => .decode
  | .streaming, .compact => .compactRaw
  | .streaming, .send => .sendDone

/-- The Packetizer's move (R211): one datagram of the lowest channel that has one, then that DRAIN, or SEND_FAIL where the
transmission fails; SEND_DONE when no channel has one. -/
def packetizerMove (s : State) : Fetched :=
  match nextServed s with
  | none => .run .sendDone s
  | some c =>
    if txOk s.inputs = true then .run (.drain c (payloadSize s.cfg)) (sendDatagram c s)
    else .run (.sendFail c) (sendDatagram c s)

/-- A free consumer's move (R205): any legal DRAIN, SEND_DONE or SEND_FAIL. Every choice names a legal move: channel numbers
are taken modulo N_CH and byte counts into `1 .. avail`. -/
def consumerMove (ch : Choice) (s : State) : Fetched :=
  match ch with
  | .drain c n =>
    if avail (chan s (c % s.cfg.nCh)) = 0 then .run .sendDone s
    else .run (.drain (c % s.cfg.nCh) (1 + n % avail (chan s (c % s.cfg.nCh)))) s
  | .sendFail c => .run (.sendFail (c % s.cfg.nCh)) s
  | .sendDone => .run .sendDone s
  | .worker => .run .sendDone s
  | .envAct _ => .run .sendDone s
  | .envDiagClear _ => .run .sendDone s
  | .envDiagSet _ => .run .sendDone s

/-- The move of the worker, or in phase SEND of the consumer. -/
def blockMove (ch : Choice) (s : State) : Fetched :=
  if s.mode = .streaming ∧ s.phase = .send then
    (if s.cfg.packetizer = true then packetizerMove s else consumerMove ch s)
  else .run (workerOp s.mode s.phase) s

/-- The move the environment's choice makes when no record waits. -/
def unscripted (s : State) : Fetched :=
  let s1 := { s with inputs := afterChoice s.inputs }
  match nextChoice s.inputs with
  | .envAct b => .run (.envAct b) s1
  | .envDiagClear m => .run (.envDiagClear (m % 2 ^ s.cfg.diagWidth)) s1
  | .envDiagSet m => .world { s1 with diag := setOtherBits s.cfg s.diag m }
  | .worker => blockMove .worker s1
  | .drain c n => blockMove (.drain c n) s1
  | .sendDone => blockMove .sendDone s1
  | .sendFail c => blockMove (.sendFail c) s1

/-- What happens next. -/
def fetch (s : State) : Fetched :=
  match s.agenda with
  | [] => unscripted s
  | b :: bs =>
    match decodeRecord s.cfg (b :: bs) with
    | .ok (i, rest) => .run i { s with agenda := rest }
    | .error e => .reject (.undecodable e)

/-! Placing an instruction where the next step fetches it. -/

/-- Puts a word at the decode cursor of an aligned decoder, and DECODE on the agenda. -/
def placeWord (w : Word8) (s : State) : State :=
  { s with
    raw := { s.raw with mem := memWrite s.cfg.fill s.raw.mem s.raw.read w.bytes, head := s.raw.read + 8 }
    mode := .streaming
    phase := .decode
    aligned := true
    agenda := encode .decode }

/-- Puts the sequencer in the phase whose operation comes next. -/
def inPhase (ph : Phase) (s : State) : State := { s with mode := .streaming, phase := ph }

/-- Puts one word that is no header (R98) at the read cursor, and nothing after it. -/
def placeUnmarked (s : State) : State :=
  { s with
    raw := { s.raw with
      mem := memWrite s.cfg.fill s.raw.mem s.raw.read [0, 0, 0, 0, 0, 0, 0, ~~~s.cfg.marker], head := s.raw.read + 8 } }

/-- The sequencer's selection under which an operation raises a cause. What Analyse says of a header is the machine's, so for
BAD_LAYOUT and CH_OVERRUN it is the selection of DECODE only (log 21). -/
def selectFault (cause : Cause) (s : State) : State :=
  match cause with
  | .alignFail => inPhase .align (placeUnmarked s)
  | .desync => { inPhase .decode (placeUnmarked s) with aligned := true }
  | .sendFail => inPhase .send s
  | .badLayout => { inPhase .decode s with aligned := true }
  | .rawOverrun => inPhase .burst { s with raw := { s.raw with head := max s.raw.head s.cfg.rawCap } }
  | .chOverrun => { inPhase .decode s with aligned := true }

/-- The sequencer's selection (MODE, PHASE and what else R104 asks) under which the operation is enabled. -/
def selectFor (i : Instr) (s : State) : State :=
  match i with
  | .idlePoll => { s with mode := .idle }
  | .start => { s with mode := .starting }
  | .topCheck => inPhase .top s
  | .fcSelect => inPhase .select s
  | .fcRepoll => inPhase .wait s
  | .burst =>
    { inPhase .burst s with inputs := { s.inputs with dev := .complete :: s.inputs.dev } }
  | .align => inPhase .align s
  | .decode => { inPhase .decode s with aligned := true }
  | .compactRaw => inPhase .compact s
  | .drain c n =>
    setChan (inPhase .send s) c
      { chan s c with head := (chan s c).read + max n (avail (chan s c)) }
  | .sendDone => inPhase .send s
  | .sendFail _ => inPhase .send s
  | .faultEnter cause _ => selectFault cause s
  | .faultExit => { s with mode := .faulting }
  | .envAct _ => s
  | .envDiagClear _ => s
  | .append _ => inPhase .top s
  | .hdr w => placeWord w s
  | .nonhdr w => placeWord w s
  | .frame h _ => placeWord h s
  | .slot _ _ w => placeWord w s

/-- The instruction where the next step fetches it, enabled: an operation record on the agenda, a stream word at the decode
cursor. -/
def placeInstr (i : Instr) (s : State) : State :=
  match formatOf i with
  | .op => { selectFor i s with agenda := encode i }
  | .pseudo => { selectFor i s with agenda := encode i }
  | .hdr => selectFor i s
  | .frame => selectFor i s
  | .slot _ _ => selectFor i s

end Sys2Proof.Machine
end

