-- ==== Sys2Proof/Machine/Step.lean ====
section
/-! DEFINITION. One step: what `fetch` finds runs. -/

namespace Sys2Proof.Machine

/-- One step of the machine: the next record or the next agent's move (Fetch.lean). -/
def step (s : State) : Host.Outcome State Fault Refusal :=
  match fetch s with
  | .run i s1 => exec i s1
  | .world s1 => .next s1
  | .reject r => .refused r

/-- `s` with the instruction of `nbits` bits `w` where step fetches its next instruction, and the sequencer's selection under
which that instruction is enabled (log 21): a 64-bit word at the decode cursor, anything else as an operation record on the
agenda. Bits that are no instruction are put on the agenda as they are. -/
def State.withFetchWord (s : State) (nbits w : Nat) : State :=
  if nbits = 64 then
    match takeWord (leBytes 8 w) with
    | .ok (h, _) => placeWord h s
    | .error _ => s
  else
    match decodeTableWord nbits w with
    | some i => placeInstr i s
    | none => { s with agenda := leBytes ((nbits + 7) / 8) w }

end Sys2Proof.Machine
end

