-- ==== Sys2Proof/Safety.lean ====
section
/-! DEFINITION. The terms claims are stated in: what a buffer holds as a queue of bytes, the invariants of the block (R45, R47, R26,
R27, R34, R120), and what a safe outcome is (R63). -/

namespace Sys2Proof.Machine

/-- The unread bytes of a buffer, oldest first (R21, R22: offsets `read .. head-1`). -/
def pending (fill : Byte) (B : Buffer) : List Byte := memRead fill B.mem B.read (avail B)

/-- R45 for one buffer. -/
def CursorsInOrder (cap : Nat) (B : Buffer) : Prop := B.read ≤ B.head ∧ B.head ≤ cap

/-- R45: `0 <= read <= head <= CAP` for RAW and every CH[c]. -/
def CursorsOk (s : State) : Prop :=
  CursorsInOrder s.cfg.rawCap s.raw ∧ ∀ B ∈ s.ch, CursorsInOrder s.cfg.chCap B

/-- Every memory is in its canonical form. -/
def MemoriesOk (s : State) : Prop :=
  Memory.wf s.cfg.fill s.raw.mem = true ∧ ∀ B ∈ s.ch, Memory.wf s.cfg.fill B.mem = true

/-- Every byte a memory lists is inside its arena (R63). -/
def ArenasOk (s : State) : Prop :=
  (∀ c ∈ s.raw.mem, c.1 < s.cfg.rawCap) ∧ ∀ B ∈ s.ch, ∀ c ∈ B.mem, c.1 < s.cfg.chCap

/-- One buffer, one count and one sequence counter for each of the N_CH channels (R20). -/
def SizesOk (s : State) : Prop :=
  s.ch.length = s.cfg.nCh ∧ s.cnt.length = s.cfg.nCh ∧ s.seq.length = s.cfg.nCh

/-- The cache, while valid, is the valid layout that `Analyse` gives for its code (R28, R169). -/
def CacheOk (s : State) : Prop :=
  s.cacheValid = true →
    s.cfg.analyse s.codeCache = { flen := s.flen, cnt := s.cnt } ∧ validLayout { flen := s.flen, cnt := s.cnt } = true

/-- R26, R126: in Streaming, DECODE comes only after a successful ALIGN of this session, and ALIGN only before one. -/
def AlignmentOk (s : State) : Prop :=
  s.mode = .streaming → (s.phase = .decode → s.aligned = true) ∧ (s.phase = .align → s.aligned = false)

/-- R47: from SEND on, until the next data, RAW's read cursor is 0; from TOP on every channel's is. -/
def CompactedOk (s : State) : Prop :=
  s.mode = .streaming →
    (s.phase = .send ∨ s.phase = .top ∨ s.phase = .select ∨ s.phase = .wait ∨ s.phase = .burst → s.raw.read = 0) ∧
    (s.phase = .top ∨ s.phase = .select ∨ s.phase = .wait ∨ s.phase = .burst → ∀ B ∈ s.ch, B.read = 0)

/-- R31, R33, R34, R230: the stream is enabled exactly in Streaming; the block is not armed in Streaming and Faulting; in Faulting
a cause is recorded and every buffer is empty. -/
def LifecycleOk (s : State) : Prop :=
  (s.streamEn = true ↔ s.mode = .streaming) ∧ (s.mode = .streaming ∨ s.mode = .faulting → s.armed = false) ∧
    (s.mode = .faulting → s.faultCause.isSome = true ∧ s.raw.read = 0 ∧ s.raw.head = 0 ∧ ∀ B ∈ s.ch, B.read = 0 ∧ B.head = 0)

/-- R142: the wait is entered, and stays, with the smallest size. -/
def WaitOk (s : State) : Prop := s.mode = .streaming → s.phase = .wait → s.xfer = .s0

/-- R30: GRACE_CNT is in `0 .. GRACE_BURSTS`. -/
def GraceOk (s : State) : Prop := s.graceCnt ≤ s.cfg.graceBursts

/-- R35: DIAG has DIAG_WIDTH bits. -/
def DiagOk (s : State) : Prop := s.diag < 2 ^ s.cfg.diagWidth

/-- The sequencing invariants together. -/
def SequencingOk (s : State) : Prop :=
  AlignmentOk s ∧ CompactedOk s ∧ LifecycleOk s ∧ WaitOk s ∧ GraceOk s ∧ DiagOk s

/-- A call of `Analyse`, which R169 makes depend on the cache. -/
def Event.isAnalyse : Event → Bool
  | .analyse _ => true
  | .streamEnable _ => false
  | .fifoReset => false
  | .monRead => false
  | .devRead _ => false
  | .handed _ _ => false
  | .datagram _ _ => false

/-- What the block has issued outward but for its calls of `Analyse`: commands, bytes handed out, datagrams, newest first. -/
def issued (s : State) : List Event := s.out.filter fun e => !e.isAnalyse

/-- `t` is `s` after the fault entry with this cause and information (R230), the block having called `calls` on the way: the cause is
recorded, the stream disabled, every cursor 0, the mode Faulting; everything else but PHASE, which becomes meaningless, and the
draw counter is as in `s`. -/
def FaultEntered (cause : Cause) (info : Nat) (calls : List Event) (s t : State) : Prop :=
  t = { s with
        faultCause := some cause, faultInfo := info, streamEn := false, out := .streamEnable false :: (calls ++ s.out)
        raw := { s.raw with read := 0, head := 0 }, ch := s.ch.map fun B => { B with read := 0, head := 0 }
        mode := .faulting, phase := t.phase, inputs := { s.inputs with draws := t.inputs.draws } }

/-- `n` DECODEs in a row: the pseudo-operation `DECODE*` of R106, counted. -/
def decodeMany : Nat → State → Result
  | 0, s => .next s
  | n + 1, s =>
    match exec .decode s with
    | .next t => decodeMany n t
    | .fault f => .fault f
    | .refused r => .refused r

/-- The bytes that the payload words `ws` of a frame with layout `l` hold for channel `c` (R94, R177): the first three 16-bit words
of each of its slots, in order. -/
def samplesOf (l : Layout) (ws : List Word8) (c : Nat) : List Byte :=
  ((ws.drop (slotOff l c)).take (cntOf l c)).flatMap keptBytes

/-- The bytes of a frame (R92). -/
def frameBytes (f : Word8 × List Word8) : List Byte := f.1.bytes ++ f.2.flatMap Word8.bytes

/-- A frame with a marked header and a valid layout that its payload fills (R96, R98). -/
def GoodFrame (p : Params) (f : Word8 × List Word8) : Prop :=
  f.1.b7 = p.marker ∧ validLayout (p.analyse f.1) = true ∧ f.2.length = (p.analyse f.1).flen

/-- An outcome that makes no access outside an arena (R63). -/
def InsideArenas (r : Result) : Prop := r ≠ .fault .outsideArena

end Sys2Proof.Machine
end

