-- ==== Sys2Proof/Certificates/Slice0/Obligations.lean ====
section
/-! DEFINITION. The statements for the provers. Rules are those of spec/; a docstring that names a log entry or a decision D<n> says
that the clause is the model's or the spec's own choice. -/

open Sys2Proof Sys2Proof.Machine

/-! ## Encoding and stepping -/

/-- R104's ids, and the operand layout of log 10: each id decodes to its operation, and no byte of 16 or more is an id. -/
def Obligations.OperationIdsDecode : Prop :=
  ∀ (p : Params) (rest : List Byte),
    decode p .op (0 :: rest) = .ok (.idlePoll, rest) ∧ decode p .op (1 :: rest) = .ok (.start, rest) ∧
    decode p .op (2 :: rest) = .ok (.topCheck, rest) ∧ decode p .op (3 :: rest) = .ok (.fcSelect, rest) ∧
    decode p .op (4 :: rest) = .ok (.fcRepoll, rest) ∧ decode p .op (5 :: rest) = .ok (.burst, rest) ∧
    decode p .op (6 :: rest) = .ok (.align, rest) ∧ decode p .op (7 :: rest) = .ok (.decode, rest) ∧
    decode p .op (8 :: rest) = .ok (.compactRaw, rest) ∧
    decode p .op (9 :: 0x01 :: 0xFF :: 0x02 :: rest) = .ok (.drain 1 384, rest) ∧
    decode p .op (10 :: rest) = .ok (.sendDone, rest) ∧ decode p .op (11 :: 0x02 :: rest) = .ok (.sendFail 2, rest) ∧
    decode p .op (12 :: 0x05 :: 0x01 :: rest) = .ok (.faultEnter .chOverrun 1, rest) ∧
    decode p .op (13 :: rest) = .ok (.faultExit, rest) ∧ decode p .op (14 :: 1 :: rest) = .ok (.envAct true, rest) ∧
    decode p .op (15 :: 0x05 :: rest) = .ok (.envDiagClear 5, rest) ∧
    ∀ b : Byte, 16 ≤ b.toNat → decode p .op (b :: rest) = .error .noSuchId

/-- R91, R98: eight bytes of the stream are HDR when the byte at offset 7 is MARKER, whatever the other seven, and NONHDR when it
is not; fewer than eight are neither. -/
def Obligations.MarkerByteMakesTheHeader : Prop :=
  ∀ (p : Params) (b0 b1 b2 b3 b4 b5 b6 b7 : Byte) (rest : List Byte),
    (b7 = p.marker →
      decode p .hdr (b0 :: b1 :: b2 :: b3 :: b4 :: b5 :: b6 :: b7 :: rest) = .ok (.hdr ⟨b0, b1, b2, b3, b4, b5, b6, b7⟩, rest)) ∧
    (b7 ≠ p.marker →
      decode p .hdr (b0 :: b1 :: b2 :: b3 :: b4 :: b5 :: b6 :: b7 :: rest) =
        .ok (.nonhdr ⟨b0, b1, b2, b3, b4, b5, b6, b7⟩, rest)) ∧
    decode p .hdr [b0, b1, b2, b3, b4, b5, b6] = .error .truncated

/-- Decoding what was encoded gives the instruction back, with every operand at every value WellFormed admits, and leaves the
bytes after it (log 10 for the operand layout). -/
def Obligations.DecodeInvertsEncode : Prop :=
  ∀ (p : Params) (i : Instr) (rest : List Byte), WellFormed p i = true →
    decode p (formatOf i) (encode i ++ rest) = .ok (i, rest)

/-- No two byte strings stand for one instruction: what decodes to an instruction is its encoding (log 10). -/
def Obligations.EncodeInvertsDecode : Prop :=
  ∀ (p : Params) (f : Format) (bs : List Byte) (i : Instr) (rest : List Byte), decode p f bs = .ok (i, rest) →
    formatOf i = f ∧ bs = encode i ++ rest

/-- When the bytes at the front of the agenda decode to an instruction, step runs exactly it, with those bytes taken off the
agenda (log 9). -/
def Obligations.StepRunsTheWaitingRecord : Prop :=
  ∀ (s : State) (i : Instr) (rest : List Byte), decodeRecord s.cfg s.agenda = .ok (i, rest) →
    step s = exec i { s with agenda := rest }

/-- R104, R126: with no record waiting and the worker to move, step runs the one operation that MODE, and in Streaming PHASE,
enables. (That the worker moves then is the environment's choice: log 9.) -/
def Obligations.StepRunsTheEnabledOperation : Prop :=
  ∀ s s1 : State, s.agenda = [] → nextChoice s.inputs = .worker → s1 = { s with inputs := afterChoice s.inputs } →
    (s.mode = .idle → step s = exec .idlePoll s1) ∧
    (s.mode = .starting → step s = exec .start s1) ∧
    (s.mode = .faulting → step s = exec .faultExit s1) ∧
    (s.mode = .streaming →
      (s.phase = .top → step s = exec .topCheck s1) ∧ (s.phase = .select → step s = exec .fcSelect s1) ∧
      (s.phase = .wait → step s = exec .fcRepoll s1) ∧ (s.phase = .burst → step s = exec .burst s1) ∧
      (s.phase = .align → step s = exec .align s1) ∧ (s.phase = .decode → step s = exec .decode s1) ∧
      (s.phase = .compact → step s = exec .compactRaw s1) ∧
      (s.phase = .send → s.cfg.packetizer = false → step s = exec .sendDone s1))

/-- R6, R98, R170: what DECODE does is what the word at the decode cursor does there: HDR if its byte 7 is MARKER, else NONHDR; a
complete frame at the cursor does the same as its header (log 19). -/
def Obligations.DecodeRunsTheWordAtTheCursor : Prop :=
  ∀ s : State, s.mode = .streaming → s.phase = .decode → 8 ≤ avail s.raw →
    ((headerAt s).b7 = s.cfg.marker → exec .decode s = exec (.hdr (headerAt s)) s) ∧
    ((headerAt s).b7 ≠ s.cfg.marker → exec .decode s = exec (.nonhdr (headerAt s)) s) ∧
    ∀ ws : List Word8, WellFormed s.cfg (.frame (headerAt s) ws) = true → (ws.length + 1) * 8 ≤ avail s.raw →
      wordsAt s (s.raw.read + 8) ws.length = ws → exec .decode s = exec (.frame (headerAt s) ws) s

/-! ## Session control -/

/-- R121: IDLE_POLL reads ACT and arms, starts or stays (D25); the value read is ACT's current or previous one (U11, log 8). -/
def Obligations.IdlePollFollowsAct : Prop :=
  ∀ s : State, s.mode = .idle →
    (actRead s = s.act ∨ actRead s = s.actPrev) ∧
    (actRead s = false →
      exec .idlePoll s = .next { s with armed := true, inputs := afterActRead s.inputs }) ∧
    (actRead s = true → (s.armed = true ∨ s.cfg.restartOnLevel = true) →
      exec .idlePoll s = .next { s with mode := .starting, inputs := afterActRead s.inputs }) ∧
    (actRead s = true → s.armed = false → s.cfg.restartOnLevel = false →
      exec .idlePoll s = .next { s with inputs := afterActRead s.inputs })

/-- R122, R123, R44 column START: what START resets, what it issues, and that it changes nothing else (D22, D32). -/
def Obligations.StartResetsTheSession : Prop :=
  ∀ s : State, s.mode = .starting →
    exec .start s = .next
      { s with
        raw := { s.raw with read := 0, head := 0 }, ch := s.ch.map fun B => { B with read := 0, head := 0 }
        aligned := false, cacheValid := false, graceCnt := s.cfg.graceBursts, faultCause := none, faultInfo := 0
        armed := false, out := .streamEnable true :: .fifoReset :: s.out, streamEn := true, mode := .streaming, phase := .top
        seq := s.seq.map fun _ => 0 }

/-- R127: TOP_CHECK goes on to SELECT, or stops: stream disabled, armed, Idle, everything else as it was but PHASE, which becomes
meaningless (D21, D22; log 14). -/
def Obligations.TopCheckContinuesOrStops : Prop :=
  ∀ s : State, s.mode = .streaming → s.phase = .top →
    (actRead s = true → exec .topCheck s = .next { s with phase := .select, inputs := afterActRead s.inputs }) ∧
    (actRead s = false → ∃ t : State, exec .topCheck s = .next t ∧
      t = { s with
            streamEn := false, armed := true, mode := .idle, out := .streamEnable false :: s.out, phase := t.phase
            inputs := { afterActRead s.inputs with draws := t.inputs.draws } })

/-! ## Flow control -/

/-- R146: the four sizes at the three strict thresholds, and that the map never decreases. -/
def Obligations.BurstSizeIsTheStepFunction : Prop :=
  (∀ occ : Nat, (4096 < occ → (burstSizeFor occ).bytes = 32768) ∧ (2048 < occ → occ ≤ 4096 → (burstSizeFor occ).bytes = 16384) ∧
    (1024 < occ → occ ≤ 2048 → (burstSizeFor occ).bytes = 8192) ∧ (occ ≤ 1024 → (burstSizeFor occ).bytes = 4096)) ∧
  ∀ a b : Nat, a ≤ b → (burstSizeFor a).bytes ≤ (burstSizeFor b).bytes

/-- R147: enough is at least one burst, in 8-byte words, equality included; the division is exact for all four sizes. -/
def Obligations.EnoughIsOneBurst : Prop :=
  ∀ (occ : Nat) (x : BurstSize), (enough occ x = true ↔ x.bytes / 8 ≤ occ) ∧ 8 * (x.bytes / 8) = x.bytes ∧
    (x.bytes / 8 = 512 ∨ x.bytes / 8 = 1024 ∨ x.bytes / 8 = 2048 ∨ x.bytes / 8 = 4096)

/-- R142 with R144 and R146: one FC_SELECT, whatever the status read: XFER, BURST exactly from 512 words on, the alarm bit, and
nothing else. -/
def Obligations.FcSelectChoosesTheBurst : Prop :=
  ∀ s : State, s.mode = .streaming → s.phase = .select →
    exec .fcSelect s = .next
      { s with
        xfer := burstSizeFor (monRead s).occ
        phase := if 512 ≤ (monRead s).occ then .burst else .wait
        diag := if s.graceCnt = 0 ∧ (monRead s).thr = true then s.diag ||| 2 ^ s.cfg.diagBit else s.diag
        inputs := afterMonRead s.inputs, out := .monRead :: s.out }

/-- R143 with R144: one FC_REPOLL: XFER as it stands, or chosen again under FC_RESELECT; BURST when there is enough for it (D16,
D17). -/
def Obligations.FcRepollWaitsForTheBurst : Prop :=
  ∀ (s : State) (x : BurstSize), s.mode = .streaming → s.phase = .wait →
    x = (if s.cfg.fcReselect = true then burstSizeFor (monRead s).occ else s.xfer) →
    exec .fcRepoll s = .next
      { s with
        xfer := x
        phase := if x.bytes ≤ 8 * (monRead s).occ then .burst else .wait
        diag := if s.graceCnt = 0 ∧ (monRead s).thr = true then s.diag ||| 2 ^ s.cfg.diagBit else s.diag
        inputs := afterMonRead s.inputs, out := .monRead :: s.out }

/-- R145: two statuses that differ only in the overflow and underflow flags have the same effect (D17). -/
def Obligations.OverflowFlagsHaveNoEffect : Prop :=
  ∀ (s s' : State) (st st' : FifoStatus) (rest : List FifoStatus), st.occ = st'.occ → st.thr = st'.thr →
    s.inputs.mon = st :: rest → s' = { s with inputs := { s.inputs with mon := st' :: rest } } →
    exec .fcSelect s = exec .fcSelect s' ∧ exec .fcRepoll s = exec .fcRepoll s'

/-- R35, R144: no instruction but ENV_DIAG_CLEAR clears a bit of DIAG, and the only change any other makes is the alarm bit, set by
FC_SELECT and FC_REPOLL after the grace period on an over-threshold reading. -/
def Obligations.DiagOnlyGainsTheAlarmBit : Prop :=
  ∀ (i : Instr) (s t : State), exec i s = .next t → (∀ m, i ≠ .envDiagClear m) →
    (∀ k, s.diag.testBit k = true → t.diag.testBit k = true) ∧
    (t.diag ≠ s.diag → (i = .fcSelect ∨ i = .fcRepoll) ∧ s.graceCnt = 0 ∧ (monRead s).thr = true ∧
      ∀ k, t.diag.testBit k = (s.diag.testBit k || decide (k = s.cfg.diagBit)))

/-- R149, R30: GRACE_CNT is loaded by START, goes down by one, not below 0, with every burst taken, and nothing else writes it
(D18). -/
def Obligations.GraceCountsTheBursts : Prop :=
  ∀ (i : Instr) (s t : State), exec i s = .next t →
    t.graceCnt = (if i = .start then s.cfg.graceBursts
      else if i = .burst ∧ t.mode = .streaming then s.graceCnt - 1 else s.graceCnt)

/-- R148: PHASE BURST is entered only by FC_SELECT and FC_REPOLL, and only when the status they read holds the burst they leave in
XFER; until BURST runs, XFER stands. -/
def Obligations.UnderflowGuard : Prop :=
  ∀ (i : Instr) (s t : State), exec i s = .next t → t.mode = .streaming → t.phase = .burst →
    ((i = .fcSelect ∨ i = .fcRepoll) ∧ t.xfer.bytes / 8 ≤ (monRead s).occ) ∨
    (s.mode = .streaming ∧ s.phase = .burst ∧ t.xfer = s.xfer)

/-- R276, R129: in PHASE WAIT nothing but FC_REPOLL with enough occupancy ends the wait, whatever ACT is: every other instruction
that runs there leaves the block in WAIT; and so does every step, whatever record waits and whoever moves, but for that one. -/
def Obligations.WaitEndsOnlyWithEnough : Prop :=
  (∀ (i : Instr) (s t : State), s.mode = .streaming → s.phase = .wait → exec i s = .next t →
    t.mode = .streaming ∧
      (t.phase = .wait ∨ (i = .fcRepoll ∧ t.phase = .burst ∧ t.xfer.bytes / 8 ≤ (monRead s).occ))) ∧
  ∀ s t : State, s.mode = .streaming → s.phase = .wait → step s = .next t →
    t.mode = .streaming ∧
      (t.phase = .wait ∨
        (t.phase = .burst ∧
          t.xfer.bytes / 8 ≤ (monRead (if s.agenda = [] then { s with inputs := afterChoice s.inputs } else s)).occ))

/-! ## Burst, APPEND and compaction -/

/-- R190, R192, R70: a BURST that fits and is answered stores the device's bytes behind the residue, the first at the lowest
offset, advances `head` by XFER, counts the grace period, goes to DECODE or ALIGN, and changes nothing else; those bytes are not
delivered again (D18, D26). -/
def Obligations.BurstAppendsTheDeliveredBytes : Prop :=
  ∀ s : State, s.mode = .streaming → s.phase = .burst → s.raw.head + s.xfer.bytes ≤ s.cfg.rawCap →
    devAnswer s.inputs = .complete → Memory.wf s.cfg.fill s.raw.mem = true →
    ∃ t : State, exec .burst s = .next t ∧
      t = { s with
            raw := { mem := t.raw.mem, read := s.raw.read, head := s.raw.head + s.xfer.bytes }
            graceCnt := s.graceCnt - 1, phase := if s.aligned = true then .decode else .align
            inputs := { s.inputs with
              dev := s.inputs.dev.tail, bytes := s.inputs.bytes.drop s.xfer.bytes, draws := t.inputs.draws }
            out := .devRead s.xfer.bytes :: s.out } ∧
      (∀ j b, j < s.xfer.bytes → s.inputs.bytes[j]? = some b → memGet s.cfg.fill t.raw.mem (s.raw.head + j) = b) ∧
      ∀ a, (a < s.raw.head ∨ s.raw.head + s.xfer.bytes ≤ a) → memGet s.cfg.fill t.raw.mem a = memGet s.cfg.fill s.raw.mem a

/-- R190, R224: a burst that does not fit raises RAW_OVERRUN before any device access, whatever the device would answer: no input is
taken (D11). R277, U8, D26, U18: on one that fits, a device that never answers is a stop by name, and a short read is refused by
name (log 13). -/
def Obligations.BurstOverrunAndStops : Prop :=
  ∀ s : State, s.mode = .streaming → s.phase = .burst →
    (s.cfg.rawCap < s.raw.head + s.xfer.bytes → ∃ t : State, exec .burst s = .next t ∧ FaultEntered .rawOverrun 0 [] s t) ∧
    (s.raw.head + s.xfer.bytes ≤ s.cfg.rawCap →
      (devAnswer s.inputs = .stuck → exec .burst s = .fault .deviceStuck) ∧
      (devAnswer s.inputs = .short → exec .burst s = .refused .shortDeviceRead))

/-- R191: APPEND of any length, in the phases it replaces (D39; TOP, SELECT and BURST: log 18): the data behind the residue, or
RAW_OVERRUN; GRACE_CNT, XFER and everything else untouched. Elsewhere, in WAIT among it (R276), it does not happen (log 11). -/
def Obligations.AppendFeedsTheDecoder : Prop :=
  ∀ (s : State) (data : List Byte),
    (s.mode = .streaming → (s.phase = .top ∨ s.phase = .select ∨ s.phase = .burst) →
      (s.raw.head + data.length ≤ s.cfg.rawCap → Memory.wf s.cfg.fill s.raw.mem = true →
        ∃ t : State, exec (.append data) s = .next t ∧
          t = { s with
                raw := { mem := t.raw.mem, read := s.raw.read, head := s.raw.head + data.length }
                phase := if s.aligned = true then .decode else .align } ∧
          (∀ j b, data[j]? = some b → memGet s.cfg.fill t.raw.mem (s.raw.head + j) = b) ∧
          ∀ a, (a < s.raw.head ∨ s.raw.head + data.length ≤ a) →
            memGet s.cfg.fill t.raw.mem a = memGet s.cfg.fill s.raw.mem a) ∧
      (s.cfg.rawCap < s.raw.head + data.length →
        ∃ t : State, exec (.append data) s = .next t ∧ FaultEntered .rawOverrun 0 [] s t)) ∧
    (¬(s.mode = .streaming ∧ (s.phase = .top ∨ s.phase = .select ∨ s.phase = .burst)) →
      exec (.append data) s = .refused .notEnabled)

/-- R195, R75: Compact moves the residue to offset 0 as it was before the move; both cursors follow; the bytes above keep what they
held; with `read = 0` nothing changes. -/
def Obligations.CompactMovesTheResidue : Prop :=
  ∀ (fill : Byte) (B : Buffer), Memory.wf fill B.mem = true → B.read ≤ B.head →
    (compact fill B).read = 0 ∧ (compact fill B).head = B.head - B.read ∧
    (∀ j, j < B.head - B.read → memGet fill (compact fill B).mem j = memGet fill B.mem (B.read + j)) ∧
    (∀ a, B.head - B.read ≤ a → memGet fill (compact fill B).mem a = memGet fill B.mem a) ∧
    (B.read = 0 → compact fill B = B)

/-- R196: COMPACT_RAW compacts RAW, goes to SEND and changes nothing else (D31). -/
def Obligations.CompactRawCompactsRaw : Prop :=
  ∀ s : State, s.mode = .streaming → s.phase = .compact → CursorsInOrder s.cfg.rawCap s.raw →
    exec .compactRaw s = .next { s with raw := compact s.cfg.fill s.raw, phase := .send }

/-- R197, R74: as a queue of bytes RAW only grows at its end by what BURST or APPEND brings and shrinks at its front by what ALIGN
skips or DECODE consumes (or the words they meet: log 19); compaction and every other instruction leave it as it is, unless a
fault or START empties it. -/
def Obligations.RawIsAQueueOfBytes : Prop :=
  ∀ (i : Instr) (s t : State), exec i s = .next t → MemoriesOk s → CursorsOk s →
    pending s.cfg.fill t.raw =
      (if i = .start then []
      else if t.mode = .faulting ∧ s.mode ≠ .faulting then []
      else
        match i with
        | .burst => pending s.cfg.fill s.raw ++ devRead s.inputs s.xfer.bytes
        | .append data => pending s.cfg.fill s.raw ++ data
        | .align | .decode | .hdr _ | .nonhdr _ | .frame _ _ =>
          (pending s.cfg.fill s.raw).drop (avail s.raw - avail t.raw)
        | _ => pending s.cfg.fill s.raw)

/-! ## The frame decoder -/

/-- R162: with at least one stride marked in the window, ALIGN moves the cursor to the first such stride, sets ALIGNED, goes to
DECODE and changes nothing else; the word there, HDR, or the one skipped, NONHDR, does the same at the cursor (D13, D15; log
19). -/
def Obligations.AlignFindsTheFirstMarkedStride : Prop :=
  ∀ (s t : State) (k : Nat), s.mode = .streaming → s.phase = .align → CursorsInOrder s.cfg.rawCap s.raw →
    8 * k + 8 ≤ avail s.raw → (∀ m, s.cfg.alignLimit = some m → k < m) →
    memGet s.cfg.fill s.raw.mem (s.raw.read + 8 * k + 7) = s.cfg.marker →
    (∀ i < k, memGet s.cfg.fill s.raw.mem (s.raw.read + 8 * i + 7) ≠ s.cfg.marker) →
    t = { s with raw := { s.raw with read := s.raw.read + 8 * k }, aligned := true, phase := .decode } →
    exec .align s = .next t ∧ (k = 0 → exec (.hdr (headerAt s)) s = .next t) ∧
      (0 < k → exec (.nonhdr (headerAt s)) s = .next t)

/-- R221, R162: with at least one complete stride in the window and none of its strides marked, ALIGN raises ALIGN_FAIL, and so
does the unmarked word at the cursor. -/
def Obligations.AlignFailsWithoutAMarker : Prop :=
  ∀ s : State, s.mode = .streaming → s.phase = .align → CursorsInOrder s.cfg.rawCap s.raw → 8 ≤ avail s.raw →
    s.cfg.alignLimit ≠ some 0 →
    (∀ i, 8 * i + 8 ≤ avail s.raw → (∀ m, s.cfg.alignLimit = some m → i < m) →
      memGet s.cfg.fill s.raw.mem (s.raw.read + 8 * i + 7) ≠ s.cfg.marker) →
    ∃ t : State, exec .align s = .next t ∧ FaultEntered .alignFail 0 [] s t ∧ exec (.nonhdr (headerAt s)) s = .next t

/-- R162 corner 5: with nothing to scan ALIGN postpones: only PHASE changes, and ALIGNED stays 0 (D13). -/
def Obligations.AlignPostponesWithoutAStride : Prop :=
  ∀ s : State, s.mode = .streaming → s.phase = .align → CursorsInOrder s.cfg.rawCap s.raw →
    (avail s.raw < 8 ∨ s.cfg.alignLimit = some 0) → exec .align s = .next { s with phase := .compact }

/-- R26: ALIGNED is set only by the alignment scan (ALIGN, or the words it meets: log 19), which leaves the decode cursor on a marked
word; only START clears it; and while it is 0 no DECODE happens (log 20). -/
def Obligations.AlignedIsEarned : Prop :=
  ∀ (i : Instr) (s t : State), exec i s = .next t →
    (s.aligned = false → t.aligned = true →
      s.mode = .streaming ∧ s.phase = .align ∧ (i = .align ∨ (∃ w, i = .hdr w) ∨ ∃ w, i = .nonhdr w) ∧
        8 ≤ avail t.raw ∧ (headerAt t).b7 = t.cfg.marker) ∧
    (s.aligned = true → t.aligned = false → i = .start) ∧
    (i = .decode → s.aligned = true)

/-- R171: fewer than 8 unread bytes end the decode loop and change no state but PHASE. -/
def Obligations.DecodeEmptyEndsTheLoop : Prop :=
  ∀ s : State, s.mode = .streaming → s.phase = .decode → s.aligned = true → CursorsInOrder s.cfg.rawCap s.raw →
    avail s.raw < 8 → exec .decode s = .next { s with phase := .compact }

/-- R222, R98: a header word whose byte 7 is not MARKER raises DESYNC, even when the rest of its frame has not arrived, and
`Analyse` is not called; the word itself, NONHDR, does the same. -/
def Obligations.DecodeDesyncFaults : Prop :=
  ∀ s : State, s.mode = .streaming → s.phase = .decode → s.aligned = true → CursorsInOrder s.cfg.rawCap s.raw →
    8 ≤ avail s.raw → memGet s.cfg.fill s.raw.mem (s.raw.read + 7) ≠ s.cfg.marker →
    ∃ t : State, exec .decode s = .next t ∧ FaultEntered .desync 0 [] s t ∧ exec (.nonhdr (headerAt s)) s = .next t

/-- R223, R96: a header that is not in the cache and whose layout does not fill its frame raises BAD_LAYOUT, complete or not, and
the cache stays as it was (D10). (That a faulting DECODE records its one call of `Analyse` is the model's choice: log 15.) -/
def Obligations.DecodeBadLayoutFaults : Prop :=
  ∀ s : State, s.mode = .streaming → s.phase = .decode → s.aligned = true → CursorsInOrder s.cfg.rawCap s.raw →
    8 ≤ avail s.raw → (headerAt s).b7 = s.cfg.marker → (s.cacheValid = true → headerAt s ≠ s.codeCache) →
    (s.cfg.analyse (headerAt s)).cnt.sum ≠ (s.cfg.analyse (headerAt s)).flen →
    ∃ t : State, exec .decode s = .next t ∧ FaultEntered .badLayout 0 [.analyse (headerAt s)] s t

/-- R172, R169: a frame that is not complete is left where it is; the layout of its header is in the cache, analysed only if it was
not there; nothing else changes. -/
def Obligations.DecodeDefersAPartialFrame : Prop :=
  ∀ s : State, s.mode = .streaming → s.phase = .decode → s.aligned = true → CursorsInOrder s.cfg.rawCap s.raw →
    8 ≤ avail s.raw → (headerAt s).b7 = s.cfg.marker →
    (s.cacheValid = true → headerAt s = s.codeCache → avail s.raw < (s.flen + 1) * 8 →
      exec .decode s = .next { s with phase := .compact }) ∧
    ((s.cacheValid = true → headerAt s ≠ s.codeCache) →
      (s.cfg.analyse (headerAt s)).cnt.sum = (s.cfg.analyse (headerAt s)).flen →
      avail s.raw < ((s.cfg.analyse (headerAt s)).flen + 1) * 8 →
      exec .decode s = .next
        { s with
          phase := .compact, cacheValid := true, codeCache := headerAt s, flen := (s.cfg.analyse (headerAt s)).flen
          cnt := (s.cfg.analyse (headerAt s)).cnt, out := .analyse (headerAt s) :: s.out })

/-- R225, R173, R175: a complete good frame that some channel has no room for raises CH_OVERRUN with the lowest such channel, and
nothing of it is copied (D12). (Which calls of `Analyse` a faulting DECODE records, none on a hit and one otherwise, is the model's
choice: log 15.) -/
def Obligations.DecodeOverrunFaults : Prop :=
  ∀ (s : State) (l : Layout) (c : Nat), s.mode = .streaming → s.phase = .decode → s.aligned = true →
    CursorsInOrder s.cfg.rawCap s.raw → 8 ≤ avail s.raw → (headerAt s).b7 = s.cfg.marker → l = layoutFor s (headerAt s) →
    l.cnt.sum = l.flen → (l.flen + 1) * 8 ≤ avail s.raw → c < s.cfg.nCh →
    s.cfg.chCap < (chan s c).head + 6 * l.cnt.getD c 0 →
    (∀ d < c, (chan s d).head + 6 * l.cnt.getD d 0 ≤ s.cfg.chCap) →
    ∃ t : State, exec .decode s = .next t ∧
      FaultEntered .chOverrun c (if cacheHit s (headerAt s) = true then [] else [.analyse (headerAt s)]) s t

/-- R173, R174, R94: a complete good frame with room is copied: byte j of sample k of channel c goes, unchanged, from RAW offset
`p + 8 + 8*(off(c) + k) + j` to `CH[c]` offset `head + 6*k + j`, j below 6; each head advances by `6*cnt[c]`, the decode cursor
by `(L + 1)*8`; the cache holds the header's layout; every other byte and register is as it was. FRAME and HDR at the cursor do
the same (D9, D12; log 19). -/
def Obligations.DecodeCopiesTheFrame : Prop :=
  ∀ (s : State) (l : Layout), s.mode = .streaming → s.phase = .decode → s.aligned = true → MemoriesOk s → SizesOk s →
    CursorsInOrder s.cfg.rawCap s.raw → 8 ≤ avail s.raw → (headerAt s).b7 = s.cfg.marker → l = layoutFor s (headerAt s) →
    l.cnt.sum = l.flen → (l.flen + 1) * 8 ≤ avail s.raw →
    (∀ c < s.cfg.nCh, (chan s c).head + 6 * l.cnt.getD c 0 ≤ s.cfg.chCap) →
    ∃ t : State, exec .decode s = .next t ∧ exec (.hdr (headerAt s)) s = .next t ∧
      (l.flen = (s.cfg.analyse (headerAt s)).flen →
        exec (.frame (headerAt s) (wordsAt s (s.raw.read + 8) l.flen)) s = .next t) ∧
      t = { s with
            raw := { s.raw with read := s.raw.read + (l.flen + 1) * 8 }, ch := t.ch
            cacheValid := true, codeCache := headerAt s, flen := l.flen, cnt := l.cnt
            out := if cacheHit s (headerAt s) = true then s.out else .analyse (headerAt s) :: s.out } ∧
      t.ch.length = s.ch.length ∧
      ∀ c < s.cfg.nCh,
        (chan t c).read = (chan s c).read ∧ (chan t c).head = (chan s c).head + 6 * l.cnt.getD c 0 ∧
        (∀ k < l.cnt.getD c 0, ∀ j < 6,
          memGet s.cfg.fill (chan t c).mem ((chan s c).head + 6 * k + j) =
            memGet s.cfg.fill s.raw.mem (s.raw.read + 8 + 8 * ((l.cnt.take c).sum + k) + j)) ∧
        ∀ a, (a < (chan s c).head ∨ (chan s c).head + 6 * l.cnt.getD c 0 ≤ a) →
          memGet s.cfg.fill (chan t c).mem a = memGet s.cfg.fill (chan s c).mem a

/-- R174, R93: SLOT, for a payload word of a frame that DECODE copies: its first six bytes go to `CH[c]` at `head + 6*k`, bytes 6
and 7 nowhere, and nothing else changes (log 19). -/
def Obligations.SlotCopiesSixBytes : Prop :=
  ∀ (s : State) (l : Layout) (c k : Nat), s.mode = .streaming → s.phase = .decode → s.aligned = true → MemoriesOk s →
    SizesOk s → CursorsInOrder s.cfg.rawCap s.raw → 8 ≤ avail s.raw → (headerAt s).b7 = s.cfg.marker →
    l = layoutFor s (headerAt s) → l.cnt.sum = l.flen → (l.flen + 1) * 8 ≤ avail s.raw →
    (∀ d < s.cfg.nCh, (chan s d).head + 6 * l.cnt.getD d 0 ≤ s.cfg.chCap) → c < s.cfg.nCh → k < l.cnt.getD c 0 →
    ∃ t : State,
      exec (.slot c k (memWord s.cfg.fill s.raw.mem (s.raw.read + 8 + 8 * ((l.cnt.take c).sum + k)))) s = .next t ∧
      t = { s with ch := s.ch.set c { chan s c with mem := (chan t c).mem } } ∧
      (∀ j < 6, memGet s.cfg.fill (chan t c).mem ((chan s c).head + 6 * k + j) =
        memGet s.cfg.fill s.raw.mem (s.raw.read + 8 + 8 * ((l.cnt.take c).sum + k) + j)) ∧
      ∀ a, (a < (chan s c).head + 6 * k ∨ (chan s c).head + 6 * k + 6 ≤ a) →
        memGet s.cfg.fill (chan t c).mem a = memGet s.cfg.fill (chan s c).mem a

/-- R178: a DECODE that goes on in PHASE DECODE has consumed exactly one frame: 8 header bytes and 8 bytes for every sample of every
channel; and every channel received 6 bytes for each of its samples. -/
def Obligations.CopyConsumesTheWholeFrame : Prop :=
  ∀ s t : State, CacheOk s → exec .decode s = .next t → t.mode = .streaming → t.phase = .decode →
    t.raw.read = s.raw.read + 8 + 8 * t.cnt.sum ∧ t.raw.head = s.raw.head ∧ t.raw.mem = s.raw.mem ∧
      t.ch.length = s.ch.length ∧ t.cnt.length = s.cfg.nCh ∧
      ∀ c < s.cfg.nCh, c < s.ch.length →
        (chan t c).read = (chan s c).read ∧ (chan t c).head = (chan s c).head + 6 * t.cnt.getD c 0

/-- R176: every DECODE either leaves PHASE DECODE or consumes at least 8 bytes, so the decode loop ends. -/
def Obligations.DecodeMakesProgress : Prop :=
  ∀ s t : State, exec .decode s = .next t →
    (t.mode = .faulting ∨ t.phase = .compact) ∨ (t.phase = .decode ∧ avail t.raw + 8 ≤ avail s.raw)

/-- R169, R97: the cache never changes a result. With a true cache, DECODE with it and DECODE without it leave the same buffers,
layout, registers, mode and phase and issue the same commands; only the calls of `Analyse` may differ, and CACHE_VALID where
fewer than 8 bytes were there or a fault came (D8). -/
def Obligations.CacheIsTransparent : Prop :=
  ∀ s t : State, CacheOk s → exec .decode s = .next t →
    ∃ t' : State, exec .decode { s with cacheValid := false } = .next t' ∧
      t' = { t with cacheValid := t'.cacheValid, out := t'.out } ∧ issued t' = issued t ∧
      (t.mode = .streaming → 8 ≤ avail s.raw → t'.cacheValid = t.cacheValid)

/-- R177, R172: a residue that begins with whole good frames, with room for their samples, is decoded frame after frame: after as
many DECODEs, what follows them is left, and each channel holds its earlier bytes and then the first three 16-bit words of each
of its slots, in stream order. (Which slots are a channel's is the spec's own decision D9, R94: log 28.) -/
def Obligations.FramesDecodeInOrder : Prop :=
  ∀ (fs : List (Word8 × List Word8)) (rest : List Byte) (s : State), s.mode = .streaming → s.phase = .decode →
    s.aligned = true → CursorsOk s → MemoriesOk s → SizesOk s → CacheOk s →
    pending s.cfg.fill s.raw = fs.flatMap frameBytes ++ rest → (∀ f ∈ fs, GoodFrame s.cfg f) →
    (∀ c < s.cfg.nCh,
      (chan s c).head + 6 * (fs.map fun f => cntOf (s.cfg.analyse f.1) c).sum ≤ s.cfg.chCap) →
    ∃ t : State, decodeMany fs.length s = .next t ∧ t.mode = .streaming ∧ t.phase = .decode ∧
      pending s.cfg.fill t.raw = rest ∧
      ∀ c < s.cfg.nCh, pending s.cfg.fill (chan t c) =
        pending s.cfg.fill (chan s c) ++ fs.flatMap fun f => samplesOf (s.cfg.analyse f.1) f.2 c

/-! ## The downstream neighbour -/

/-- R206: DRAIN hands out the oldest n bytes of CH[c], moves its read cursor past them and changes nothing else, no byte of the
arena either; it is not enabled for more bytes than are buffered (D27). -/
def Obligations.DrainHandsOutTheOldestBytes : Prop :=
  ∀ (s : State) (c n : Nat), s.mode = .streaming → s.phase = .send → c < s.cfg.nCh → 0 < n →
    CursorsInOrder s.cfg.chCap (chan s c) →
    (n ≤ avail (chan s c) →
      exec (.drain c n) s = .next
        { s with
          ch := s.ch.set c { chan s c with read := (chan s c).read + n }
          out := .handed c ((pending s.cfg.fill (chan s c)).take n) :: s.out }) ∧
    (avail (chan s c) < n → exec (.drain c n) s = .refused .notEnabled)

/-- R207: in Streaming and phase SEND SEND_DONE compacts every channel, goes to TOP and changes nothing else. (That byte 10 is its
record, by the id of R104 and D29, is the model's layout: log 10; elsewhere it is refused: log 11.) -/
def Obligations.SendDoneCompactsEveryChannel : Prop :=
  ∀ s : State, CursorsOk s →
    decode s.cfg .op [10] = .ok (.sendDone, []) ∧
    (s.mode = .streaming → s.phase = .send →
      exec .sendDone s = .next { s with ch := s.ch.map (compact s.cfg.fill), phase := .top }) ∧
    (¬(s.mode = .streaming ∧ s.phase = .send) → exec .sendDone s = .refused .notEnabled)

/-- R210, R226: SEND_FAIL raises the fault with the channel in FAULT_INFO. -/
def Obligations.SendFailFaults : Prop :=
  ∀ (s : State) (c : Nat), s.mode = .streaming → s.phase = .send → c < s.cfg.nCh →
    ∃ t : State, exec (.sendFail c) s = .next t ∧ FaultEntered .sendFail c [] s t

/-- R211: with the Packetizer as the consumer, one step in PHASE SEND serves the lowest channel that holds a whole payload: SEQ[c]
counts it, the datagram carrying the earlier count goes out and the payload is drained, or, where the transmission fails,
SEND_FAIL is raised and no datagram goes out; with no payload left the step is SEND_DONE (D27; log 16). -/
def Obligations.PacketizerServesTheLowestChannel : Prop :=
  ∀ s s1 : State, s.mode = .streaming → s.phase = .send → s.agenda = [] → s.cfg.packetizer = true →
    nextChoice s.inputs = .worker → s1 = { s with inputs := afterChoice s.inputs } →
    ((∀ c < s.cfg.nCh, avail (chan s c) < 6 * s.cfg.pktSamples) → step s = exec .sendDone s1) ∧
    ∀ (c : Nat) (s2 : State), c < s.cfg.nCh → 6 * s.cfg.pktSamples ≤ avail (chan s c) →
      (∀ d < c, avail (chan s d) < 6 * s.cfg.pktSamples) →
      s2 = { s1 with seq := s.seq.set c (s.seq.getD c 0 + 1), inputs := afterTx s1.inputs } →
      (txOk s1.inputs = true →
        step s = exec (.drain c (6 * s.cfg.pktSamples))
          { s2 with
            out := .datagram c (datagram s.cfg (s.seq.getD c 0) s.cfg.pktSamples
              ((pending s.cfg.fill (chan s c)).take (6 * s.cfg.pktSamples))) :: s.out }) ∧
      (txOk s1.inputs = false → step s = exec (.sendFail c) s2)

/-- R209: the datagram, field by field, big-endian. -/
def Obligations.DatagramLayout : Prop :=
  ∀ (p : Params) (seq : BitVec 32) (count : Nat) (payload : List Byte), count < 65536 → payload.length = 6 * count →
    (datagram p seq count payload).length = 16 + 6 * count ∧
    (∀ j < 4, (datagram p seq count payload)[j]? = some (BitVec.ofNat 8 (seq.toNat / 256 ^ (3 - j)))) ∧
    (∀ j < 8, (datagram p seq count payload)[4 + j]? = some 0) ∧
    (∀ j < 2, (datagram p seq count payload)[12 + j]? = some (BitVec.ofNat 8 (p.pktType.toNat / 256 ^ (1 - j)))) ∧
    (∀ j < 2, (datagram p seq count payload)[14 + j]? = some (BitVec.ofNat 8 (count / 256 ^ (1 - j)))) ∧
    (datagram p seq count payload).drop 16 = payload

/-! ## Faults and the external control path -/

/-- R230, R104, R220: FAULT_ENTER is the fault outcome of BURST, ALIGN, DECODE and SEND_FAIL: where one of them raises an error,
FAULT_ENTER with that cause and information has the whole effect of the fault entry and no other (D22 to D24; which calls of
`Analyse` it records: log 15); and it never happens on its own: where it runs, one of the four operations ends in that same
state (log 17). -/
def Obligations.FaultEnterIsTheFaultEntry : Prop :=
  (∀ s : State, s.mode = .streaming →
    (s.phase = .burst → s.cfg.rawCap < s.raw.head + s.xfer.bytes →
      ∃ t : State, exec (.faultEnter .rawOverrun 0) s = .next t ∧ FaultEntered .rawOverrun 0 [] s t) ∧
    (∀ c < s.cfg.nCh, s.phase = .send →
      ∃ t : State, exec (.faultEnter .sendFail c) s = .next t ∧ FaultEntered .sendFail c [] s t) ∧
    (s.phase = .align → CursorsInOrder s.cfg.rawCap s.raw → 8 ≤ avail s.raw → s.cfg.alignLimit ≠ some 0 →
      (∀ i, 8 * i + 8 ≤ avail s.raw → (∀ m, s.cfg.alignLimit = some m → i < m) →
        memGet s.cfg.fill s.raw.mem (s.raw.read + 8 * i + 7) ≠ s.cfg.marker) →
      ∃ t : State, exec (.faultEnter .alignFail 0) s = .next t ∧ FaultEntered .alignFail 0 [] s t) ∧
    (s.phase = .decode → s.aligned = true → CursorsInOrder s.cfg.rawCap s.raw → 8 ≤ avail s.raw →
      ((headerAt s).b7 ≠ s.cfg.marker →
        ∃ t : State, exec (.faultEnter .desync 0) s = .next t ∧ FaultEntered .desync 0 [] s t) ∧
      ((headerAt s).b7 = s.cfg.marker → (s.cacheValid = true → headerAt s ≠ s.codeCache) →
        (s.cfg.analyse (headerAt s)).cnt.sum ≠ (s.cfg.analyse (headerAt s)).flen →
        ∃ t : State, exec (.faultEnter .badLayout 0) s = .next t ∧
          FaultEntered .badLayout 0 [.analyse (headerAt s)] s t) ∧
      ∀ (l : Layout) (c : Nat), (headerAt s).b7 = s.cfg.marker → l = layoutFor s (headerAt s) → l.cnt.sum = l.flen →
        (l.flen + 1) * 8 ≤ avail s.raw → c < s.cfg.nCh → s.cfg.chCap < (chan s c).head + 6 * l.cnt.getD c 0 →
        (∀ d < c, (chan s d).head + 6 * l.cnt.getD d 0 ≤ s.cfg.chCap) →
        ∃ t : State, exec (.faultEnter .chOverrun c) s = .next t ∧
          FaultEntered .chOverrun c (if cacheHit s (headerAt s) = true then [] else [.analyse (headerAt s)]) s t)) ∧
  ∀ (s t : State) (cause : Cause) (info : Nat), exec (.faultEnter cause info) s = .next t →
    s.mode = .streaming ∧ (∃ calls, FaultEntered cause info calls s t) ∧
      ((s.phase = .burst ∧ exec .burst s = .next t) ∨ (s.phase = .align ∧ exec .align s = .next t) ∨
        (s.phase = .decode ∧ exec .decode s = .next t) ∨ (s.phase = .send ∧ exec (.sendFail info) s = .next t))

/-- R231: FAULT_EXIT goes to Idle and changes nothing else: FAULT_CAUSE stays readable (D24). -/
def Obligations.FaultExitReturnsToIdle : Prop :=
  ∀ s : State, s.mode = .faulting → exec .faultExit s = .next { s with mode := .idle }

/-- R240: ENV_ACT and ENV_DIAG_CLEAR, in every mode and phase: ACT takes the value (its earlier one is what a stale read may
return: log 8), DIAG loses exactly the bits of the mask, and nothing else changes. -/
def Obligations.ExternalWrites : Prop :=
  ∀ s : State, (∀ b, exec (.envAct b) s = .next { s with act := b, actPrev := s.act }) ∧
    ∀ m, ∃ t : State, exec (.envDiagClear m) s = .next t ∧ t = { s with diag := t.diag } ∧
      ∀ k, t.diag.testBit k = (s.diag.testBit k && !m.testBit k)

/-- R233: faults cannot nest. An instruction that runs outside Streaming raises none: it does not lead into Faulting, and the recorded
cause and information stay, but for START, which clears them; and FAULT_ENTER leaves Streaming. -/
def Obligations.FaultsCannotNest : Prop :=
  ∀ (i : Instr) (s t : State), exec i s = .next t →
    (s.mode ≠ .streaming → (t.mode = .faulting → s.mode = .faulting) ∧
      ((t.faultCause = s.faultCause ∧ t.faultInfo = s.faultInfo) ∨ (i = .start ∧ t.faultCause = none ∧ t.faultInfo = 0))) ∧
    ∀ cause info, i = .faultEnter cause info → s.mode = .streaming ∧ t.mode = .faulting

/-! ## Whole-machine rules and invariants -/

/-- R120: every step keeps MODE or moves it along an edge of the table; and each edge is taken by the instruction, and under the
condition, the table gives it. (Into Faulting: BURST, ALIGN, DECODE, SEND_FAIL of the table; APPEND of R220; the stream's words that
ALIGN and DECODE meet, log 19; FAULT_ENTER, the fault outcome itself, log 17.) -/
def Obligations.ModeMovesAlongTheEdges : Prop :=
  (∀ s t : State, step s = .next t →
    t.mode = s.mode ∨ (s.mode = .idle ∧ t.mode = .starting) ∨ (s.mode = .starting ∧ t.mode = .streaming) ∨
    (s.mode = .streaming ∧ s.phase = .top ∧ t.mode = .idle) ∨ (s.mode = .streaming ∧ t.mode = .faulting) ∨
    (s.mode = .faulting ∧ t.mode = .idle)) ∧
  ∀ (i : Instr) (s t : State), exec i s = .next t →
    (s.mode = .idle → t.mode =
      if i = .idlePoll ∧ actRead s = true ∧ (s.armed = true ∨ s.cfg.restartOnLevel = true) then .starting else .idle) ∧
    (s.mode = .starting → t.mode = if i = .start then .streaming else .starting) ∧
    (s.mode = .streaming →
      (i = .topCheck → t.mode = if actRead s = true then .streaming else .idle) ∧
      (i ≠ .topCheck → t.mode = .streaming ∨
        (t.mode = .faulting ∧
          (i = .burst ∨ i = .align ∨ i = .decode ∨ (∃ c, i = .sendFail c) ∨ (∃ d, i = .append d) ∨ (∃ w, i = .hdr w) ∨
            (∃ w, i = .nonhdr w) ∨ (∃ h ws, i = .frame h ws) ∨ ∃ c n, i = .faultEnter c n)))) ∧
    (s.mode = .faulting → t.mode = if i = .faultExit then .idle else .faulting)

/-- R36, R128: ACT is read at IDLE_POLL and TOP_CHECK only: on every other instruction a different ACT makes no difference to
anything but ACT itself. -/
def Obligations.ActIsReadAtTwoPlaces : Prop :=
  ∀ (i : Instr) (s t : State) (a b : Bool), i ≠ .idlePoll → i ≠ .topCheck → (∀ x, i ≠ .envAct x) → exec i s = .next t →
    exec i { s with act := a, actPrev := b } = .next { t with act := a, actPrev := b }

/-- R7, R20: the parameters are configuration: no step writes them (log 1). -/
def Obligations.ParametersNeverChange : Prop := ∀ s t : State, step s = .next t → t.cfg = s.cfg

/-- R45: `read <= head <= capacity` for RAW and every channel, and every byte the memories list inside its arena: so it is after
power-on, whatever the parameters, and every step keeps it, so that it holds in every reachable state. -/
def Obligations.StepKeepsCursors : Prop :=
  (∀ p : Params, CursorsOk (State.resetWith p) ∧ ArenasOk (State.resetWith p)) ∧
    ∀ s t : State, CursorsOk s → ArenasOk s → step s = .next t → CursorsOk t ∧ ArenasOk t

/-- Every step keeps every memory in its canonical form, and one buffer, one count and one sequence counter for each channel. -/
def Obligations.StepKeepsMemories : Prop :=
  ∀ s t : State, MemoriesOk s → SizesOk s → step s = .next t → MemoriesOk t ∧ SizesOk t

/-- R169, R28: every step keeps the cache true: while valid it is the valid layout that `Analyse` gives for its code. -/
def Obligations.StepKeepsTheCacheTrue : Prop := ∀ s t : State, CacheOk s → step s = .next t → CacheOk t

/-- R26, R30, R33, R34, R35, R47, R126, R142, R270: every step keeps the sequencing invariants. -/
def Obligations.StepKeepsTheSequence : Prop := ∀ s t : State, SequencingOk s → step s = .next t → SequencingOk t

/-- R63: from a state with its cursors in order and a true cache, no step accesses a byte outside an arena. -/
def Obligations.StepStaysInsideTheArenas : Prop := ∀ s : State, CursorsOk s → CacheOk s → InsideArenas (step s)

/-- The state after power-on meets every invariant, whatever the parameters. (GRACE_CNT and DIAG have no power-on value in R44: that
they are 0, and so within GRACE_BURSTS and DIAG_WIDTH, is the model's choice: log 6.) -/
def Obligations.PowerOnMeetsTheInvariants : Prop :=
  ∀ p : Params, CursorsOk (State.resetWith p) ∧ ArenasOk (State.resetWith p) ∧ MemoriesOk (State.resetWith p) ∧
    SizesOk (State.resetWith p) ∧ CacheOk (State.resetWith p) ∧ SequencingOk (State.resetWith p)

/-- R261, R44 column power-on: what the spec says of the state after power-on (D30), that the worker's first operation is IDLE_POLL,
and R7's defaults (D13, D16, D25). The clause `raw.mem = []`, no byte of RAW listed, is the model's and not the spec's: R44 gives
the arenas no contents (log 5). -/
def Obligations.PowerOnState : Prop :=
  State.reset.mode = .idle ∧ State.reset.armed = true ∧ State.reset.streamEn = false ∧ State.reset.faultCause = none ∧
    State.reset.faultInfo = 0 ∧ State.reset.raw.read = 0 ∧ State.reset.raw.head = 0 ∧
    (∀ c < State.reset.cfg.nCh, (chan State.reset c).read = 0 ∧ (chan State.reset c).head = 0) ∧
    State.reset.aligned = false ∧ State.reset.cacheValid = false ∧ State.reset.raw.mem = [] ∧
    workerOp State.reset.mode State.reset.phase = .idlePoll ∧
    State.reset.cfg.alignLimit = none ∧ State.reset.cfg.fcReselect = false ∧ State.reset.cfg.restartOnLevel = false

/-- R8: with RAW sized as the rule says, a BURST behind a residue of at most `8 * MAX_FLEN` bytes never overruns; and a DEFER leaves
no more than that when the residue is a whole number of words. -/
def Obligations.SizingPreventsRawOverrun : Prop :=
  ∀ s t : State, 8 * s.cfg.maxFlen + 32768 ≤ s.cfg.rawCap →
    (s.raw.head ≤ 8 * s.cfg.maxFlen → exec .burst s = .next t → t.mode = .streaming) ∧
    (CacheOk s → 8 ∣ avail s.raw → exec .decode s = .next t → t.mode = .streaming → t.phase = .compact →
      avail t.raw ≤ 8 * s.cfg.maxFlen)
end

