-- ==== Sys2Proof/Laws/Codec.lean ====
section
/-! SUPPORT. The readers of Decode.lean and the encoder's pieces undo each other: each reader gives back what was written, and what it
accepts is what the encoder writes. -/

namespace Sys2Proof

/-! Reading what was written. -/

theorem takeNat_digits (f n : Nat) (h : n ≤ f) (rest : List Byte) : takeNat (natDigits f n ++ rest) = .ok (n, rest) := by
  induction f generalizing n with
  | zero => obtain rfl : n = 0 := by omega
            rfl
  | succ f ih =>
    unfold natDigits
    split
    · rename_i h1
      have : n % 256 = n := by omega
      simp [takeNat, this, h1]
    · rename_i h1
      have h2 : (n % 128 + 128) % 256 = n % 128 + 128 := by omega
      simp only [List.cons_append, takeNat, BitVec.toNat_ofNat, Nat.reducePow, h2]
      rw [if_neg (by omega), ih _ (by omega)]
      have : n / 128 ≠ 0 := by omega
      simp only [this, if_false]
      congr 2; omega

theorem takeNat_bytes (n : Nat) (rest : List Byte) :
    takeNat (natBytes n ++ rest) = .ok (n, rest) := takeNat_digits n n le_rfl rest

theorem takeWord_bytes (w : Word8) (rest : List Byte) : takeWord (w.bytes ++ rest) = .ok (w, rest) := rfl

theorem takeWords_bytes (ws : List Word8) (rest : List Byte) :
    takeWords ws.length (ws.flatMap Word8.bytes ++ rest) = .ok (ws, rest) := by
  induction ws with
  | nil => rfl
  | cons w ws ih => simp only [List.length_cons, List.flatMap_cons, List.append_assoc, takeWords, takeWord_bytes, ih]

theorem takeBytes_bytes (ds rest : List Byte) : takeBytes ds.length (ds ++ rest) = .ok (ds, rest) := by
  induction ds with
  | nil => rfl
  | cons w ws ih => simp only [List.length_cons, List.cons_append, takeBytes, ih]

/-! What a reader accepts was written so. -/

theorem takeNat_inv {bs : List Byte} {n : Nat} {rest : List Byte} (h : takeNat bs = .ok (n, rest)) :
    ∀ f, n ≤ f → bs = natDigits f n ++ rest := by
  induction bs generalizing n with
  | nil => cases h
  | cons b bs ih =>
    intro f hf
    simp only [takeNat] at h
    split at h
    · rename_i hb
      cases h
      cases f with
      | zero => simp [natDigits]
      | succ f => simp [natDigits, hb]
    · rename_i hb
      split at h
      · cases h
      · rename_i v r hv
        split at h
        · cases h
        · rename_i hv0
          cases h
          have hb2 := b.isLt
          cases f with
          | zero => omega
          | succ f =>
            rw [natDigits, if_neg (by omega), ih hv f (by omega)]
            have h1 : (b.toNat - 128 + 128 * v) / 128 = v := by omega
            have h2 : (b.toNat - 128 + 128 * v) % 128 + 128 = b.toNat := by omega
            rw [h1, h2]; simp

theorem takeWord_inv {bs : List Byte} {w : Word8} {rest : List Byte} (h : takeWord bs = .ok (w, rest)) : bs = w.bytes ++ rest := by
  unfold takeWord at h; split at h <;> cases h; rfl

theorem takeWords_inv {n : Nat} {bs : List Byte} {ws : List Word8} {rest : List Byte} (h : takeWords n bs = .ok (ws, rest)) :
    bs = ws.flatMap Word8.bytes ++ rest := by
  induction n generalizing bs ws with
  | zero => cases h; rfl
  | succ n ih =>
    simp only [takeWords] at h
    split at h
    · cases h
    · rename_i hw
      split at h <;> cases h
      rename_i hws
      simp [takeWord_inv hw, ih hws]

theorem takeBytes_inv {n : Nat} {bs ws rest : List Byte} (h : takeBytes n bs = .ok (ws, rest)) : bs = ws ++ rest ∧ ws.length = n := by
  induction n generalizing bs ws with
  | zero => cases h; exact ⟨rfl, rfl⟩
  | succ n ih =>
    cases bs with
    | nil => cases h
    | cons b bs =>
    simp only [takeBytes] at h
    split at h <;> cases h
    rename_i hws
    obtain ⟨rfl, rfl⟩ := ih hws
    simp

end Sys2Proof
end

