-- ==== Sys2Proof/Laws/Memory.lean ====
section
/-! SUPPORT. The laws of memory: every operation keeps the canonical form; a read after a write gives the value written at the
bytes written and what was there elsewhere; compaction moves the residue and keeps it. -/

namespace Sys2Proof.Machine

variable {fill : Byte} {m : Memory}

/-! The canonical form. -/

theorem wf_cons {a : Nat} {b : Byte} :
    Memory.wf fill ((a, b) :: m) = true ↔ b ≠ fill ∧ (∀ c ∈ m, a < c.1) ∧ Memory.wf fill m = true := by
  simp [Memory.wf, and_assoc]

/-- An offset below every entry reads as an unlisted one. -/
theorem memGet_of_lt_all {i : Nat} (h : ∀ c ∈ m, i < c.1) : memGet fill m i = fill := by
  induction m with
  | nil => rfl
  | cons c m ih =>
    have h1 := h c (by simp)
    rw [memGet, if_neg (by omega)]
    exact ih fun d hd => h d (by simp [hd])

/-- A write at `i` puts nothing at or below an `x` that all entries and `i` are above. -/
theorem memPut_above {x i : Nat} {v : Byte} (h : ∀ c ∈ m, x < c.1) (hi : x < i) : ∀ c ∈ memPut fill m i v, x < c.1 := by
  induction m with
  | nil => intro c hc; simp only [memPut] at hc; split at hc <;> simp_all
  | cons d m ih =>
    have ih := ih fun c hc => h c (by simp [hc])
    intro c hc
    simp only [memPut] at hc
    split at hc
    · split at hc
      · exact h c hc
      · rcases List.mem_cons.1 hc with rfl | hc
        · exact hi
        · exact h c hc
    · split at hc
      · split at hc
        · exact h c (by simp [hc])
        · rcases List.mem_cons.1 hc with rfl | hc
          · exact hi
          · exact h c (by simp [hc])
      · rcases List.mem_cons.1 hc with rfl | hc
        · exact h _ (by simp)
        · exact ih c hc

/-- A write keeps the canonical form. -/
theorem memPut_wf {i : Nat} {v : Byte} (h : Memory.wf fill m = true) : Memory.wf fill (memPut fill m i v) = true := by
  induction m with
  | nil => simp only [memPut]; split <;> simp_all [Memory.wf]
  | cons d m ih =>
    obtain ⟨a, b⟩ := d
    obtain ⟨hb, ha, hm⟩ := wf_cons.1 h
    simp only [memPut]
    split
    · split
      · exact h
      · refine wf_cons.2 ⟨by assumption, ?_, h⟩
        intro c hc
        rcases List.mem_cons.1 hc with rfl | hc
        · assumption
        · exact lt_trans (by assumption) (ha c hc)
    · split
      · split
        · exact hm
        · subst_vars; exact wf_cons.2 ⟨by assumption, ha, hm⟩
      · exact wf_cons.2 ⟨hb, memPut_above ha (by omega), ih hm⟩

theorem memWrite_wf {a : Nat} {s : List Byte} (h : Memory.wf fill m = true) : Memory.wf fill (memWrite fill m a s) = true := by
  induction s generalizing m a with
  | nil => exact h
  | cons v s ih => exact ih (memPut_wf h)

/-! Read after write. -/

theorem memGet_memPut {i j : Nat} {v : Byte} (h : Memory.wf fill m = true) :
    memGet fill (memPut fill m i v) j = if j = i then v else memGet fill m j := by
  induction m with
  | nil => simp only [memPut]; split <;> simp_all [memGet]
  | cons d m ih =>
    obtain ⟨a, b⟩ := d
    obtain ⟨hb, ha, hm⟩ := wf_cons.1 h
    simp only [memPut]
    split
    · split
      · split
        · subst_vars
          refine memGet_of_lt_all fun c hc => ?_
          rcases List.mem_cons.1 hc with rfl | hc
          · assumption
          · exact lt_trans (by assumption) (ha c hc)
        · rfl
      · simp [memGet]
    · split
      · split
        · subst_vars
          simp only [memGet]
          split
          · subst_vars; exact memGet_of_lt_all ha
          · rfl
        · subst_vars; simp only [memGet]; split <;> rfl
      · simp only [memGet, ih hm]
        split
        · subst_vars; rw [if_neg (by omega)]
        · rfl

/-- Outside the bytes written nothing changes. -/
theorem memGet_memWrite_of_not {a j : Nat} {s : List Byte} (h : Memory.wf fill m = true) (hj : j < a ∨ a + s.length ≤ j) :
    memGet fill (memWrite fill m a s) j = memGet fill m j := by
  induction s generalizing m a with
  | nil => rfl
  | cons v s ih =>
    simp only [List.length_cons] at hj
    rw [memWrite, ih (memPut_wf h) (by omega), memGet_memPut h, if_neg (by omega)]

/-- The bytes written are there. -/
theorem memGet_memWrite_of_lt {a k : Nat} {s : List Byte} (h : Memory.wf fill m = true) (hk : k < s.length) :
    memGet fill (memWrite fill m a s) (a + k) = s[k] := by
  induction s generalizing m a k with
  | nil => simp at hk
  | cons v s ih =>
    rw [memWrite]
    cases k with
    | zero =>
      rw [memGet_memWrite_of_not (memPut_wf h) (by omega), memGet_memPut h]
      simp
    | succ k =>
      have := ih (m := memPut fill m a v) (a := a + 1) (k := k) (memPut_wf h) (by simpa using hk)
      rw [show a + (k + 1) = a + 1 + k by omega, this]
      simp

@[simp] theorem length_memRead {a n : Nat} : (memRead fill m a n).length = n := by simp [memRead]

theorem getElem_memRead {a n k : Nat} (hk : k < (memRead fill m a n).length) :
    (memRead fill m a n)[k] = memGet fill m (a + k) := by simp [memRead]

@[simp] theorem memRead_zero {a : Nat} : memRead fill m a 0 = [] := rfl

theorem memRead_add {a n k : Nat} : memRead fill m a (n + k) = memRead fill m a n ++ memRead fill m (a + n) k := by
  simp [memRead, List.range_add, Function.comp_def, Nat.add_assoc]

/-- Two reads agree where the bytes do. -/
theorem memRead_congr {m' : Memory} {a a' n : Nat} (h : ∀ j < n, memGet fill m (a + j) = memGet fill m' (a' + j)) :
    memRead fill m a n = memRead fill m' a' n := by
  simp only [memRead]
  exact List.map_congr_left fun j hj => h j (List.mem_range.1 hj)

/-- Reading back what was written. -/
theorem memRead_memWrite {a : Nat} {s : List Byte} (h : Memory.wf fill m = true) :
    memRead fill (memWrite fill m a s) a s.length = s := by
  apply List.ext_getElem
  · simp
  · intro k h1 h2
    rw [getElem_memRead, memGet_memWrite_of_lt h (by simpa using h2)]

/-- A read that a write does not touch. -/
theorem memRead_memWrite_of_not {a b n : Nat} {s : List Byte} (h : Memory.wf fill m = true)
    (hd : b + n ≤ a ∨ a + s.length ≤ b) : memRead fill (memWrite fill m a s) b n = memRead fill m b n :=
  memRead_congr fun j hj => memGet_memWrite_of_not h (by omega)

/-! Entries stay inside an arena. -/

theorem memPut_below {cap i : Nat} {v : Byte} (h : ∀ c ∈ m, c.1 < cap) (hi : i < cap) :
    ∀ c ∈ memPut fill m i v, c.1 < cap := by
  induction m with
  | nil => intro c hc; simp only [memPut] at hc; split at hc <;> simp_all
  | cons d m ih =>
    have ih := ih fun c hc => h c (by simp [hc])
    intro c hc
    simp only [memPut] at hc
    split at hc
    · split at hc
      · exact h c hc
      · rcases List.mem_cons.1 hc with rfl | hc
        · exact hi
        · exact h c hc
    · split at hc
      · split at hc
        · exact h c (by simp [hc])
        · rcases List.mem_cons.1 hc with rfl | hc
          · exact hi
          · exact h c (by simp [hc])
      · rcases List.mem_cons.1 hc with rfl | hc
        · exact h _ (by simp)
        · exact ih c hc

theorem memWrite_below {cap a : Nat} {s : List Byte} (h : ∀ c ∈ m, c.1 < cap) (hs : a + s.length ≤ cap) :
    ∀ c ∈ memWrite fill m a s, c.1 < cap := by
  induction s generalizing m a with
  | nil => exact h
  | cons v s ih =>
    simp only [List.length_cons] at hs
    exact ih (memPut_below h (by omega)) (by omega)

/-! Buffers. -/

@[simp] theorem flush_mem (B : Buffer) : (flush B).mem = B.mem := rfl
@[simp] theorem flush_read (B : Buffer) : (flush B).read = 0 := rfl
@[simp] theorem flush_head (B : Buffer) : (flush B).head = 0 := rfl
@[simp] theorem appendBytes_read (B : Buffer) (s : List Byte) : (appendBytes fill B s).read = B.read := rfl
@[simp] theorem appendBytes_head (B : Buffer) (s : List Byte) : (appendBytes fill B s).head = B.head + s.length := rfl
@[simp] theorem appendBytes_mem (B : Buffer) (s : List Byte) : (appendBytes fill B s).mem = memWrite fill B.mem B.head s := rfl

@[simp] theorem compact_read (B : Buffer) : (compact fill B).read = 0 := by
  unfold compact; split
  · rfl
  · omega

/-- Compaction keeps the number of unread bytes. -/
theorem compact_head (B : Buffer) : (compact fill B).head = if 0 < B.read then avail B else B.head := by
  unfold compact; split <;> rfl

theorem compact_of_read_zero {B : Buffer} (h : B.read = 0) : compact fill B = B := by simp [compact, h]

theorem compact_wf {B : Buffer} (h : Memory.wf fill B.mem = true) : Memory.wf fill (compact fill B).mem = true := by
  unfold compact; split
  · exact memWrite_wf h
  · exact h

theorem avail_compact (B : Buffer) : avail (compact fill B) = avail B := by
  unfold avail; rw [compact_read, compact_head]; unfold avail; split <;> omega

/-- Byte `j` of the residue is at offset `j` after compaction. -/
theorem memGet_compact_of_lt {B : Buffer} {j : Nat} (h : Memory.wf fill B.mem = true) (hj : j < avail B) :
    memGet fill (compact fill B).mem j = memGet fill B.mem (B.read + j) := by
  unfold compact; split
  · have := memGet_memWrite_of_lt (fill := fill) (m := B.mem) (a := 0) (s := memRead fill B.mem B.read (avail B)) (k := j) h
      (by simpa using hj)
    rw [Nat.zero_add] at this
    rw [this, getElem_memRead]
  · rw [show B.read = 0 by omega, Nat.zero_add]

/-- Bytes beyond the residue keep what they held. -/
theorem memGet_compact_of_le {B : Buffer} {j : Nat} (h : Memory.wf fill B.mem = true) (hj : avail B ≤ j) :
    memGet fill (compact fill B).mem j = memGet fill B.mem j := by
  unfold compact; split
  · exact memGet_memWrite_of_not h (by simp; omega)
  · rfl

theorem appendBytes_wf {B : Buffer} {s : List Byte} (h : Memory.wf fill B.mem = true) :
    Memory.wf fill (appendBytes fill B s).mem = true := memWrite_wf h

/-! The state after power-on. -/

theorem reset_raw_wf (p : Params) : Memory.wf p.fill (State.resetWith p).raw.mem = true := rfl

theorem reset_ch_wf (p : Params) : ∀ B ∈ (State.resetWith p).ch, Memory.wf p.fill B.mem = true := by
  intro B hB
  rw [List.eq_of_mem_replicate hB]
  rfl

end Sys2Proof.Machine
end

