-- ==== Sys2Proof/Laws/State.lean ====
section
/-! SUPPORT. One lemma per field per named update of the state, so that no later proof unfolds a record update. -/

namespace Sys2Proof.Machine

/-! `takeFault`. -/

@[simp] theorem takeFault_raw (cause : Cause) (info : Nat) (s : State) : (takeFault cause info s).raw = flush s.raw := rfl
@[simp] theorem takeFault_ch (cause : Cause) (info : Nat) (s : State) : (takeFault cause info s).ch = s.ch.map flush := rfl
@[simp] theorem takeFault_aligned (cause : Cause) (info : Nat) (s : State) : (takeFault cause info s).aligned = s.aligned := rfl
@[simp] theorem takeFault_cacheValid (cause : Cause) (info : Nat) (s : State) : (takeFault cause info s).cacheValid = s.cacheValid := rfl
@[simp] theorem takeFault_codeCache (cause : Cause) (info : Nat) (s : State) : (takeFault cause info s).codeCache = s.codeCache := rfl
@[simp] theorem takeFault_flen (cause : Cause) (info : Nat) (s : State) : (takeFault cause info s).flen = s.flen := rfl
@[simp] theorem takeFault_cnt (cause : Cause) (info : Nat) (s : State) : (takeFault cause info s).cnt = s.cnt := rfl
@[simp] theorem takeFault_xfer (cause : Cause) (info : Nat) (s : State) : (takeFault cause info s).xfer = s.xfer := rfl
@[simp] theorem takeFault_graceCnt (cause : Cause) (info : Nat) (s : State) : (takeFault cause info s).graceCnt = s.graceCnt := rfl
@[simp] theorem takeFault_mode (cause : Cause) (info : Nat) (s : State) : (takeFault cause info s).mode = .faulting := rfl
@[simp] theorem takeFault_phase (cause : Cause) (info : Nat) (s : State) : (takeFault cause info s).phase = Config.phaseDraw s.inputs.draws := rfl
@[simp] theorem takeFault_faultCause (cause : Cause) (info : Nat) (s : State) : (takeFault cause info s).faultCause = some cause := rfl
@[simp] theorem takeFault_faultInfo (cause : Cause) (info : Nat) (s : State) : (takeFault cause info s).faultInfo = info := rfl
@[simp] theorem takeFault_armed (cause : Cause) (info : Nat) (s : State) : (takeFault cause info s).armed = s.armed := rfl
@[simp] theorem takeFault_streamEn (cause : Cause) (info : Nat) (s : State) : (takeFault cause info s).streamEn = false := rfl
@[simp] theorem takeFault_diag (cause : Cause) (info : Nat) (s : State) : (takeFault cause info s).diag = s.diag := rfl
@[simp] theorem takeFault_act (cause : Cause) (info : Nat) (s : State) : (takeFault cause info s).act = s.act := rfl
@[simp] theorem takeFault_actPrev (cause : Cause) (info : Nat) (s : State) : (takeFault cause info s).actPrev = s.actPrev := rfl
@[simp] theorem takeFault_seq (cause : Cause) (info : Nat) (s : State) : (takeFault cause info s).seq = s.seq := rfl
@[simp] theorem takeFault_cfg (cause : Cause) (info : Nat) (s : State) : (takeFault cause info s).cfg = s.cfg := rfl
@[simp] theorem takeFault_agenda (cause : Cause) (info : Nat) (s : State) : (takeFault cause info s).agenda = s.agenda := rfl
@[simp] theorem takeFault_inputs (cause : Cause) (info : Nat) (s : State) : (takeFault cause info s).inputs = tick 1 s.inputs := rfl
@[simp] theorem takeFault_out (cause : Cause) (info : Nat) (s : State) : (takeFault cause info s).out = .streamEnable false :: s.out := rfl

/-! `leaveFault`. -/

@[simp] theorem leaveFault_raw (s : State) : (leaveFault s).raw = s.raw := rfl
@[simp] theorem leaveFault_ch (s : State) : (leaveFault s).ch = s.ch := rfl
@[simp] theorem leaveFault_aligned (s : State) : (leaveFault s).aligned = s.aligned := rfl
@[simp] theorem leaveFault_cacheValid (s : State) : (leaveFault s).cacheValid = s.cacheValid := rfl
@[simp] theorem leaveFault_codeCache (s : State) : (leaveFault s).codeCache = s.codeCache := rfl
@[simp] theorem leaveFault_flen (s : State) : (leaveFault s).flen = s.flen := rfl
@[simp] theorem leaveFault_cnt (s : State) : (leaveFault s).cnt = s.cnt := rfl
@[simp] theorem leaveFault_xfer (s : State) : (leaveFault s).xfer = s.xfer := rfl
@[simp] theorem leaveFault_graceCnt (s : State) : (leaveFault s).graceCnt = s.graceCnt := rfl
@[simp] theorem leaveFault_mode (s : State) : (leaveFault s).mode = .idle := rfl
@[simp] theorem leaveFault_phase (s : State) : (leaveFault s).phase = s.phase := rfl
@[simp] theorem leaveFault_faultCause (s : State) : (leaveFault s).faultCause = s.faultCause := rfl
@[simp] theorem leaveFault_faultInfo (s : State) : (leaveFault s).faultInfo = s.faultInfo := rfl
@[simp] theorem leaveFault_armed (s : State) : (leaveFault s).armed = s.armed := rfl
@[simp] theorem leaveFault_streamEn (s : State) : (leaveFault s).streamEn = s.streamEn := rfl
@[simp] theorem leaveFault_diag (s : State) : (leaveFault s).diag = s.diag := rfl
@[simp] theorem leaveFault_act (s : State) : (leaveFault s).act = s.act := rfl
@[simp] theorem leaveFault_actPrev (s : State) : (leaveFault s).actPrev = s.actPrev := rfl
@[simp] theorem leaveFault_seq (s : State) : (leaveFault s).seq = s.seq := rfl
@[simp] theorem leaveFault_cfg (s : State) : (leaveFault s).cfg = s.cfg := rfl
@[simp] theorem leaveFault_agenda (s : State) : (leaveFault s).agenda = s.agenda := rfl
@[simp] theorem leaveFault_inputs (s : State) : (leaveFault s).inputs = s.inputs := rfl
@[simp] theorem leaveFault_out (s : State) : (leaveFault s).out = s.out := rfl

/-! `setChan`. -/

@[simp] theorem setChan_raw (s : State) (c : Nat) (B : Buffer) : (setChan s c B).raw = s.raw := rfl
@[simp] theorem setChan_ch (s : State) (c : Nat) (B : Buffer) : (setChan s c B).ch = s.ch.set c B := rfl
@[simp] theorem setChan_aligned (s : State) (c : Nat) (B : Buffer) : (setChan s c B).aligned = s.aligned := rfl
@[simp] theorem setChan_cacheValid (s : State) (c : Nat) (B : Buffer) : (setChan s c B).cacheValid = s.cacheValid := rfl
@[simp] theorem setChan_codeCache (s : State) (c : Nat) (B : Buffer) : (setChan s c B).codeCache = s.codeCache := rfl
@[simp] theorem setChan_flen (s : State) (c : Nat) (B : Buffer) : (setChan s c B).flen = s.flen := rfl
@[simp] theorem setChan_cnt (s : State) (c : Nat) (B : Buffer) : (setChan s c B).cnt = s.cnt := rfl
@[simp] theorem setChan_xfer (s : State) (c : Nat) (B : Buffer) : (setChan s c B).xfer = s.xfer := rfl
@[simp] theorem setChan_graceCnt (s : State) (c : Nat) (B : Buffer) : (setChan s c B).graceCnt = s.graceCnt := rfl
@[simp] theorem setChan_mode (s : State) (c : Nat) (B : Buffer) : (setChan s c B).mode = s.mode := rfl
@[simp] theorem setChan_phase (s : State) (c : Nat) (B : Buffer) : (setChan s c B).phase = s.phase := rfl
@[simp] theorem setChan_faultCause (s : State) (c : Nat) (B : Buffer) : (setChan s c B).faultCause = s.faultCause := rfl
@[simp] theorem setChan_faultInfo (s : State) (c : Nat) (B : Buffer) : (setChan s c B).faultInfo = s.faultInfo := rfl
@[simp] theorem setChan_armed (s : State) (c : Nat) (B : Buffer) : (setChan s c B).armed = s.armed := rfl
@[simp] theorem setChan_streamEn (s : State) (c : Nat) (B : Buffer) : (setChan s c B).streamEn = s.streamEn := rfl
@[simp] theorem setChan_diag (s : State) (c : Nat) (B : Buffer) : (setChan s c B).diag = s.diag := rfl
@[simp] theorem setChan_act (s : State) (c : Nat) (B : Buffer) : (setChan s c B).act = s.act := rfl
@[simp] theorem setChan_actPrev (s : State) (c : Nat) (B : Buffer) : (setChan s c B).actPrev = s.actPrev := rfl
@[simp] theorem setChan_seq (s : State) (c : Nat) (B : Buffer) : (setChan s c B).seq = s.seq := rfl
@[simp] theorem setChan_cfg (s : State) (c : Nat) (B : Buffer) : (setChan s c B).cfg = s.cfg := rfl
@[simp] theorem setChan_agenda (s : State) (c : Nat) (B : Buffer) : (setChan s c B).agenda = s.agenda := rfl
@[simp] theorem setChan_inputs (s : State) (c : Nat) (B : Buffer) : (setChan s c B).inputs = s.inputs := rfl
@[simp] theorem setChan_out (s : State) (c : Nat) (B : Buffer) : (setChan s c B).out = s.out := rfl

/-! `startState`. -/

@[simp] theorem startState_raw (s : State) : (startState s).raw = flush s.raw := rfl
@[simp] theorem startState_ch (s : State) : (startState s).ch = s.ch.map flush := rfl
@[simp] theorem startState_aligned (s : State) : (startState s).aligned = false := rfl
@[simp] theorem startState_cacheValid (s : State) : (startState s).cacheValid = false := rfl
@[simp] theorem startState_codeCache (s : State) : (startState s).codeCache = s.codeCache := rfl
@[simp] theorem startState_flen (s : State) : (startState s).flen = s.flen := rfl
@[simp] theorem startState_cnt (s : State) : (startState s).cnt = s.cnt := rfl
@[simp] theorem startState_xfer (s : State) : (startState s).xfer = s.xfer := rfl
@[simp] theorem startState_graceCnt (s : State) : (startState s).graceCnt = s.cfg.graceBursts := rfl
@[simp] theorem startState_mode (s : State) : (startState s).mode = .streaming := rfl
@[simp] theorem startState_phase (s : State) : (startState s).phase = .top := rfl
@[simp] theorem startState_faultCause (s : State) : (startState s).faultCause = none := rfl
@[simp] theorem startState_faultInfo (s : State) : (startState s).faultInfo = 0 := rfl
@[simp] theorem startState_armed (s : State) : (startState s).armed = false := rfl
@[simp] theorem startState_streamEn (s : State) : (startState s).streamEn = true := rfl
@[simp] theorem startState_diag (s : State) : (startState s).diag = s.diag := rfl
@[simp] theorem startState_act (s : State) : (startState s).act = s.act := rfl
@[simp] theorem startState_actPrev (s : State) : (startState s).actPrev = s.actPrev := rfl
@[simp] theorem startState_seq (s : State) : (startState s).seq = s.seq.map fun _ => 0 := rfl
@[simp] theorem startState_cfg (s : State) : (startState s).cfg = s.cfg := rfl
@[simp] theorem startState_agenda (s : State) : (startState s).agenda = s.agenda := rfl
@[simp] theorem startState_inputs (s : State) : (startState s).inputs = s.inputs := rfl
@[simp] theorem startState_out (s : State) : (startState s).out = .streamEnable true :: .fifoReset :: s.out := rfl

/-! `stopState`. -/

@[simp] theorem stopState_raw (s : State) : (stopState s).raw = s.raw := rfl
@[simp] theorem stopState_ch (s : State) : (stopState s).ch = s.ch := rfl
@[simp] theorem stopState_aligned (s : State) : (stopState s).aligned = s.aligned := rfl
@[simp] theorem stopState_cacheValid (s : State) : (stopState s).cacheValid = s.cacheValid := rfl
@[simp] theorem stopState_codeCache (s : State) : (stopState s).codeCache = s.codeCache := rfl
@[simp] theorem stopState_flen (s : State) : (stopState s).flen = s.flen := rfl
@[simp] theorem stopState_cnt (s : State) : (stopState s).cnt = s.cnt := rfl
@[simp] theorem stopState_xfer (s : State) : (stopState s).xfer = s.xfer := rfl
@[simp] theorem stopState_graceCnt (s : State) : (stopState s).graceCnt = s.graceCnt := rfl
@[simp] theorem stopState_mode (s : State) : (stopState s).mode = .idle := rfl
@[simp] theorem stopState_phase (s : State) : (stopState s).phase = Config.phaseDraw s.inputs.draws := rfl
@[simp] theorem stopState_faultCause (s : State) : (stopState s).faultCause = s.faultCause := rfl
@[simp] theorem stopState_faultInfo (s : State) : (stopState s).faultInfo = s.faultInfo := rfl
@[simp] theorem stopState_armed (s : State) : (stopState s).armed = true := rfl
@[simp] theorem stopState_streamEn (s : State) : (stopState s).streamEn = false := rfl
@[simp] theorem stopState_diag (s : State) : (stopState s).diag = s.diag := rfl
@[simp] theorem stopState_act (s : State) : (stopState s).act = s.act := rfl
@[simp] theorem stopState_actPrev (s : State) : (stopState s).actPrev = s.actPrev := rfl
@[simp] theorem stopState_seq (s : State) : (stopState s).seq = s.seq := rfl
@[simp] theorem stopState_cfg (s : State) : (stopState s).cfg = s.cfg := rfl
@[simp] theorem stopState_agenda (s : State) : (stopState s).agenda = s.agenda := rfl
@[simp] theorem stopState_inputs (s : State) : (stopState s).inputs = tick 1 s.inputs := rfl
@[simp] theorem stopState_out (s : State) : (stopState s).out = .streamEnable false :: s.out := rfl

/-! `controlState`. -/

@[simp] theorem controlState_raw (x : BurstSize) (s : State) : (controlState x s).raw = s.raw := rfl
@[simp] theorem controlState_ch (x : BurstSize) (s : State) : (controlState x s).ch = s.ch := rfl
@[simp] theorem controlState_aligned (x : BurstSize) (s : State) : (controlState x s).aligned = s.aligned := rfl
@[simp] theorem controlState_cacheValid (x : BurstSize) (s : State) : (controlState x s).cacheValid = s.cacheValid := rfl
@[simp] theorem controlState_codeCache (x : BurstSize) (s : State) : (controlState x s).codeCache = s.codeCache := rfl
@[simp] theorem controlState_flen (x : BurstSize) (s : State) : (controlState x s).flen = s.flen := rfl
@[simp] theorem controlState_cnt (x : BurstSize) (s : State) : (controlState x s).cnt = s.cnt := rfl
@[simp] theorem controlState_xfer (x : BurstSize) (s : State) : (controlState x s).xfer = x := rfl
@[simp] theorem controlState_graceCnt (x : BurstSize) (s : State) : (controlState x s).graceCnt = s.graceCnt := rfl
@[simp] theorem controlState_mode (x : BurstSize) (s : State) : (controlState x s).mode = s.mode := rfl
@[simp] theorem controlState_phase (x : BurstSize) (s : State) : (controlState x s).phase = if enough (monRead s).occ x = true then .burst else .wait := rfl
@[simp] theorem controlState_faultCause (x : BurstSize) (s : State) : (controlState x s).faultCause = s.faultCause := rfl
@[simp] theorem controlState_faultInfo (x : BurstSize) (s : State) : (controlState x s).faultInfo = s.faultInfo := rfl
@[simp] theorem controlState_armed (x : BurstSize) (s : State) : (controlState x s).armed = s.armed := rfl
@[simp] theorem controlState_streamEn (x : BurstSize) (s : State) : (controlState x s).streamEn = s.streamEn := rfl
@[simp] theorem controlState_diag (x : BurstSize) (s : State) : (controlState x s).diag = alarmed s (monRead s) := rfl
@[simp] theorem controlState_act (x : BurstSize) (s : State) : (controlState x s).act = s.act := rfl
@[simp] theorem controlState_actPrev (x : BurstSize) (s : State) : (controlState x s).actPrev = s.actPrev := rfl
@[simp] theorem controlState_seq (x : BurstSize) (s : State) : (controlState x s).seq = s.seq := rfl
@[simp] theorem controlState_cfg (x : BurstSize) (s : State) : (controlState x s).cfg = s.cfg := rfl
@[simp] theorem controlState_agenda (x : BurstSize) (s : State) : (controlState x s).agenda = s.agenda := rfl
@[simp] theorem controlState_inputs (x : BurstSize) (s : State) : (controlState x s).inputs = afterMonRead s.inputs := rfl
@[simp] theorem controlState_out (x : BurstSize) (s : State) : (controlState x s).out = .monRead :: s.out := rfl

/-! `burstState`. -/

@[simp] theorem burstState_raw (s : State) : (burstState s).raw = appendBytes s.cfg.fill s.raw (devRead s.inputs s.xfer.bytes) := rfl
@[simp] theorem burstState_ch (s : State) : (burstState s).ch = s.ch := rfl
@[simp] theorem burstState_aligned (s : State) : (burstState s).aligned = s.aligned := rfl
@[simp] theorem burstState_cacheValid (s : State) : (burstState s).cacheValid = s.cacheValid := rfl
@[simp] theorem burstState_codeCache (s : State) : (burstState s).codeCache = s.codeCache := rfl
@[simp] theorem burstState_flen (s : State) : (burstState s).flen = s.flen := rfl
@[simp] theorem burstState_cnt (s : State) : (burstState s).cnt = s.cnt := rfl
@[simp] theorem burstState_xfer (s : State) : (burstState s).xfer = s.xfer := rfl
@[simp] theorem burstState_graceCnt (s : State) : (burstState s).graceCnt = s.graceCnt - 1 := rfl
@[simp] theorem burstState_mode (s : State) : (burstState s).mode = s.mode := rfl
@[simp] theorem burstState_phase (s : State) : (burstState s).phase = phaseAfterData s := rfl
@[simp] theorem burstState_faultCause (s : State) : (burstState s).faultCause = s.faultCause := rfl
@[simp] theorem burstState_faultInfo (s : State) : (burstState s).faultInfo = s.faultInfo := rfl
@[simp] theorem burstState_armed (s : State) : (burstState s).armed = s.armed := rfl
@[simp] theorem burstState_streamEn (s : State) : (burstState s).streamEn = s.streamEn := rfl
@[simp] theorem burstState_diag (s : State) : (burstState s).diag = s.diag := rfl
@[simp] theorem burstState_act (s : State) : (burstState s).act = s.act := rfl
@[simp] theorem burstState_actPrev (s : State) : (burstState s).actPrev = s.actPrev := rfl
@[simp] theorem burstState_seq (s : State) : (burstState s).seq = s.seq := rfl
@[simp] theorem burstState_cfg (s : State) : (burstState s).cfg = s.cfg := rfl
@[simp] theorem burstState_agenda (s : State) : (burstState s).agenda = s.agenda := rfl
@[simp] theorem burstState_inputs (s : State) : (burstState s).inputs = afterDevRead s.inputs s.xfer.bytes := rfl
@[simp] theorem burstState_out (s : State) : (burstState s).out = .devRead s.xfer.bytes :: s.out := rfl

/-! `compactRawState`. -/

@[simp] theorem compactRawState_raw (s : State) : (compactRawState s).raw = compact s.cfg.fill s.raw := rfl
@[simp] theorem compactRawState_ch (s : State) : (compactRawState s).ch = s.ch := rfl
@[simp] theorem compactRawState_aligned (s : State) : (compactRawState s).aligned = s.aligned := rfl
@[simp] theorem compactRawState_cacheValid (s : State) : (compactRawState s).cacheValid = s.cacheValid := rfl
@[simp] theorem compactRawState_codeCache (s : State) : (compactRawState s).codeCache = s.codeCache := rfl
@[simp] theorem compactRawState_flen (s : State) : (compactRawState s).flen = s.flen := rfl
@[simp] theorem compactRawState_cnt (s : State) : (compactRawState s).cnt = s.cnt := rfl
@[simp] theorem compactRawState_xfer (s : State) : (compactRawState s).xfer = s.xfer := rfl
@[simp] theorem compactRawState_graceCnt (s : State) : (compactRawState s).graceCnt = s.graceCnt := rfl
@[simp] theorem compactRawState_mode (s : State) : (compactRawState s).mode = s.mode := rfl
@[simp] theorem compactRawState_phase (s : State) : (compactRawState s).phase = .send := rfl
@[simp] theorem compactRawState_faultCause (s : State) : (compactRawState s).faultCause = s.faultCause := rfl
@[simp] theorem compactRawState_faultInfo (s : State) : (compactRawState s).faultInfo = s.faultInfo := rfl
@[simp] theorem compactRawState_armed (s : State) : (compactRawState s).armed = s.armed := rfl
@[simp] theorem compactRawState_streamEn (s : State) : (compactRawState s).streamEn = s.streamEn := rfl
@[simp] theorem compactRawState_diag (s : State) : (compactRawState s).diag = s.diag := rfl
@[simp] theorem compactRawState_act (s : State) : (compactRawState s).act = s.act := rfl
@[simp] theorem compactRawState_actPrev (s : State) : (compactRawState s).actPrev = s.actPrev := rfl
@[simp] theorem compactRawState_seq (s : State) : (compactRawState s).seq = s.seq := rfl
@[simp] theorem compactRawState_cfg (s : State) : (compactRawState s).cfg = s.cfg := rfl
@[simp] theorem compactRawState_agenda (s : State) : (compactRawState s).agenda = s.agenda := rfl
@[simp] theorem compactRawState_inputs (s : State) : (compactRawState s).inputs = s.inputs := rfl
@[simp] theorem compactRawState_out (s : State) : (compactRawState s).out = s.out := rfl

/-! `sendDoneState`. -/

@[simp] theorem sendDoneState_raw (s : State) : (sendDoneState s).raw = s.raw := rfl
@[simp] theorem sendDoneState_ch (s : State) : (sendDoneState s).ch = s.ch.map (compact s.cfg.fill) := rfl
@[simp] theorem sendDoneState_aligned (s : State) : (sendDoneState s).aligned = s.aligned := rfl
@[simp] theorem sendDoneState_cacheValid (s : State) : (sendDoneState s).cacheValid = s.cacheValid := rfl
@[simp] theorem sendDoneState_codeCache (s : State) : (sendDoneState s).codeCache = s.codeCache := rfl
@[simp] theorem sendDoneState_flen (s : State) : (sendDoneState s).flen = s.flen := rfl
@[simp] theorem sendDoneState_cnt (s : State) : (sendDoneState s).cnt = s.cnt := rfl
@[simp] theorem sendDoneState_xfer (s : State) : (sendDoneState s).xfer = s.xfer := rfl
@[simp] theorem sendDoneState_graceCnt (s : State) : (sendDoneState s).graceCnt = s.graceCnt := rfl
@[simp] theorem sendDoneState_mode (s : State) : (sendDoneState s).mode = s.mode := rfl
@[simp] theorem sendDoneState_phase (s : State) : (sendDoneState s).phase = .top := rfl
@[simp] theorem sendDoneState_faultCause (s : State) : (sendDoneState s).faultCause = s.faultCause := rfl
@[simp] theorem sendDoneState_faultInfo (s : State) : (sendDoneState s).faultInfo = s.faultInfo := rfl
@[simp] theorem sendDoneState_armed (s : State) : (sendDoneState s).armed = s.armed := rfl
@[simp] theorem sendDoneState_streamEn (s : State) : (sendDoneState s).streamEn = s.streamEn := rfl
@[simp] theorem sendDoneState_diag (s : State) : (sendDoneState s).diag = s.diag := rfl
@[simp] theorem sendDoneState_act (s : State) : (sendDoneState s).act = s.act := rfl
@[simp] theorem sendDoneState_actPrev (s : State) : (sendDoneState s).actPrev = s.actPrev := rfl
@[simp] theorem sendDoneState_seq (s : State) : (sendDoneState s).seq = s.seq := rfl
@[simp] theorem sendDoneState_cfg (s : State) : (sendDoneState s).cfg = s.cfg := rfl
@[simp] theorem sendDoneState_agenda (s : State) : (sendDoneState s).agenda = s.agenda := rfl
@[simp] theorem sendDoneState_inputs (s : State) : (sendDoneState s).inputs = s.inputs := rfl
@[simp] theorem sendDoneState_out (s : State) : (sendDoneState s).out = s.out := rfl

/-! `drainState`. -/

@[simp] theorem drainState_raw (c n : Nat) (s : State) : (drainState c n s).raw = s.raw := rfl
@[simp] theorem drainState_ch (c n : Nat) (s : State) : (drainState c n s).ch = s.ch.set c { chan s c with read := (chan s c).read + n } := rfl
@[simp] theorem drainState_aligned (c n : Nat) (s : State) : (drainState c n s).aligned = s.aligned := rfl
@[simp] theorem drainState_cacheValid (c n : Nat) (s : State) : (drainState c n s).cacheValid = s.cacheValid := rfl
@[simp] theorem drainState_codeCache (c n : Nat) (s : State) : (drainState c n s).codeCache = s.codeCache := rfl
@[simp] theorem drainState_flen (c n : Nat) (s : State) : (drainState c n s).flen = s.flen := rfl
@[simp] theorem drainState_cnt (c n : Nat) (s : State) : (drainState c n s).cnt = s.cnt := rfl
@[simp] theorem drainState_xfer (c n : Nat) (s : State) : (drainState c n s).xfer = s.xfer := rfl
@[simp] theorem drainState_graceCnt (c n : Nat) (s : State) : (drainState c n s).graceCnt = s.graceCnt := rfl
@[simp] theorem drainState_mode (c n : Nat) (s : State) : (drainState c n s).mode = s.mode := rfl
@[simp] theorem drainState_phase (c n : Nat) (s : State) : (drainState c n s).phase = s.phase := rfl
@[simp] theorem drainState_faultCause (c n : Nat) (s : State) : (drainState c n s).faultCause = s.faultCause := rfl
@[simp] theorem drainState_faultInfo (c n : Nat) (s : State) : (drainState c n s).faultInfo = s.faultInfo := rfl
@[simp] theorem drainState_armed (c n : Nat) (s : State) : (drainState c n s).armed = s.armed := rfl
@[simp] theorem drainState_streamEn (c n : Nat) (s : State) : (drainState c n s).streamEn = s.streamEn := rfl
@[simp] theorem drainState_diag (c n : Nat) (s : State) : (drainState c n s).diag = s.diag := rfl
@[simp] theorem drainState_act (c n : Nat) (s : State) : (drainState c n s).act = s.act := rfl
@[simp] theorem drainState_actPrev (c n : Nat) (s : State) : (drainState c n s).actPrev = s.actPrev := rfl
@[simp] theorem drainState_seq (c n : Nat) (s : State) : (drainState c n s).seq = s.seq := rfl
@[simp] theorem drainState_cfg (c n : Nat) (s : State) : (drainState c n s).cfg = s.cfg := rfl
@[simp] theorem drainState_agenda (c n : Nat) (s : State) : (drainState c n s).agenda = s.agenda := rfl
@[simp] theorem drainState_inputs (c n : Nat) (s : State) : (drainState c n s).inputs = s.inputs := rfl
@[simp] theorem drainState_out (c n : Nat) (s : State) : (drainState c n s).out = .handed c (memRead s.cfg.fill (chan s c).mem (chan s c).read n) :: s.out := rfl

/-! `noteAnalyse`. -/

@[simp] theorem noteAnalyse_raw (h : Word8) (s : State) : (noteAnalyse h s).raw = s.raw := by unfold noteAnalyse; split <;> rfl
@[simp] theorem noteAnalyse_ch (h : Word8) (s : State) : (noteAnalyse h s).ch = s.ch := by unfold noteAnalyse; split <;> rfl
@[simp] theorem noteAnalyse_aligned (h : Word8) (s : State) : (noteAnalyse h s).aligned = s.aligned := by unfold noteAnalyse; split <;> rfl
@[simp] theorem noteAnalyse_cacheValid (h : Word8) (s : State) : (noteAnalyse h s).cacheValid = s.cacheValid := by unfold noteAnalyse; split <;> rfl
@[simp] theorem noteAnalyse_codeCache (h : Word8) (s : State) : (noteAnalyse h s).codeCache = s.codeCache := by unfold noteAnalyse; split <;> rfl
@[simp] theorem noteAnalyse_flen (h : Word8) (s : State) : (noteAnalyse h s).flen = s.flen := by unfold noteAnalyse; split <;> rfl
@[simp] theorem noteAnalyse_cnt (h : Word8) (s : State) : (noteAnalyse h s).cnt = s.cnt := by unfold noteAnalyse; split <;> rfl
@[simp] theorem noteAnalyse_xfer (h : Word8) (s : State) : (noteAnalyse h s).xfer = s.xfer := by unfold noteAnalyse; split <;> rfl
@[simp] theorem noteAnalyse_graceCnt (h : Word8) (s : State) : (noteAnalyse h s).graceCnt = s.graceCnt := by unfold noteAnalyse; split <;> rfl
@[simp] theorem noteAnalyse_mode (h : Word8) (s : State) : (noteAnalyse h s).mode = s.mode := by unfold noteAnalyse; split <;> rfl
@[simp] theorem noteAnalyse_phase (h : Word8) (s : State) : (noteAnalyse h s).phase = s.phase := by unfold noteAnalyse; split <;> rfl
@[simp] theorem noteAnalyse_faultCause (h : Word8) (s : State) : (noteAnalyse h s).faultCause = s.faultCause := by unfold noteAnalyse; split <;> rfl
@[simp] theorem noteAnalyse_faultInfo (h : Word8) (s : State) : (noteAnalyse h s).faultInfo = s.faultInfo := by unfold noteAnalyse; split <;> rfl
@[simp] theorem noteAnalyse_armed (h : Word8) (s : State) : (noteAnalyse h s).armed = s.armed := by unfold noteAnalyse; split <;> rfl
@[simp] theorem noteAnalyse_streamEn (h : Word8) (s : State) : (noteAnalyse h s).streamEn = s.streamEn := by unfold noteAnalyse; split <;> rfl
@[simp] theorem noteAnalyse_diag (h : Word8) (s : State) : (noteAnalyse h s).diag = s.diag := by unfold noteAnalyse; split <;> rfl
@[simp] theorem noteAnalyse_act (h : Word8) (s : State) : (noteAnalyse h s).act = s.act := by unfold noteAnalyse; split <;> rfl
@[simp] theorem noteAnalyse_actPrev (h : Word8) (s : State) : (noteAnalyse h s).actPrev = s.actPrev := by unfold noteAnalyse; split <;> rfl
@[simp] theorem noteAnalyse_seq (h : Word8) (s : State) : (noteAnalyse h s).seq = s.seq := by unfold noteAnalyse; split <;> rfl
@[simp] theorem noteAnalyse_cfg (h : Word8) (s : State) : (noteAnalyse h s).cfg = s.cfg := by unfold noteAnalyse; split <;> rfl
@[simp] theorem noteAnalyse_agenda (h : Word8) (s : State) : (noteAnalyse h s).agenda = s.agenda := by unfold noteAnalyse; split <;> rfl
@[simp] theorem noteAnalyse_inputs (h : Word8) (s : State) : (noteAnalyse h s).inputs = s.inputs := by unfold noteAnalyse; split <;> rfl

/-! `cacheLayout`. -/

@[simp] theorem cacheLayout_raw (h : Word8) (l : Layout) (s : State) : (cacheLayout h l s).raw = s.raw := noteAnalyse_raw h s
@[simp] theorem cacheLayout_ch (h : Word8) (l : Layout) (s : State) : (cacheLayout h l s).ch = s.ch := noteAnalyse_ch h s
@[simp] theorem cacheLayout_aligned (h : Word8) (l : Layout) (s : State) : (cacheLayout h l s).aligned = s.aligned := noteAnalyse_aligned h s
@[simp] theorem cacheLayout_cacheValid (h : Word8) (l : Layout) (s : State) : (cacheLayout h l s).cacheValid = true := rfl
@[simp] theorem cacheLayout_codeCache (h : Word8) (l : Layout) (s : State) : (cacheLayout h l s).codeCache = h := rfl
@[simp] theorem cacheLayout_flen (h : Word8) (l : Layout) (s : State) : (cacheLayout h l s).flen = l.flen := rfl
@[simp] theorem cacheLayout_cnt (h : Word8) (l : Layout) (s : State) : (cacheLayout h l s).cnt = l.cnt := rfl
@[simp] theorem cacheLayout_xfer (h : Word8) (l : Layout) (s : State) : (cacheLayout h l s).xfer = s.xfer := noteAnalyse_xfer h s
@[simp] theorem cacheLayout_graceCnt (h : Word8) (l : Layout) (s : State) : (cacheLayout h l s).graceCnt = s.graceCnt := noteAnalyse_graceCnt h s
@[simp] theorem cacheLayout_mode (h : Word8) (l : Layout) (s : State) : (cacheLayout h l s).mode = s.mode := noteAnalyse_mode h s
@[simp] theorem cacheLayout_phase (h : Word8) (l : Layout) (s : State) : (cacheLayout h l s).phase = s.phase := noteAnalyse_phase h s
@[simp] theorem cacheLayout_faultCause (h : Word8) (l : Layout) (s : State) : (cacheLayout h l s).faultCause = s.faultCause := noteAnalyse_faultCause h s
@[simp] theorem cacheLayout_faultInfo (h : Word8) (l : Layout) (s : State) : (cacheLayout h l s).faultInfo = s.faultInfo := noteAnalyse_faultInfo h s
@[simp] theorem cacheLayout_armed (h : Word8) (l : Layout) (s : State) : (cacheLayout h l s).armed = s.armed := noteAnalyse_armed h s
@[simp] theorem cacheLayout_streamEn (h : Word8) (l : Layout) (s : State) : (cacheLayout h l s).streamEn = s.streamEn := noteAnalyse_streamEn h s
@[simp] theorem cacheLayout_diag (h : Word8) (l : Layout) (s : State) : (cacheLayout h l s).diag = s.diag := noteAnalyse_diag h s
@[simp] theorem cacheLayout_act (h : Word8) (l : Layout) (s : State) : (cacheLayout h l s).act = s.act := noteAnalyse_act h s
@[simp] theorem cacheLayout_actPrev (h : Word8) (l : Layout) (s : State) : (cacheLayout h l s).actPrev = s.actPrev := noteAnalyse_actPrev h s
@[simp] theorem cacheLayout_seq (h : Word8) (l : Layout) (s : State) : (cacheLayout h l s).seq = s.seq := noteAnalyse_seq h s
@[simp] theorem cacheLayout_cfg (h : Word8) (l : Layout) (s : State) : (cacheLayout h l s).cfg = s.cfg := noteAnalyse_cfg h s
@[simp] theorem cacheLayout_agenda (h : Word8) (l : Layout) (s : State) : (cacheLayout h l s).agenda = s.agenda := noteAnalyse_agenda h s
@[simp] theorem cacheLayout_inputs (h : Word8) (l : Layout) (s : State) : (cacheLayout h l s).inputs = s.inputs := noteAnalyse_inputs h s

/-! `copyState`. -/

@[simp] theorem copyState_raw (h : Word8) (l : Layout) (s : State) : (copyState h l s).raw = { s.raw with read := s.raw.read + frameSize l } := rfl
@[simp] theorem copyState_ch (h : Word8) (l : Layout) (s : State) : (copyState h l s).ch = s.ch.mapIdx (copyChannel s l) := rfl
@[simp] theorem copyState_aligned (h : Word8) (l : Layout) (s : State) : (copyState h l s).aligned = s.aligned := noteAnalyse_aligned h s
@[simp] theorem copyState_cacheValid (h : Word8) (l : Layout) (s : State) : (copyState h l s).cacheValid = true := rfl
@[simp] theorem copyState_codeCache (h : Word8) (l : Layout) (s : State) : (copyState h l s).codeCache = h := rfl
@[simp] theorem copyState_flen (h : Word8) (l : Layout) (s : State) : (copyState h l s).flen = l.flen := rfl
@[simp] theorem copyState_cnt (h : Word8) (l : Layout) (s : State) : (copyState h l s).cnt = l.cnt := rfl
@[simp] theorem copyState_xfer (h : Word8) (l : Layout) (s : State) : (copyState h l s).xfer = s.xfer := noteAnalyse_xfer h s
@[simp] theorem copyState_graceCnt (h : Word8) (l : Layout) (s : State) : (copyState h l s).graceCnt = s.graceCnt := noteAnalyse_graceCnt h s
@[simp] theorem copyState_mode (h : Word8) (l : Layout) (s : State) : (copyState h l s).mode = s.mode := noteAnalyse_mode h s
@[simp] theorem copyState_phase (h : Word8) (l : Layout) (s : State) : (copyState h l s).phase = s.phase := noteAnalyse_phase h s
@[simp] theorem copyState_faultCause (h : Word8) (l : Layout) (s : State) : (copyState h l s).faultCause = s.faultCause := noteAnalyse_faultCause h s
@[simp] theorem copyState_faultInfo (h : Word8) (l : Layout) (s : State) : (copyState h l s).faultInfo = s.faultInfo := noteAnalyse_faultInfo h s
@[simp] theorem copyState_armed (h : Word8) (l : Layout) (s : State) : (copyState h l s).armed = s.armed := noteAnalyse_armed h s
@[simp] theorem copyState_streamEn (h : Word8) (l : Layout) (s : State) : (copyState h l s).streamEn = s.streamEn := noteAnalyse_streamEn h s
@[simp] theorem copyState_diag (h : Word8) (l : Layout) (s : State) : (copyState h l s).diag = s.diag := noteAnalyse_diag h s
@[simp] theorem copyState_act (h : Word8) (l : Layout) (s : State) : (copyState h l s).act = s.act := noteAnalyse_act h s
@[simp] theorem copyState_actPrev (h : Word8) (l : Layout) (s : State) : (copyState h l s).actPrev = s.actPrev := noteAnalyse_actPrev h s
@[simp] theorem copyState_seq (h : Word8) (l : Layout) (s : State) : (copyState h l s).seq = s.seq := noteAnalyse_seq h s
@[simp] theorem copyState_cfg (h : Word8) (l : Layout) (s : State) : (copyState h l s).cfg = s.cfg := noteAnalyse_cfg h s
@[simp] theorem copyState_agenda (h : Word8) (l : Layout) (s : State) : (copyState h l s).agenda = s.agenda := noteAnalyse_agenda h s
@[simp] theorem copyState_inputs (h : Word8) (l : Layout) (s : State) : (copyState h l s).inputs = s.inputs := noteAnalyse_inputs h s

/-! `sendDatagram`. -/

@[simp] theorem sendDatagram_raw (c : Nat) (s : State) : (sendDatagram c s).raw = s.raw := by unfold sendDatagram; split <;> rfl
@[simp] theorem sendDatagram_ch (c : Nat) (s : State) : (sendDatagram c s).ch = s.ch := by unfold sendDatagram; split <;> rfl
@[simp] theorem sendDatagram_aligned (c : Nat) (s : State) : (sendDatagram c s).aligned = s.aligned := by unfold sendDatagram; split <;> rfl
@[simp] theorem sendDatagram_cacheValid (c : Nat) (s : State) : (sendDatagram c s).cacheValid = s.cacheValid := by unfold sendDatagram; split <;> rfl
@[simp] theorem sendDatagram_codeCache (c : Nat) (s : State) : (sendDatagram c s).codeCache = s.codeCache := by unfold sendDatagram; split <;> rfl
@[simp] theorem sendDatagram_flen (c : Nat) (s : State) : (sendDatagram c s).flen = s.flen := by unfold sendDatagram; split <;> rfl
@[simp] theorem sendDatagram_cnt (c : Nat) (s : State) : (sendDatagram c s).cnt = s.cnt := by unfold sendDatagram; split <;> rfl
@[simp] theorem sendDatagram_xfer (c : Nat) (s : State) : (sendDatagram c s).xfer = s.xfer := by unfold sendDatagram; split <;> rfl
@[simp] theorem sendDatagram_graceCnt (c : Nat) (s : State) : (sendDatagram c s).graceCnt = s.graceCnt := by unfold sendDatagram; split <;> rfl
@[simp] theorem sendDatagram_mode (c : Nat) (s : State) : (sendDatagram c s).mode = s.mode := by unfold sendDatagram; split <;> rfl
@[simp] theorem sendDatagram_phase (c : Nat) (s : State) : (sendDatagram c s).phase = s.phase := by unfold sendDatagram; split <;> rfl
@[simp] theorem sendDatagram_faultCause (c : Nat) (s : State) : (sendDatagram c s).faultCause = s.faultCause := by unfold sendDatagram; split <;> rfl
@[simp] theorem sendDatagram_faultInfo (c : Nat) (s : State) : (sendDatagram c s).faultInfo = s.faultInfo := by unfold sendDatagram; split <;> rfl
@[simp] theorem sendDatagram_armed (c : Nat) (s : State) : (sendDatagram c s).armed = s.armed := by unfold sendDatagram; split <;> rfl
@[simp] theorem sendDatagram_streamEn (c : Nat) (s : State) : (sendDatagram c s).streamEn = s.streamEn := by unfold sendDatagram; split <;> rfl
@[simp] theorem sendDatagram_diag (c : Nat) (s : State) : (sendDatagram c s).diag = s.diag := by unfold sendDatagram; split <;> rfl
@[simp] theorem sendDatagram_act (c : Nat) (s : State) : (sendDatagram c s).act = s.act := by unfold sendDatagram; split <;> rfl
@[simp] theorem sendDatagram_actPrev (c : Nat) (s : State) : (sendDatagram c s).actPrev = s.actPrev := by unfold sendDatagram; split <;> rfl
@[simp] theorem sendDatagram_seq (c : Nat) (s : State) : (sendDatagram c s).seq = s.seq.set c (seqOf s c + 1) := by unfold sendDatagram; split <;> rfl
@[simp] theorem sendDatagram_cfg (c : Nat) (s : State) : (sendDatagram c s).cfg = s.cfg := by unfold sendDatagram; split <;> rfl
@[simp] theorem sendDatagram_agenda (c : Nat) (s : State) : (sendDatagram c s).agenda = s.agenda := by unfold sendDatagram; split <;> rfl
@[simp] theorem sendDatagram_inputs (c : Nat) (s : State) : (sendDatagram c s).inputs = afterTx s.inputs := by unfold sendDatagram; split <;> rfl

end Sys2Proof.Machine
end

