-- ==== Sys2Proof/Laws/Ops.lean ====
section
/-! SUPPORT. What the shared operations can do, said once: enabling, the fault entry, the buffers as queues of bytes, the layout and
the verdict of DECODE; and what each instruction can answer. -/

namespace Sys2Proof.Machine

/-! Enabling. -/

theorem whenPhase_eq_next {ph : Phase} {s t : State} {r : Result} :
    whenPhase ph s r = .next t ↔ (s.mode = .streaming ∧ s.phase = ph) ∧ r = .next t := by
  unfold whenPhase; split <;> simp_all

theorem whenPhase_of {ph : Phase} {s : State} {r : Result} (hm : s.mode = .streaming) (hp : s.phase = ph) :
    whenPhase ph s r = r := if_pos ⟨hm, hp⟩

theorem whenPhase_eq_fault {ph : Phase} {s : State} {r : Result} {f : Fault} :
    whenPhase ph s r = .fault f ↔ (s.mode = .streaming ∧ s.phase = ph) ∧ r = .fault f := by
  unfold whenPhase; split <;> simp_all

theorem whenMode_eq_next {m : Mode} {s t : State} {r : Result} : whenMode m s r = .next t ↔ s.mode = m ∧ r = .next t := by
  unfold whenMode; split <;> simp_all

theorem whenMode_of {m : Mode} {s : State} {r : Result} (hm : s.mode = m) : whenMode m s r = r := if_pos hm

theorem whenMode_eq_fault {m : Mode} {s : State} {r : Result} {f : Fault} :
    whenMode m s r = .fault f ↔ s.mode = m ∧ r = .fault f := by
  unfold whenMode; split <;> simp_all

/-! Channels. -/

theorem hasChannel_iff {p : Params} {c : Nat} : p.hasChannel c = true ↔ c < p.nCh := by
  cases c <;> simp [Params.hasChannel, Params.nCh]

theorem hasChannel_mod (p : Params) (c : Nat) : p.hasChannel (c % p.nCh) = true :=
  hasChannel_iff.2 (Nat.mod_lt _ (by simp [Params.nCh]))

theorem chan_mem {s : State} {c : Nat} (h : c < s.ch.length) : chan s c ∈ s.ch := by
  rw [chan, List.getD_eq_getElem _ _ h]; exact List.getElem_mem h

theorem chan_eq {s : State} {c : Nat} (h : c < s.ch.length) : chan s c = s.ch[c] := List.getD_eq_getElem _ _ h

theorem chan_of_le {s : State} {c : Nat} (h : s.ch.length ≤ c) : chan s c = Buffer.empty :=
  List.getD_eq_default _ _ h

/-- A buffer whose cursors are in order is not outside its arena. -/
theorem outside_of_inOrder {cap : Nat} {B : Buffer} (h : CursorsInOrder cap B) : outside cap B = false := by
  obtain ⟨h1, h2⟩ := h
  simp [outside]; omega

theorem not_outside_iff {cap : Nat} {B : Buffer} :
    outside cap B = false ↔ B.read ≤ B.head ∧ (B.read = B.head ∨ B.head ≤ cap) := by
  simp [outside]; omega

/-! Buffers as queues of bytes. -/

@[simp] theorem length_pending {fill : Byte} {B : Buffer} : (pending fill B).length = avail B := length_memRead

theorem pending_flush {fill : Byte} {B : Buffer} : pending fill (flush B) = [] := rfl

/-- Appending appends (R190). -/
theorem pending_appendBytes {fill : Byte} {B : Buffer} {bs : List Byte} (hw : Memory.wf fill B.mem = true)
    (hc : B.read ≤ B.head) : pending fill (appendBytes fill B bs) = pending fill B ++ bs := by
  have ha : avail (appendBytes fill B bs) = avail B + bs.length := by simp [avail]; omega
  have hr : B.read + avail B = B.head := by simp [avail]; omega
  simp only [pending, ha, memRead_add, appendBytes_read, appendBytes_mem, hr]
  rw [memRead_memWrite hw, memRead_memWrite_of_not hw (by omega)]

/-- Compaction changes no byte of the stream (R195, R197). -/
theorem pending_compact {fill : Byte} {B : Buffer} (hw : Memory.wf fill B.mem = true) :
    pending fill (compact fill B) = pending fill B := by
  simp only [pending, avail_compact, compact_read]
  exact memRead_congr fun j hj => by rw [Nat.zero_add, memGet_compact_of_lt hw hj]

/-- Taking bytes from the front (R206). -/
theorem pending_advance {fill : Byte} {B : Buffer} {n : Nat} (h : n ≤ avail B) :
    pending fill B = memRead fill B.mem B.read n ++ pending fill { B with read := B.read + n } := by
  have : avail B = n + avail { B with read := B.read + n } := by simp [avail] at *; omega
  simp only [pending]
  rw [this, memRead_add]

/-! Layouts. -/

@[simp] theorem analyse_length (p : Params) (h : Word8) : (p.analyse h).cnt.length = p.nCh := by simp [Params.analyse]

theorem analyse_le (p : Params) (h : Word8) : (p.analyse h).flen ≤ p.maxFlen := by simp [Params.analyse]

theorem cntOf_of_le {l : Layout} {c : Nat} (h : l.cnt.length ≤ c) : cntOf l c = 0 := List.getD_eq_default _ _ h

theorem slotOff_succ (l : Layout) (c : Nat) : slotOff l (c + 1) = slotOff l c + cntOf l c := by
  simp only [slotOff, cntOf, List.getD_eq_getElem?_getD]
  rw [List.take_add_one]
  cases h : l.cnt[c]? <;> simp

theorem slotOff_mono {l : Layout} {c d : Nat} (h : c ≤ d) : slotOff l c ≤ slotOff l d := by
  induction h with
  | refl => exact le_rfl
  | step _ ih => rw [slotOff_succ]; omega

theorem slotOff_le_total (l : Layout) (c : Nat) : slotOff l c ≤ total l := by
  have h := slotOff_mono (l := l) (Nat.le_add_right c l.cnt.length)
  simpa [slotOff, total, List.take_of_length_le (Nat.le_add_left _ c)] using h

/-- Every sample of a channel is among the frame's slots. -/
theorem slotOff_add_lt_total {l : Layout} {c k : Nat} (h : k < cntOf l c) : slotOff l c + k < total l := by
  have := slotOff_le_total l (c + 1)
  rw [slotOff_succ] at this
  omega

@[simp] theorem length_sampleBytes (s : State) (l : Layout) (c k : Nat) : (sampleBytes s l c k).length = 6 := by
  simp [sampleBytes]

@[simp] theorem length_channelBytes (s : State) (l : Layout) (c : Nat) : (channelBytes s l c).length = 6 * cntOf l c := by
  simp [channelBytes, List.length_flatMap, Nat.mul_comm]

/-- Byte `j` of sample `k` in a channel's bytes. -/
theorem getElem_channelBytes {s : State} {l : Layout} {c k j : Nat} (hk : k < cntOf l c) (hj : j < 6)
    (h : 6 * k + j < (channelBytes s l c).length) :
    (channelBytes s l c)[6 * k + j] = memGet s.cfg.fill s.raw.mem (slotAddr s.raw.read l c k + j) := by
  have key : ∀ (n k : Nat) (hk : k < n) (h : 6 * k + j < ((List.range n).flatMap (sampleBytes s l c)).length),
      ((List.range n).flatMap (sampleBytes s l c))[6 * k + j] = memGet s.cfg.fill s.raw.mem (slotAddr s.raw.read l c k + j) := by
    intro n
    induction n with
    | zero => intro k hk; omega
    | succ n ih =>
      intro k hk h
      have hl : ((List.range n).flatMap (sampleBytes s l c)).length = 6 * n := by
        simp [List.length_flatMap, Nat.mul_comm]
      simp only [List.range_succ, List.flatMap_append, List.flatMap_cons, List.flatMap_nil, List.append_nil] at h ⊢
      by_cases hkn : k < n
      · rw [List.getElem_append_left (by omega)]; exact ih k hkn _
      · obtain rfl : k = n := by omega
        rw [List.getElem_append_right (by omega)]
        simp only [hl, Nat.add_sub_cancel_left]
        exact getElem_memRead _
  exact key _ k hk h

/-! The verdict of DECODE, one lemma per outcome. -/

theorem verdict_empty_iff {s : State} : verdict s = .empty ↔ avail s.raw < 8 := by
  unfold verdict verdictFor
  split
  · rename_i h; exact iff_of_true rfl h
  · rename_i h
    refine iff_of_false ?_ h
    repeat' split
    all_goals simp

theorem verdict_desync_iff {s : State} :
    verdict s = .desync ↔ 8 ≤ avail s.raw ∧ (headerAt s).b7 ≠ s.cfg.marker := by
  unfold verdict verdictFor
  split
  · rename_i h; exact iff_of_false (by simp) (by omega)
  · rename_i h
    split
    · rename_i h2; exact iff_of_true rfl ⟨by omega, h2⟩
    · rename_i h2
      refine iff_of_false ?_ fun hc => h2 hc.2
      repeat' split
      all_goals simp

theorem verdict_badLayout_iff {s : State} {h : Word8} :
    verdict s = .badLayout h ↔ 8 ≤ avail s.raw ∧ (headerAt s).b7 = s.cfg.marker ∧ cacheHit s (headerAt s) = false ∧
      validLayout (layoutFor s (headerAt s)) = false ∧ h = headerAt s := by
  unfold verdict verdictFor
  split
  · rename_i h1; exact iff_of_false (by simp) (by omega)
  · rename_i h1
    split
    · rename_i h2; exact iff_of_false (by simp) fun hc => h2 hc.2.1
    · rename_i h2
      split
      · rename_i h3
        constructor
        · intro hv; cases hv; exact ⟨by omega, by simpa using h2, h3.1, h3.2, rfl⟩
        · rintro ⟨-, -, -, -, rfl⟩; rfl
      · rename_i h3
        refine iff_of_false ?_ fun hc => h3 ⟨hc.2.2.1, hc.2.2.2.1⟩
        repeat' split
        all_goals simp

/-- What DEFER, CH_OVERRUN and COPY have in common: the header is there, marked, and its layout passed the test. -/
def HeaderGood (s : State) (h : Word8) (l : Layout) : Prop :=
  8 ≤ avail s.raw ∧ h = headerAt s ∧ h.b7 = s.cfg.marker ∧ l = layoutFor s h ∧
    (cacheHit s h = true ∨ validLayout l = true)

theorem verdict_defer_iff {s : State} {h : Word8} {l : Layout} :
    verdict s = .defer h l ↔ HeaderGood s h l ∧ avail s.raw < frameSize l := by
  unfold verdict verdictFor HeaderGood
  split
  · simp only [reduceCtorEq, false_iff]; omega
  · split
    · simp only [reduceCtorEq, false_iff]; rintro ⟨⟨-, rfl, h2, -⟩, -⟩; contradiction
    · split
      · simp only [reduceCtorEq, false_iff]
        rename_i _ _ h3
        rintro ⟨⟨-, rfl, -, rfl, h4⟩, -⟩
        simp_all
      · rename_i h1 h2 h3
        split
        · rename_i h4
          simp only [Verdict.defer.injEq]
          constructor
          · rintro ⟨rfl, rfl⟩
            refine ⟨⟨by omega, rfl, by simpa using h2, rfl, ?_⟩, h4⟩
            by_contra hc; simp only [not_or] at hc; exact h3 ⟨by simpa using hc.1, by simpa using hc.2⟩
          · rintro ⟨⟨-, rfl, -, rfl, -⟩, -⟩; exact ⟨rfl, rfl⟩
        · rename_i h4
          split <;> simp only [reduceCtorEq, false_iff] <;> (rintro ⟨⟨-, rfl, -, rfl, -⟩, h5⟩; exact h4 h5)

theorem verdict_overrun_iff {s : State} {h : Word8} {c : Nat} :
    verdict s = .overrun h c ↔
      ∃ l, HeaderGood s h l ∧ frameSize l ≤ avail s.raw ∧ firstOverrun s l = some c := by
  constructor
  · intro hv
    unfold verdict verdictFor at hv
    split at hv
    · cases hv
    · split at hv
      · cases hv
      · split at hv
        · cases hv
        · split at hv
          · cases hv
          · rename_i h1 h2 h3 h4
            split at hv
            · rename_i h5
              cases hv
              refine ⟨_, ⟨by omega, rfl, by simpa using h2, rfl, ?_⟩, by omega, h5⟩
              by_contra hc; simp only [not_or] at hc; exact h3 ⟨by simpa using hc.1, by simpa using hc.2⟩
            · cases hv
  · rintro ⟨l, ⟨h1, rfl, h2, rfl, h3⟩, h4, h5⟩
    unfold verdict verdictFor
    rw [if_neg (by omega), if_neg (by simpa using h2), if_neg (by rintro ⟨ha, hb⟩; simp_all), if_neg (by omega)]
    simp [h5]

theorem verdict_copy_iff {s : State} {h : Word8} {l : Layout} :
    verdict s = .copy h l ↔ HeaderGood s h l ∧ frameSize l ≤ avail s.raw ∧ firstOverrun s l = none := by
  constructor
  · intro hv
    unfold verdict verdictFor at hv
    split at hv
    · cases hv
    · split at hv
      · cases hv
      · split at hv
        · cases hv
        · split at hv
          · cases hv
          · rename_i h1 h2 h3 h4
            split at hv
            · cases hv
            · rename_i h5
              cases hv
              refine ⟨⟨by omega, rfl, by simpa using h2, rfl, ?_⟩, by omega, h5⟩
              by_contra hc; simp only [not_or] at hc; exact h3 ⟨by simpa using hc.1, by simpa using hc.2⟩
  · rintro ⟨⟨h1, rfl, h2, rfl, h3⟩, h4, h5⟩
    unfold verdict verdictFor
    rw [if_neg (by omega), if_neg (by simpa using h2), if_neg (by rintro ⟨ha, hb⟩; simp_all), if_neg (by omega)]
    simp [h5]

/-- The lowest channel without room (R225). -/
theorem firstOverrun_eq_some_iff {s : State} {l : Layout} {c : Nat} :
    firstOverrun s l = some c ↔ c < s.cfg.nCh ∧ s.cfg.chCap < (chan s c).head + 6 * cntOf l c ∧
      ∀ d < c, (chan s d).head + 6 * cntOf l d ≤ s.cfg.chCap := by
  rw [firstOverrun, List.find?_range_eq_some]
  simp only [decide_eq_true_eq, List.mem_range, Bool.not_eq_true', decide_eq_false_iff_not, not_lt]
  tauto

theorem firstOverrun_eq_none_iff {s : State} {l : Layout} :
    firstOverrun s l = none ↔ ∀ c < s.cfg.nCh, (chan s c).head + 6 * cntOf l c ≤ s.cfg.chCap := by
  rw [firstOverrun, List.find?_range_eq_none]
  simp

/-- The first marked stride (R162). -/
theorem firstMarked_eq_some_iff {s : State} {k : Nat} :
    firstMarked s = some k ↔ k < alignWindow s ∧ strideMarked s k = true ∧ ∀ i < k, strideMarked s i = false := by
  rw [firstMarked, List.find?_range_eq_some]
  simp only [List.mem_range, Bool.not_eq_true']
  tauto

theorem firstMarked_eq_none_iff {s : State} :
    firstMarked s = none ↔ ∀ i < alignWindow s, strideMarked s i = false := by
  rw [firstMarked, List.find?_range_eq_none]
  simp

theorem alignWindow_le (s : State) : alignWindow s ≤ avail s.raw / 8 := by
  unfold alignWindow; split
  · exact le_rfl
  · exact min_le_left _ _

/-! What ALIGN and DECODE can do. -/

/-- ALIGN's three outcomes (R162). -/
theorem alignState_cases (s : State) :
    alignState s = { s with phase := .compact } ∨
    (∃ k, firstMarked s = some k ∧
      alignState s = { s with raw := { s.raw with read := s.raw.read + 8 * k }, aligned := true, phase := .decode }) ∨
    alignState s = takeFault .alignFail 0 s := by
  unfold alignState; split
  · exact .inl rfl
  · split
    · exact .inr (.inl ⟨_, by assumption, rfl⟩)
    · exact .inr (.inr rfl)

theorem noteAnalyse_cases (h : Word8) (s : State) :
    noteAnalyse h s = s ∨ noteAnalyse h s = { s with out := .analyse h :: s.out } := by
  unfold noteAnalyse; split <;> simp

/-- DECODE's outcomes (R170): the loop's end, a fault, DEFER, COPY. -/
theorem decodeState_cases (s : State) :
    decodeState s = { s with phase := .compact } ∨
    (∃ c n calls, decodeState s = takeFault c n { s with out := calls ++ s.out }) ∨
    (∃ h l, HeaderGood s h l ∧ avail s.raw < frameSize l ∧ decodeState s = { cacheLayout h l s with phase := .compact }) ∨
    (∃ h l, HeaderGood s h l ∧ frameSize l ≤ avail s.raw ∧ firstOverrun s l = none ∧
      decodeState s = copyState h l s) := by
  cases hv : verdict s with
  | empty => exact .inl (by simp [decodeState, hv])
  | desync => exact .inr (.inl ⟨.desync, 0, [], by simp [decodeState, hv]⟩)
  | badLayout h =>
    refine .inr (.inl ?_)
    rcases noteAnalyse_cases h s with h1 | h1
    · exact ⟨.badLayout, 0, [], by simp [decodeState, hv, h1]⟩
    · exact ⟨.badLayout, 0, [.analyse h], by simp [decodeState, hv, h1]⟩
  | overrun h c =>
    refine .inr (.inl ?_)
    rcases noteAnalyse_cases h s with h1 | h1
    · exact ⟨.chOverrun, c, [], by simp [decodeState, hv, h1]⟩
    · exact ⟨.chOverrun, c, [.analyse h], by simp [decodeState, hv, h1]⟩
  | defer h l =>
    obtain ⟨h1, h2⟩ := verdict_defer_iff.1 hv
    exact .inr (.inr (.inl ⟨h, l, h1, h2, by simp [decodeState, hv]⟩))
  | copy h l =>
    obtain ⟨h1, h2, h3⟩ := verdict_copy_iff.1 hv
    exact .inr (.inr (.inr ⟨h, l, h1, h2, h3, by simp [decodeState, hv]⟩))

/-! What the instructions answer. -/

/-- The effects an operation of the block can have when it answers a next state, by instruction. -/
inductive Effect : Instr → State → State → Prop where
  | idlePoll {s} (hm : s.mode = .idle) : Effect .idlePoll s (idlePollState s)
  | start {s} (hm : s.mode = .starting) : Effect .start s (startState s)
  | topCheck {s} (hm : s.mode = .streaming) (hp : s.phase = .top) : Effect .topCheck s (topCheckState s)
  | fcSelect {s} (hm : s.mode = .streaming) (hp : s.phase = .select) :
      Effect .fcSelect s (controlState (burstSizeFor (monRead s).occ) s)
  | fcRepoll {s} (hm : s.mode = .streaming) (hp : s.phase = .wait) : Effect .fcRepoll s (controlState (repollSize s) s)
  | burst {s} (hm : s.mode = .streaming) (hp : s.phase = .burst) (hr : rawOverruns s s.xfer.bytes = false)
      (hd : devAnswer s.inputs = .complete) : Effect .burst s (burstState s)
  | burstOverrun {s} (hm : s.mode = .streaming) (hp : s.phase = .burst) (hr : rawOverruns s s.xfer.bytes = true) :
      Effect .burst s (takeFault .rawOverrun 0 s)
  | append {s ds} (hm : s.mode = .streaming) (hp : feedPhase s = true) : Effect (.append ds) s (appendState ds s)
  | align {i s} (hi : i = .align ∨ (∃ w, i = .hdr w) ∨ ∃ w, i = .nonhdr w) (hm : s.mode = .streaming)
      (hp : s.phase = .align) (ho : outside s.cfg.rawCap s.raw = false) : Effect i s (alignState s)
  | decode {i s} (hi : i = .decode ∨ (∃ w, i = .hdr w) ∨ (∃ w, i = .nonhdr w) ∨ ∃ h ws, i = .frame h ws)
      (hm : s.mode = .streaming) (hp : s.phase = .decode) (ha : s.aligned = true) (ho : outside s.cfg.rawCap s.raw = false)
      (hpl : payloadOutside s = false) : Effect i s (decodeState s)
  | slot {c k w s h l} (hm : s.mode = .streaming) (hp : s.phase = .decode) (hv : verdict s = .copy h l)
      (hc : c < s.cfg.nCh) (hk : k < cntOf l c) :
      Effect (.slot c k w) s (setChan s c
        { chan s c with mem := memWrite s.cfg.fill (chan s c).mem ((chan s c).head + 6 * k) (keptBytes w) })
  | compactRaw {s} (hm : s.mode = .streaming) (hp : s.phase = .compact) (ho : outside s.cfg.rawCap s.raw = false) :
      Effect .compactRaw s (compactRawState s)
  | drain {c n s} (hm : s.mode = .streaming) (hp : s.phase = .send) (hc : c < s.cfg.nCh) (hn : n ≤ avail (chan s c))
      (hn0 : 0 < n) (ho : outside s.cfg.chCap (chan s c) = false) : Effect (.drain c n) s (drainState c n s)
  | sendDone {s} (hm : s.mode = .streaming) (hp : s.phase = .send) (ho : s.ch.any (outside s.cfg.chCap) = false) :
      Effect .sendDone s (sendDoneState s)
  | sendFail {c s} (hm : s.mode = .streaming) (hp : s.phase = .send) : Effect (.sendFail c) s (takeFault .sendFail c s)
  | faultEnter {cause info calls s} (hm : s.mode = .streaming) :
      Effect (.faultEnter cause info) s (takeFault cause info { s with out := calls ++ s.out })
  | faultExit {s} (hm : s.mode = .faulting) : Effect .faultExit s (leaveFault s)
  | envAct {b s} : Effect (.envAct b) s { s with act := b, actPrev := s.act }
  | envDiagClear {m s} : Effect (.envDiagClear m) s { s with diag := clearBits s.diag m }

theorem runAlign_eq_next {s t : State} : runAlign s = .next t ↔ outside s.cfg.rawCap s.raw = false ∧ t = alignState s := by
  unfold runAlign; split
  · rename_i h; simp [h]
  · rename_i h; rw [Bool.not_eq_true] at h; simp [h, eq_comm]

theorem runDecode_eq_next {s t : State} :
    runDecode s = .next t ↔ (outside s.cfg.rawCap s.raw = false ∧ payloadOutside s = false) ∧ t = decodeState s := by
  unfold runDecode; split
  · rename_i h; rcases h with h | h <;> simp [h]
  · rename_i h; simp only [not_or, Bool.not_eq_true] at h; simp [h, eq_comm]

theorem runAtCursor_eq_next {w : Word8} {s t : State} (h : runAtCursor w s = .next t) :
    s.mode = .streaming ∧ ((s.phase = .align ∧ runAlign s = .next t) ∨
      (s.phase = .decode ∧ s.aligned = true ∧ runDecode s = .next t)) := by
  unfold runAtCursor at h
  split at h
  · rename_i hc
    refine ⟨hc.1, ?_⟩
    split at h <;> try cases h
    · exact .inl ⟨by assumption, h⟩
    · split at h
      · exact .inr ⟨by assumption, by assumption, h⟩
      · cases h
  · cases h

theorem faultOutcome_eq_next {cause : Cause} {info : Nat} {r : Result} {t : State} :
    faultOutcome cause info r = .next t ↔
      r = .next t ∧ t.mode = .faulting ∧ t.faultCause = some cause ∧ t.faultInfo = info := by
  unfold faultOutcome; split
  · split
    · rename_i h
      constructor
      · intro e; cases e; exact ⟨rfl, h⟩
      · intro e; exact e.1
    · rename_i h
      constructor
      · intro e; cases e
      · rintro ⟨e, h'⟩; cases e; exact absurd h' h
  · simp
  · simp

/-- FAULT_ENTER is the outcome of the operation that raises the cause (R104). -/
theorem execFaultEnter_eq_next {cause : Cause} {info : Nat} {s t : State} :
    execFaultEnter cause info s = .next t ↔ infoOk s.cfg cause info = true ∧ raiser cause info s = .next t ∧
      t.mode = .faulting ∧ t.faultCause = some cause ∧ t.faultInfo = info := by
  unfold execFaultEnter; split
  · rename_i h; simp [h, faultOutcome_eq_next]
  · rename_i h; simp [h]

/-- An operation of R104 that ends in a fault has entered it from Streaming, with at most calls of `Analyse` before. -/
theorem raiser_faulting {cause : Cause} {info : Nat} {s t : State} (h : raiser cause info s = .next t)
    (hm : t.mode = .faulting) :
    s.mode = .streaming ∧ ∃ c n calls, t = takeFault c n { s with out := calls ++ s.out } := by
  have hdec : ∀ {t : State}, execDecode s = .next t → t.mode = .faulting →
      s.mode = .streaming ∧ ∃ c n calls, t = takeFault c n { s with out := calls ++ s.out } := by
    intro t h hm
    obtain ⟨⟨h1, _⟩, h⟩ := whenPhase_eq_next.1 h
    split at h
    · obtain ⟨_, rfl⟩ := runDecode_eq_next.1 h
      refine ⟨h1, ?_⟩
      rcases decodeState_cases s with e | e | ⟨_, _, _, _, e⟩ | ⟨_, _, _, _, _, e⟩
      · rw [e] at hm; simp [h1] at hm
      · exact e
      · rw [e] at hm; simp [h1] at hm
      · rw [e] at hm; simp [copyState, h1] at hm
    · cases h
  cases cause with
  | alignFail =>
    obtain ⟨⟨h1, _⟩, h⟩ := whenPhase_eq_next.1 h
    obtain ⟨_, rfl⟩ := runAlign_eq_next.1 h
    refine ⟨h1, ?_⟩
    rcases alignState_cases s with e | ⟨_, _, e⟩ | e
    · rw [e] at hm; simp [h1] at hm
    · rw [e] at hm; simp [h1] at hm
    · exact ⟨_, _, [], e⟩
  | desync => exact hdec h hm
  | badLayout => exact hdec h hm
  | chOverrun => exact hdec h hm
  | sendFail =>
    simp only [raiser, execSendFail] at h
    split at h
    · obtain ⟨⟨h1, _⟩, h⟩ := whenPhase_eq_next.1 h; cases h; exact ⟨h1, _, _, [], rfl⟩
    · cases h
  | rawOverrun =>
    obtain ⟨⟨h1, _⟩, h⟩ := whenPhase_eq_next.1 h
    refine ⟨h1, ?_⟩
    split at h
    · cases h
      split
      · exact ⟨_, _, [], rfl⟩
      · rename_i hr; rw [if_neg hr] at hm; simp [burstState, h1] at hm
    · split at h <;> cases h
      exact ⟨_, _, [], rfl⟩
    · split at h <;> cases h
      exact ⟨_, _, [], rfl⟩

/-- Everything an instruction can do: whenever exec answers a next state, it is one of `Effect`'s. -/
theorem exec_effect {i : Instr} {s t : State} (h : exec i s = .next t) : Effect i s t := by
  cases i with
  | hdr w =>
    simp only [exec, execHdr] at h
    split at h
    · obtain ⟨hm, ⟨hp, h⟩ | ⟨hp, ha, h⟩⟩ := runAtCursor_eq_next h
      · obtain ⟨ho, rfl⟩ := runAlign_eq_next.1 h
        exact .align (.inr (.inl ⟨w, rfl⟩)) hm hp ho
      · obtain ⟨⟨ho, hpl⟩, rfl⟩ := runDecode_eq_next.1 h
        exact .decode (.inr (.inl ⟨w, rfl⟩)) hm hp ha ho hpl
    · cases h
  | nonhdr w =>
    simp only [exec, execNonhdr] at h
    split at h
    · obtain ⟨hm, ⟨hp, h⟩ | ⟨hp, ha, h⟩⟩ := runAtCursor_eq_next h
      · obtain ⟨ho, rfl⟩ := runAlign_eq_next.1 h
        exact .align (.inr (.inr ⟨w, rfl⟩)) hm hp ho
      · obtain ⟨⟨ho, hpl⟩, rfl⟩ := runDecode_eq_next.1 h
        exact .decode (.inr (.inr (.inl ⟨w, rfl⟩))) hm hp ha ho hpl
    · cases h
  | frame hd ws =>
    simp only [exec, execFrame] at h
    split at h
    · cases h
    · obtain ⟨⟨hm, hp⟩, h⟩ := whenPhase_eq_next.1 h
      split at h
      · rename_i hc
        obtain ⟨⟨ho, hpl⟩, rfl⟩ := runDecode_eq_next.1 h
        exact .decode (.inr (.inr (.inr ⟨hd, ws, rfl⟩))) hm hp hc.1 ho hpl
      · cases h
  | slot c k w =>
    simp only [exec, execSlot] at h
    split at h
    · cases h
    · rename_i hc
      obtain ⟨⟨hm, hp⟩, h⟩ := whenPhase_eq_next.1 h
      split at h <;> try cases h
      split at h
      · rename_i hv hk
        split at h
        · cases h
        · cases h
          exact .slot hm hp hv (hasChannel_iff.1 (by simpa using hc)) hk.2.1
      · cases h
  | idlePoll => obtain ⟨hm, h⟩ := whenMode_eq_next.1 h; cases h; exact .idlePoll hm
  | start => obtain ⟨hm, h⟩ := whenMode_eq_next.1 h; cases h; exact .start hm
  | topCheck => obtain ⟨⟨hm, hp⟩, h⟩ := whenPhase_eq_next.1 h; cases h; exact .topCheck hm hp
  | fcSelect => obtain ⟨⟨hm, hp⟩, h⟩ := whenPhase_eq_next.1 h; cases h; exact .fcSelect hm hp
  | fcRepoll => obtain ⟨⟨hm, hp⟩, h⟩ := whenPhase_eq_next.1 h; cases h; exact .fcRepoll hm hp
  | burst =>
    obtain ⟨⟨hm, hp⟩, h⟩ := whenPhase_eq_next.1 h
    split at h
    · rename_i hd
      cases h
      split
      · exact .burstOverrun hm hp (by assumption)
      · exact .burst hm hp (by simp_all) hd
    · split at h <;> cases h
      exact .burstOverrun hm hp (by assumption)
    · split at h <;> cases h
      exact .burstOverrun hm hp (by assumption)
  | align =>
    obtain ⟨⟨hm, hp⟩, h⟩ := whenPhase_eq_next.1 h
    obtain ⟨ho, rfl⟩ := runAlign_eq_next.1 h
    exact .align (.inl rfl) hm hp ho
  | decode =>
    obtain ⟨⟨hm, hp⟩, h⟩ := whenPhase_eq_next.1 h
    split at h
    · obtain ⟨⟨ho, hpl⟩, rfl⟩ := runDecode_eq_next.1 h
      exact .decode (.inl rfl) hm hp (by assumption) ho hpl
    · cases h
  | compactRaw =>
    obtain ⟨⟨hm, hp⟩, h⟩ := whenPhase_eq_next.1 h
    split at h
    · cases h
    · cases h; exact .compactRaw hm hp (by simp_all)
  | drain c n =>
    simp only [exec, execDrain] at h
    split at h
    · rename_i hc
      obtain ⟨⟨hm, hp⟩, h⟩ := whenPhase_eq_next.1 h
      split at h
      · split at h
        · cases h
        · cases h; exact .drain hm hp (hasChannel_iff.1 hc.1) (by assumption) hc.2 (by simp_all)
      · cases h
    · cases h
  | sendDone =>
    obtain ⟨⟨hm, hp⟩, h⟩ := whenPhase_eq_next.1 h
    split at h
    · cases h
    · rename_i ho
      cases h
      exact .sendDone hm hp (by rwa [Bool.not_eq_true] at ho)
  | sendFail c =>
    simp only [exec, execSendFail] at h
    split at h
    · obtain ⟨⟨hm, hp⟩, h⟩ := whenPhase_eq_next.1 h; cases h; exact .sendFail hm hp
    · cases h
  | faultEnter cause info =>
    obtain ⟨_, h, hm, hc, hi⟩ := execFaultEnter_eq_next.1 h
    obtain ⟨h1, c, n, calls, rfl⟩ := raiser_faulting h hm
    simp at hc hi
    subst hc hi
    exact .faultEnter h1
  | faultExit => obtain ⟨hm, h⟩ := whenMode_eq_next.1 h; cases h; exact .faultExit hm
  | envAct b => cases h; exact .envAct
  | envDiagClear m => cases h; exact .envDiagClear
  | append ds =>
    simp only [exec, execAppend] at h
    split at h
    · rename_i hc; cases h; exact .append hc.1 hc.2
    · cases h

end Sys2Proof.Machine
end

