-- ==== Sys2Proof/Laws/Decoder.lean ====
section
/-! SUPPORT. When ALIGN and DECODE run; a frame's copy read as samples; and the cursors and arenas after each buffer
operation. -/

namespace Sys2Proof.Machine

/-! The fault entry and the device's bytes. -/

/-- `takeFault` is the fault entry of R230. -/
theorem takeFault_entered (c : Cause) (n : Nat) (s : State) : FaultEntered c n [] s (takeFault c n s) := rfl

/-- A complete `DevRead(n)` delivers exactly `n` bytes (R192). -/
theorem length_devRead (i : Inputs) (n : Nat) : (devRead i n).length = n := by
  simp [devRead]; omega

/-! ALIGN and DECODE. -/

/-- The first marked stride is complete. -/
theorem firstMarked_bound {s : State} {k : Nat} (h : firstMarked s = some k) : 8 * k + 8 ≤ avail s.raw := by
  have := (firstMarked_eq_some_iff.1 h).1
  have := alignWindow_le s
  omega

theorem runDecode_of {s : State} (hc : CursorsInOrder s.cfg.rawCap s.raw) (hp : payloadOutside s = false) :
    runDecode s = .next (decodeState s) :=
  runDecode_eq_next.2 ⟨⟨outside_of_inOrder hc, hp⟩, rfl⟩

theorem execDecode_of {s : State} (hm : s.mode = .streaming) (hp : s.phase = .decode) (ha : s.aligned = true)
    (hc : CursorsInOrder s.cfg.rawCap s.raw) (hpo : payloadOutside s = false) : exec .decode s = .next (decodeState s) := by
  simp [exec, execDecode, whenPhase_of hm hp, ha, runDecode_of hc hpo]

theorem execDecode_next {s t : State} (h : exec .decode s = .next t) :
    s.mode = .streaming ∧ s.phase = .decode ∧ s.aligned = true ∧ outside s.cfg.rawCap s.raw = false ∧
      payloadOutside s = false ∧ t = decodeState s := by
  cases exec_effect h with
  | align hi => rcases hi with h | ⟨_, h⟩ | ⟨_, h⟩ <;> cases h
  | decode _ h1 h2 h3 h4 h5 => exact ⟨h1, h2, h3, h4, h5, rfl⟩

/-- With a true cache, a header that passed DECODE's tests has the layout `Analyse` gives, and that layout is valid (R169). -/
theorem layout_valid {s : State} {h : Word8} {l : Layout} (hC : CacheOk s) (hg : HeaderGood s h l) :
    l = s.cfg.analyse h ∧ validLayout l = true := by
  obtain ⟨_, rfl, _, rfl, hv⟩ := hg
  unfold layoutFor
  split
  · rename_i hh
    simp [cacheHit] at hh
    obtain ⟨h1, h2⟩ := hC hh.1
    exact ⟨by rw [← h1, hh.2], h2⟩
  · rename_i hh
    rw [layoutFor, if_neg hh] at hv
    exact ⟨rfl, hv.resolve_left hh⟩

/-! A frame's copy. -/

/-- Moving the read cursor takes bytes from the front. -/
theorem pending_drop {fill : Byte} {B : Buffer} {n : Nat} (h : n ≤ avail B) :
    pending fill { B with read := B.read + n } = (pending fill B).drop n := by
  rw [pending_advance (B := B) h]
  rw [List.drop_append_of_le_length (by simp)]
  simp

theorem flatMap_range_eq {α β : Type} (f : Nat → List β) (g : α → List β) (xs : List α)
    (h : ∀ k (hk : k < xs.length), f k = g xs[k]) :
    (List.range xs.length).flatMap f = xs.flatMap g := by
  induction xs generalizing f with
  | nil => rfl
  | cons x xs ih =>
    rw [List.length_cons, List.range_succ_eq_map, List.flatMap_cons, List.flatMap_cons, h 0 (by simp), List.flatMap_map]
    congr 1
    exact ih (fun k => f (k + 1)) fun k hk => h (k + 1) (by simpa using hk)

theorem memWord_bytes (fill : Byte) (m : Memory) (a : Nat) : (memWord fill m a).bytes = memRead fill m a 8 := by
  simp [memWord, Word8.bytes, memRead, List.range_succ]

/-- What COPY appends to a channel is what the frame's payload holds for it (R94, R177). -/
theorem channelBytes_eq_samplesOf {s : State} {l : Layout} {h : Word8} {ws : List Word8} {rest : List Byte} {c : Nat}
    (hp : pending s.cfg.fill s.raw = frameBytes (h, ws) ++ rest) (hl : ws.length = l.flen) (hv : validLayout l = true) :
    channelBytes s l c = samplesOf l ws c := by
  have hword : ∀ (i : Nat) (hi : i < ws.length),
      memRead s.cfg.fill s.raw.mem (s.raw.read + 8 + 8 * i) 8 = (ws[i]).bytes := by
    have gen : ∀ (ws : List Word8) (rest : List Byte) (a n : Nat),
        memRead s.cfg.fill s.raw.mem a n = ws.flatMap Word8.bytes ++ rest →
        ∀ (i : Nat) (hi : i < ws.length), memRead s.cfg.fill s.raw.mem (a + 8 * i) 8 = (ws[i]).bytes := by
      intro ws
      induction ws with
      | nil => intro _ _ _ _ i hi; simp at hi
      | cons w ws ih =>
        intro rest a n he i hi
        have hn : 8 ≤ n := by
          have := congrArg List.length he
          simp [Word8.bytes] at this; omega
        obtain ⟨k, rfl⟩ : ∃ k, n = 8 + k := ⟨n - 8, by omega⟩
        rw [memRead_add] at he
        simp only [List.flatMap_cons, List.append_assoc] at he
        obtain ⟨e1, e2⟩ := List.append_inj he (by simp [Word8.bytes])
        cases i with
        | zero => simpa using e1
        | succ i =>
          have := ih rest (a + 8) k e2 i (by simpa using hi)
          simpa [Nat.mul_add, Nat.add_assoc, Nat.add_comm] using this
    intro i hi
    have := gen (h :: ws) rest s.raw.read (avail s.raw) (by simpa [frameBytes, pending] using hp) (i + 1) (by simpa using hi)
    simpa [Nat.mul_add, Nat.add_assoc, Nat.add_comm] using this
  have htot : total l = ws.length := by simp [validLayout] at hv; omega
  have hle := slotOff_le_total l (c + 1)
  rw [slotOff_succ] at hle
  have hlen : ((ws.drop (slotOff l c)).take (cntOf l c)).length = cntOf l c := by simp; omega
  rw [channelBytes, samplesOf, ← hlen]
  rw [hlen]
  conv_lhs => rw [← hlen]
  refine flatMap_range_eq _ _ _ fun k hk => ?_
  have hk' : k < cntOf l c := by rwa [hlen] at hk
  have := hword (slotOff l c + k) (by omega)
  rw [show (8:Nat) = 6 + 2 from rfl, memRead_add] at this
  simp only [List.getElem_take, List.getElem_drop]
  have h2 := congrArg (List.take 6) this
  simpa [sampleBytes, slotAddr, keptBytes, Word8.bytes] using h2

/-- A channel after COPY (R173, R174). -/
theorem chan_copyState {s : State} {h : Word8} {l : Layout} {c : Nat} (hc : c < s.cfg.nCh) (hs : SizesOk s) :
    chan (copyState h l s) c =
      { chan s c with
        mem := memWrite s.cfg.fill (chan s c).mem (chan s c).head (channelBytes s l c)
        head := (chan s c).head + 6 * cntOf l c } := by
  have h1 : c < s.ch.length := by rw [hs.1]; exact hc
  have h2 : c < (copyState h l s).ch.length := by simp [copyState, h1]
  rw [chan_eq h2, chan_eq h1]
  simp [copyState, copyChannel, hc]

theorem mem_copy {s : State} {h : Word8} {l : Layout} {B : Buffer} (hs : SizesOk s) (hB : B ∈ (copyState h l s).ch) :
    ∃ c < s.cfg.nCh, B = chan (copyState h l s) c ∧ chan s c ∈ s.ch := by
  obtain ⟨c, hc, rfl⟩ := List.getElem_of_mem hB
  have hc' : c < s.ch.length := by simpa [copyState] using hc
  exact ⟨c, by rw [← hs.1]; exact hc', (chan_eq hc).symm, chan_mem hc'⟩

/-- COPY keeps the cursors, the memories, the sizes and the cache in order. -/
theorem copy_keeps {s : State} {h : Word8} {l : Layout} (hC : CursorsOk s) (hM : MemoriesOk s) (hS : SizesOk s) (hK : CacheOk s)
    (hg : HeaderGood s h l) (hl : frameSize l ≤ avail s.raw) (ho : firstOverrun s l = none) :
    CursorsOk (copyState h l s) ∧ MemoriesOk (copyState h l s) ∧ SizesOk (copyState h l s) ∧ CacheOk (copyState h l s) := by
  obtain ⟨e1, e2⟩ := layout_valid hK hg
  refine ⟨⟨?_, ?_⟩, ⟨?_, ?_⟩, ?_, ?_⟩
  · have := hC.1; simp [copyState, CursorsInOrder, avail] at *; omega
  · intro B hB
    obtain ⟨c, hc, rfl, hm⟩ := mem_copy hS hB
    rw [chan_copyState hc hS]
    have h1 := hC.2 _ hm
    have h2 := firstOverrun_eq_none_iff.1 ho c hc
    simp [copyState, CursorsInOrder] at *; omega
  · simpa [copyState] using hM.1
  · intro B hB
    obtain ⟨c, hc, rfl, hm⟩ := mem_copy hS hB
    rw [chan_copyState hc hS]
    have h1 := hM.2 _ hm
    simp [copyState]; exact memWrite_wf h1
  · obtain ⟨a, b, c⟩ := hS; exact ⟨by simp [copyState, a], by simp [copyState, cacheLayout, e1], by simp [copyState, c]⟩
  · intro _; simp [copyState, cacheLayout, ← e1, e2]

/-! Compaction and arenas. -/

theorem compact_cur {cap : Nat} {fill : Byte} {B : Buffer} (h : CursorsInOrder cap B) :
    CursorsInOrder cap (compact fill B) := by
  have := compact_head (fill := fill) B
  simp only [CursorsInOrder, compact_read, avail] at *
  split at this <;> omega

theorem compact_below {cap : Nat} {fill : Byte} {B : Buffer} (h : CursorsInOrder cap B) (hb : ∀ c ∈ B.mem, c.1 < cap) :
    ∀ c ∈ (compact fill B).mem, c.1 < cap := by
  unfold compact; split
  · exact memWrite_below hb (by simp [avail, CursorsInOrder] at *; omega)
  · exact hb

/-! The alarm. -/

/-- The alarm sets its own bit and keeps the others (R35). -/
theorem raiseAlarm_bit (p : Params) (d k : Nat) :
    (raiseAlarm p d).testBit k = (d.testBit k || decide (k = p.diagBit)) := by
  simp [raiseAlarm, Nat.testBit_or, Nat.testBit_shiftLeft]
  by_cases h : k = p.diagBit
  · subst h; simp
  · simp [h]
    intro _ h2
    have : k - p.diagBit ≠ 0 := by omega
    revert h2
    rw [← Nat.pow_zero 2, Nat.testBit_two_pow] ; simp; omega

end Sys2Proof.Machine
end

