-- ==== Sys2Proof/Laws/PerInstr.lean ====
section
/-! SUPPORT. Statements made per instruction: `RecordHead`, that an instruction has a table id exactly when it is written as an
operation record, and that its record begins with that id (R104, spec/opcode_table.json). -/

namespace Sys2Proof.Laws.RecordHead

/-- The id of R104. -/
def tableId : Instr → Option Byte
  | .hdr _ => none
  | .frame _ _ => none
  | .slot _ _ _ => none
  | .nonhdr _ => none
  | .idlePoll => some 0
  | .start => some 1
  | .topCheck => some 2
  | .fcSelect => some 3
  | .fcRepoll => some 4
  | .burst => some 5
  | .align => some 6
  | .decode => some 7
  | .compactRaw => some 8
  | .drain _ _ => some 9
  | .sendDone => some 10
  | .sendFail _ => some 11
  | .faultEnter _ _ => some 12
  | .faultExit => some 13
  | .envAct _ => some 14
  | .envDiagClear _ => some 15
  | .append _ => none

/-- An operation's record begins with its id, and nothing else is an operation. -/
def Statement (i : Instr) : Prop :=
  (formatOf i = .op ↔ (tableId i).isSome = true) ∧ ∀ id, tableId i = some id → (encode i).head? = some id ∧ id.toNat < 16

theorem hdr (w : Word8) : Statement (.hdr w) := by simp [Statement, formatOf, tableId]
theorem frame (h : Word8) (ws : List Word8) : Statement (.frame h ws) := by simp [Statement, formatOf, tableId]
theorem slot (c k : Nat) (w : Word8) : Statement (.slot c k w) := by simp [Statement, formatOf, tableId]
theorem nonhdr (w : Word8) : Statement (.nonhdr w) := by simp [Statement, formatOf, tableId]
theorem idlePoll : Statement .idlePoll := by simp [Statement, formatOf, tableId, encode]
theorem start : Statement .start := by simp [Statement, formatOf, tableId, encode]
theorem topCheck : Statement .topCheck := by simp [Statement, formatOf, tableId, encode]
theorem fcSelect : Statement .fcSelect := by simp [Statement, formatOf, tableId, encode]
theorem fcRepoll : Statement .fcRepoll := by simp [Statement, formatOf, tableId, encode]
theorem burst : Statement .burst := by simp [Statement, formatOf, tableId, encode]
theorem align : Statement .align := by simp [Statement, formatOf, tableId, encode]
theorem decode : Statement .decode := by simp [Statement, formatOf, tableId, encode]
theorem compactRaw : Statement .compactRaw := by simp [Statement, formatOf, tableId, encode]
theorem drain (c n : Nat) : Statement (.drain c n) := by simp [Statement, formatOf, tableId, encode]
theorem sendDone : Statement .sendDone := by simp [Statement, formatOf, tableId, encode]
theorem sendFail (c : Nat) : Statement (.sendFail c) := by simp [Statement, formatOf, tableId, encode]
theorem faultEnter (cause : Cause) (info : Nat) : Statement (.faultEnter cause info) := by
  simp [Statement, formatOf, tableId, encode]
theorem faultExit : Statement .faultExit := by simp [Statement, formatOf, tableId, encode]
theorem envAct (b : Bool) : Statement (.envAct b) := by simp [Statement, formatOf, tableId, encode]
theorem envDiagClear (m : Nat) : Statement (.envDiagClear m) := by simp [Statement, formatOf, tableId, encode]
theorem append (data : List Byte) : Statement (.append data) := by simp [Statement, formatOf, tableId]

end Sys2Proof.Laws.RecordHead
end

