-- ==== Sys2Proof/Laws/Step.lean ====
section
/-! SUPPORT. What a step can do: the instruction it runs, on a state that differs from the one before only in the agenda, the
inputs, the sequence counters and the record of what was issued; or another alarm source's write to DIAG. -/

namespace Sys2Proof.Machine

/-- `s1` is `s` but for the agenda, the inputs, the values of SEQ and the record `out`. -/
structure Untouched (s s1 : State) : Prop where
  raw : s1.raw = s.raw
  ch : s1.ch = s.ch
  aligned : s1.aligned = s.aligned
  cacheValid : s1.cacheValid = s.cacheValid
  codeCache : s1.codeCache = s.codeCache
  flen : s1.flen = s.flen
  cnt : s1.cnt = s.cnt
  xfer : s1.xfer = s.xfer
  graceCnt : s1.graceCnt = s.graceCnt
  mode : s1.mode = s.mode
  phase : s1.phase = s.phase
  faultCause : s1.faultCause = s.faultCause
  faultInfo : s1.faultInfo = s.faultInfo
  armed : s1.armed = s.armed
  streamEn : s1.streamEn = s.streamEn
  diag : s1.diag = s.diag
  act : s1.act = s.act
  actPrev : s1.actPrev = s.actPrev
  seqLength : s1.seq.length = s.seq.length
  cfg : s1.cfg = s.cfg

theorem Untouched.refl (s : State) : Untouched s s := by constructor <;> rfl

theorem untouched_choice (s : State) : Untouched s { s with inputs := afterChoice s.inputs } := by constructor <;> rfl

theorem untouched_agenda (s : State) (rest : List Byte) : Untouched s { s with agenda := rest } := by constructor <;> rfl

theorem Untouched.sendDatagram {s s1 : State} (h : Untouched s s1) (c : Nat) : Untouched s (sendDatagram c s1) := by
  obtain ⟨h1, h2, h3, h4, h5, h6, h7, h8, h9, h10, h11, h12, h13, h14, h15, h16, h17, h18, h19, h20⟩ := h
  constructor <;> simp [*]

/-- In phase SEND the consumer makes one of its three moves. -/
theorem packetizerMove_run {s s1 s2 : State} {i : Instr} (hu : Untouched s s1) (h : packetizerMove s1 = .run i s2) :
    Untouched s s2 ∧ (i = .sendDone ∨ (∃ c n, i = .drain c n) ∨ ∃ c, i = .sendFail c) := by
  unfold packetizerMove at h
  split at h
  · cases h; exact ⟨hu, .inl rfl⟩
  · split at h <;> cases h
    · exact ⟨hu.sendDatagram _, .inr (.inl ⟨_, _, rfl⟩)⟩
    · exact ⟨hu.sendDatagram _, .inr (.inr ⟨_, rfl⟩)⟩

theorem consumerMove_run {s s1 s2 : State} {ch : Choice} {i : Instr} (hu : Untouched s s1)
    (h : consumerMove ch s1 = .run i s2) :
    Untouched s s2 ∧ (i = .sendDone ∨ (∃ c n, i = .drain c n) ∨ ∃ c, i = .sendFail c) := by
  cases ch <;> simp only [consumerMove] at h
  case drain c n =>
    split at h <;> cases h
    · exact ⟨hu, .inl rfl⟩
    · exact ⟨hu, .inr (.inl ⟨_, _, rfl⟩)⟩
  case sendFail c => cases h; exact ⟨hu, .inr (.inr ⟨_, rfl⟩)⟩
  all_goals (cases h; exact ⟨hu, .inl rfl⟩)

/-- The block's own move: a consumer's move in phase SEND, else the operation that MODE and PHASE enable. -/
theorem blockMove_run {s s1 s2 : State} {ch : Choice} {i : Instr} (hu : Untouched s s1) (h : blockMove ch s1 = .run i s2) :
    Untouched s s2 ∧
      ((s.mode = .streaming ∧ s.phase = .send ∧ (i = .sendDone ∨ (∃ c n, i = .drain c n) ∨ ∃ c, i = .sendFail c)) ∨
        i = workerOp s.mode s.phase) := by
  unfold blockMove at h
  split at h
  · rename_i hc
    rw [hu.mode, hu.phase] at hc
    split at h
    · exact ⟨(packetizerMove_run hu h).1, .inl ⟨hc.1, hc.2, (packetizerMove_run hu h).2⟩⟩
    · exact ⟨(consumerMove_run hu h).1, .inl ⟨hc.1, hc.2, (consumerMove_run hu h).2⟩⟩
  · cases h
    exact ⟨hu, .inr (by rw [hu.mode, hu.phase])⟩

theorem blockMove_not_world {s s' : State} {ch : Choice} : blockMove ch s ≠ .world s' := by
  intro h
  unfold blockMove at h
  split at h
  · split at h
    · unfold packetizerMove at h
      split at h
      · cases h
      · split at h <;> cases h
    · cases ch <;> simp only [consumerMove] at h
      case drain => split at h <;> cases h
      all_goals cases h
  · cases h

/-- Where no record waits, an instruction that runs is an external write, a consumer's move in phase SEND, or the operation
MODE and PHASE enable (R126). -/
theorem unscripted_run {s s1 : State} {i : Instr} (h : unscripted s = .run i s1) :
    Untouched s s1 ∧ ((∃ b, i = .envAct b) ∨ (∃ m, i = .envDiagClear m) ∨
      (s.mode = .streaming ∧ s.phase = .send ∧ (i = .sendDone ∨ (∃ c n, i = .drain c n) ∨ ∃ c, i = .sendFail c)) ∨
        i = workerOp s.mode s.phase) := by
  unfold unscripted at h
  split at h
  · cases h; exact ⟨untouched_choice s, .inl ⟨_, rfl⟩⟩
  · cases h; exact ⟨untouched_choice s, .inr (.inl ⟨_, rfl⟩)⟩
  · cases h
  all_goals
    obtain ⟨h1, h2⟩ := blockMove_run (untouched_choice s) h
    exact ⟨h1, .inr (.inr h2)⟩

/-- What fetch finds runs on an untouched state. -/
theorem fetch_run {s s1 : State} {i : Instr} (h : fetch s = .run i s1) : Untouched s s1 := by
  unfold fetch at h
  split at h
  · exact (unscripted_run h).1
  · split at h <;> cases h
    exact untouched_agenda s _

/-- A change by the world outside is another alarm source's write to DIAG (R240). -/
theorem fetch_world {s s1 : State} (h : fetch s = .world s1) :
    ∃ m, s1 = { s with inputs := afterChoice s.inputs, diag := setOtherBits s.cfg s.diag m } := by
  unfold fetch at h
  split at h
  · unfold unscripted at h
    split at h
    · cases h
    · cases h
    · cases h; exact ⟨_, rfl⟩
    all_goals exact absurd h blockMove_not_world
  · split at h <;> cases h

/-- Everything a step can do. -/
theorem step_effect {s t : State} (h : step s = .next t) :
    (∃ i s1, Untouched s s1 ∧ Effect i s1 t) ∨
      ∃ m, t = { s with inputs := afterChoice s.inputs, diag := setOtherBits s.cfg s.diag m } := by
  unfold step at h
  split at h
  · rename_i i s1 hf; exact .inl ⟨i, s1, fetch_run hf, exec_effect h⟩
  · rename_i s1 hf; cases h; exact .inr (fetch_world hf)
  · cases h

end Sys2Proof.Machine
end

