-- ==== Sys2Proof/Tests/Slice0.lean ====
section
/-! SUPPORT. Tests: the test vectors of spec/95_test_vectors.md on its fixture (section 0), each about one step, and the smoke
tests of WellFormed and of the decoder. Expected values are the vectors' own. -/

namespace Sys2Proof.Tests

open Sys2Proof.Machine

/-! The fixture (spec/95_test_vectors.md section 0). -/

def hw (a b c d e f g : Byte) : Word8 := ⟨a, b, c, d, e, f, g, 0x80⟩

/-- `Analyse_T` on the headers the tests use: `L = h[3]`, `cnt = h[0], h[1], h[2]`. -/
def toyLayouts : List (Word8 × Layout) :=
  [(hw 2 1 0 3 0 0 0, ⟨3, [2, 1, 0]⟩), (hw 0 0 0 0 0 0 0, ⟨0, [0, 0, 0]⟩), (hw 1 0 1 2 0 0 0, ⟨2, [1, 0, 1]⟩),
    (hw 2 1 0 4 0 0 0, ⟨4, [2, 1, 0]⟩), (hw 0 0 1 1 0 0 0, ⟨1, [0, 0, 1]⟩), (hw 0 1 2 3 0 0 0, ⟨3, [0, 1, 2]⟩)]

def fixture : Params :=
  { marker := 0x80, extraCh := 2, rawCap := 128, chCap := 48, layouts := toyLayouts, maxFlen := 4, graceBursts := 2,
    diagBit := 0, diagAbove := 7, occWidth := 16, alignLimit := none, fcReselect := false, restartOnLevel := false,
    pktLess1 := 1, pktType := 0x1234, packetizer := true, fill := 0 }

def base : State := State.resetWith fixture

def streaming (ph : Phase) : State := { base with mode := .streaming, phase := ph, armed := false, streamEn := true }

/-- A buffer whose arena holds `bs` from offset `a`. -/
def buf (a : Nat) (bs : List Byte) (r h : Nat) : Buffer := { mem := memWrite 0 [] a bs, read := r, head := h }

/-- A field of the next state. -/
def field {α : Type} (f : State → α) : Host.Outcome State Fault Refusal → Option α
  | .next s => some (f s)
  | .fault _ => none
  | .refused _ => none

/-- The reason of a refusal. -/
def whyRefused : Host.Outcome State Fault Refusal → Option Refusal
  | .next _ => none
  | .fault _ => none
  | .refused r => some r

/-- The reason of a fault. -/
def whyFault : Host.Outcome State Fault Refusal → Option Fault
  | .next _ => none
  | .fault f => some f
  | .refused _ => none

def cur (B : Buffer) : Nat × Nat := (B.read, B.head)

/-! WellFormed refuses an ill-formed term for each check. -/

theorem test_wf_hdr : WellFormed fixture (.hdr ⟨0, 0, 0, 0, 0, 0, 0, 0x7F⟩) = false := by decide
theorem test_wf_frame_marker : WellFormed fixture (.frame ⟨0, 0, 0, 0, 0, 0, 0, 0⟩ []) = false := by decide
theorem test_wf_frame_length : WellFormed fixture (.frame (hw 1 0 1 2 0 0 0) [hw 0 0 0 0 0 0 0]) = false := by decide
theorem test_wf_slot : WellFormed fixture (.slot 3 0 (hw 0 0 0 0 0 0 0)) = false := by decide
theorem test_wf_nonhdr : WellFormed fixture (.nonhdr (hw 0 0 0 0 0 0 0)) = false := by decide
theorem test_wf_drain_channel : WellFormed fixture (.drain 3 1) = false := by decide
theorem test_wf_drain_count : WellFormed fixture (.drain 0 0) = false := by decide
theorem test_wf_sendFail : WellFormed fixture (.sendFail 3) = false := by decide
theorem test_wf_faultEnter_info : WellFormed fixture (.faultEnter .desync 1) = false := by decide
theorem test_wf_faultEnter_channel : WellFormed fixture (.faultEnter .chOverrun 3) = false := by decide
theorem test_wf_diagClear : WellFormed fixture (.envDiagClear 256) = false := by decide
theorem test_wf_good : (WellFormed fixture (.drain 2 1) && WellFormed fixture (.faultEnter .sendFail 2)
    && WellFormed fixture (.envDiagClear 255) && WellFormed fixture (.frame (hw 0 0 0 0 0 0 0) [])) = true := by decide

/-! Decoding: words written out from the spec (R91 to R93, R104). -/

/-- The bytes decode, with nothing left, to this instruction. -/
def decodesTo (f : Format) (bs : List Byte) (i : Instr) : Bool := decide (decode fixture f bs = .ok (i, []))

theorem test_decode_hdr : decodesTo .hdr [0x02, 0x01, 0x00, 0x03, 0x00, 0x00, 0x00, 0x80] (.hdr (hw 2 1 0 3 0 0 0)) = true := by
  decide
theorem test_decode_nonhdr : decodesTo .hdr [0xB0, 0x09, 0x01, 0x02, 0x03, 0x04, 0x12, 0x34]
    (.nonhdr ⟨0xB0, 0x09, 0x01, 0x02, 0x03, 0x04, 0x12, 0x34⟩) = true := by decide
theorem test_decode_frame : decodesTo .frame
    [0, 0, 1, 1, 0, 0, 0, 0x80, 0xC0, 0x00, 0x01, 0x02, 0x03, 0x04, 0xEE, 0xFF]
    (.frame (hw 0 0 1 1 0 0 0) [⟨0xC0, 0x00, 0x01, 0x02, 0x03, 0x04, 0xEE, 0xFF⟩]) = true := by decide
theorem test_decode_slot : decodesTo (.slot 2 0) [0xC0, 0x00, 0x01, 0x02, 0x03, 0x04, 0xEE, 0xFF]
    (.slot 2 0 ⟨0xC0, 0x00, 0x01, 0x02, 0x03, 0x04, 0xEE, 0xFF⟩) = true := by decide
theorem test_decode_idlePoll : decodesTo .op [0x00] .idlePoll = true := by decide
theorem test_decode_start : decodesTo .op [0x01] .start = true := by decide
theorem test_decode_topCheck : decodesTo .op [0x02] .topCheck = true := by decide
theorem test_decode_fcSelect : decodesTo .op [0x03] .fcSelect = true := by decide
theorem test_decode_fcRepoll : decodesTo .op [0x04] .fcRepoll = true := by decide
theorem test_decode_burst : decodesTo .op [0x05] .burst = true := by decide
theorem test_decode_align : decodesTo .op [0x06] .align = true := by decide
theorem test_decode_decode : decodesTo .op [0x07] .decode = true := by decide
theorem test_decode_compactRaw : decodesTo .op [0x08] .compactRaw = true := by decide
theorem test_decode_drain : decodesTo .op [0x09, 0x01, 0xFF, 0x02] (.drain 1 384) = true := by decide
theorem test_decode_sendDone : decodesTo .op [0x0A] .sendDone = true := by decide
theorem test_decode_sendFail : decodesTo .op [0x0B, 0x02] (.sendFail 2) = true := by decide
theorem test_decode_faultEnter : decodesTo .op [0x0C, 0x05, 0x01] (.faultEnter .chOverrun 1) = true := by decide
theorem test_decode_faultExit : decodesTo .op [0x0D] .faultExit = true := by decide
theorem test_decode_envAct : decodesTo .op [0x0E, 0x01] (.envAct true) = true := by decide
theorem test_decode_envDiagClear : decodesTo .op [0x0F, 0x05] (.envDiagClear 5) = true := by decide
theorem test_decode_append : decodesTo .pseudo [0x10, 0x02, 0xAA, 0xBB] (.append [0xAA, 0xBB]) = true := by decide
theorem test_decode_rejects : decode fixture .op [0x17] = .error .noSuchId ∧ decode fixture .op [0x0B, 0x80, 0x00]
    = .error .overlong ∧ decode fixture .frame [0, 0, 1, 1, 0, 0, 0, 0x80] = .error .truncated := by decide

/-! Flow controller: V-F1 to V-F5. -/

theorem test_burstSizeFor : [0, 1024, 1025, 2048, 2049, 4096, 4097, 5000].map (fun n => (burstSizeFor n).bytes)
    = [4096, 4096, 8192, 8192, 16384, 16384, 32768, 32768] := by decide
theorem test_enough : [enough 511 .s0, enough 512 .s0, enough 4095 .s3, enough 4096 .s3] = [false, true, false, true] := by
  decide

def withMon (st : FifoStatus) (s : State) : State := { s with inputs := { s.inputs with mon := [st] } }

def flow (s : State) : Nat × Phase × Nat := (s.xfer.bytes, s.phase, s.diag)

/-- V-F3, rows `occ = 5000, thr = 1` without and within the grace period. -/
theorem test_fcSelect_alarm :
    field flow (exec .fcSelect (withMon ⟨5000, false, false, true⟩ { streaming .select with diag := 4 })) =
      some (32768, .burst, 5) ∧
    field flow (exec .fcSelect (withMon ⟨5000, true, true, true⟩ { streaming .select with graceCnt := 1 })) =
      some (32768, .burst, 0) := by decide
/-- V-F3, rows `occ = 511` and `occ = 5000, ovf = unf = 1`. -/
theorem test_fcSelect_wait :
    field flow (exec .fcSelect (withMon ⟨511, false, false, false⟩ (streaming .select))) = some (4096, .wait, 0) ∧
    field flow (exec .fcSelect (withMon ⟨5000, true, true, false⟩ (streaming .select))) = some (32768, .burst, 0) := by decide
/-- V-F4, rows 2 and 4. -/
theorem test_fcRepoll :
    field flow (exec .fcRepoll (withMon ⟨511, false, false, true⟩ (streaming .wait))) = some (4096, .wait, 1) ∧
    field flow (exec .fcRepoll (withMon ⟨1500, false, false, false⟩ (streaming .wait))) = some (4096, .burst, 0) := by decide
/-- V-F1, last row: OCC_WIDTH bits, all of them (R151). -/
theorem test_occ_width :
    [65535, 65536].map (fun n => burstSizeFor (monRead (withMon ⟨n, false, false, false⟩ (streaming .select))).occ) = [.s3, .s0] := by
  decide
/-- V-F4, row 5 (FC_RESELECT). -/
theorem test_fcRepoll_reselect :
    field flow (exec .fcRepoll (withMon ⟨1500, false, false, false⟩
      { streaming .wait with cfg := { fixture with fcReselect := true } })) = some (8192, .burst, 0) := by decide

/-! Burst and compaction: V-B1 to V-B4. -/

def withDev (a : DevAnswer) (s : State) : State := { s with inputs := { s.inputs with dev := [a] } }

def bigRaw (cap : Nat) (x : BurstSize) (s : State) : State :=
  { s with cfg := { fixture with rawCap := cap }, raw := { Buffer.empty with head := 24 }, xfer := x, graceCnt := 3 }

/-- V-B1. -/
theorem test_burst_phase :
    field (fun s => (s.graceCnt, s.phase)) (exec .burst (withDev .complete (bigRaw 32800 .s0 (streaming .burst)))) =
      some (2, .align) := by decide
/-- V-B2: 24 + 32768 is above 32784. -/
theorem test_burst_overrun :
    field (fun s => (causeCode s.faultCause, s.mode, cur s.raw, s.graceCnt, s.streamEn))
      (exec .burst (withDev .stuck (bigRaw 32784 .s3 (streaming .burst)))) = some (5, .faulting, (0, 0), 3, false) := by decide
/-- U8 and U18: the device that never answers, and the short read. -/
theorem test_burst_stops :
    whyFault (exec .burst (withDev .stuck (bigRaw 32800 .s0 (streaming .burst)))) = some .deviceStuck ∧
    whyRefused (exec .burst (withDev .short (bigRaw 32800 .s0 (streaming .burst)))) = some .shortDeviceRead := by decide
/-- V-B3. -/
theorem test_append :
    field (fun s => (cur s.raw, s.phase, memRead 0 s.raw.mem 0 5)) (exec (.append [1, 2, 0, 4, 5]) (streaming .top)) =
      some ((0, 5), .align, [1, 2, 0, 4, 5]) ∧
    field (fun s => (s.raw, s.phase)) (exec (.append []) (streaming .top)) = some (Buffer.empty, .align) := by decide
/-- R276: the wait does not end by APPEND. -/
theorem test_append_not_in_wait : whyRefused (exec (.append [1]) (streaming .wait)) = some .notEnabled := by decide
/-- V-B4 row 1 at a smaller size: source and destination overlap. -/
theorem test_compactRaw :
    field (fun s => (cur s.raw, memRead 0 s.raw.mem 0 5, s.phase))
      (exec .compactRaw { streaming .compact with raw := buf 2 [1, 2, 3] 2 5 }) =
      some ((0, 3), [1, 2, 3, 2, 3], .send) := by decide

/-! Alignment: V-A2 to V-A7. -/

/-- Four strides whose bytes 7 are `a b c d`. -/
def strides (a b c d : Byte) : Buffer :=
  { mem := memWrite 0 (memWrite 0 (memWrite 0 (memWrite 0 [] 7 [a]) 15 [b]) 23 [c]) 31 [d], read := 0, head := 32 }

/-- V-A2: the first match wins. -/
theorem test_align_first :
    field (fun s => (s.raw.read, s.aligned, s.phase)) (exec .align { streaming .align with raw := strides 0 0x7F 0x80 0x80 }) =
      some (16, true, .decode) := by decide
/-- V-A3 and V-A5. -/
theorem test_align_fail_and_window :
    field (fun s => (causeCode s.faultCause, s.mode, cur s.raw, s.aligned))
      (exec .align { streaming .align with raw := strides 0 0x7F 0x81 0 }) = some (1, .faulting, (0, 0), false) ∧
    field (fun s => s.raw.read)
      (exec .align { streaming .align with raw := { strides 0 0x80 0x80 0 with head := 20 } }) = some 8 := by decide
/-- V-A4: nothing to scan. -/
theorem test_align_postponed :
    field (fun s => (s.phase, s.aligned)) (exec .align { streaming .align with raw := { strides 0x80 0 0 0 with head := 5 } }) =
      some (.compact, false) := by decide
/-- V-A6 and V-A7: ALIGN_LIMIT. -/
theorem test_align_limit :
    field (fun s => causeCode s.faultCause)
      (exec .align { streaming .align with raw := strides 0 0 0x80 0, cfg := { fixture with alignLimit := some 2 } }) = some 1 ∧
    field (fun s => s.raw.read)
      (exec .align { streaming .align with raw := strides 0 0 0x80 0, cfg := { fixture with alignLimit := some 3 } }) =
      some 16 := by decide

/-! DECODE: V-D1 to V-D10. -/

def slotA : List Byte := [0xA0, 0x00, 0x01, 0x02, 0x03, 0x04, 0xEE, 0xFF]
def slotA1 : List Byte := [0xA0, 0x01, 0x01, 0x02, 0x03, 0x04, 0xEE, 0xFF]
def slotB : List Byte := [0xB0, 0x00, 0x01, 0x02, 0x03, 0x04, 0xEE, 0xFF]
def hdr213 : List Byte := [0x02, 0x01, 0x00, 0x03, 0x00, 0x00, 0x00, 0x80]
def frame213 : List Byte := hdr213 ++ slotA ++ slotA1 ++ slotB

def decoding (bs : List Byte) : State := { streaming .decode with aligned := true, raw := buf 0 bs 0 bs.length }

def heads (s : State) : List (Nat × Nat) := s.ch.map cur

/-- V-D1. -/
theorem test_decode_copy :
    field (fun s => (s.raw.read, heads s, memRead 0 (chan s 0).mem 0 12, memRead 0 (chan s 1).mem 0 6))
      (exec .decode (decoding frame213)) =
      some (32, [(0, 12), (0, 6), (0, 0)], [0xA0, 0x00, 0x01, 0x02, 0x03, 0x04, 0xA0, 0x01, 0x01, 0x02, 0x03, 0x04],
        [0xB0, 0x00, 0x01, 0x02, 0x03, 0x04]) := by decide
/-- V-D1, the cache and the phase. -/
theorem test_decode_copy_cache :
    field (fun s => (s.cacheValid, s.codeCache, s.flen, s.cnt, s.phase)) (exec .decode (decoding frame213)) =
      some (true, hw 2 1 0 3 0 0 0, 3, [2, 1, 0], .decode) := by decide
/-- V-D3 and V-D5. -/
theorem test_decode_headerOnly_and_empty :
    field (fun s => (s.raw.read, heads s)) (exec .decode (decoding [0, 0, 0, 0, 0, 0, 0, 0x80])) =
      some (8, [(0, 0), (0, 0), (0, 0)]) ∧
    field (fun s => (s.phase, s.raw.read)) (exec .decode (decoding [1, 2, 3, 4, 5, 6, 7])) = some (.compact, 0) := by decide
/-- V-D4: a channel with no samples in the middle. -/
theorem test_decode_zeroCount :
    field (fun s => (heads s, memRead 0 (chan s 2).mem 0 6))
      (exec .decode (decoding ([1, 0, 1, 2, 0, 0, 0, 0x80] ++ slotA ++ slotB))) =
      some ([(0, 6), (0, 0), (0, 6)], [0xB0, 0x00, 0x01, 0x02, 0x03, 0x04]) := by decide
/-- V-D6 and V-D7. -/
theorem test_decode_desync_badLayout :
    field (fun s => (causeCode s.faultCause, s.faultInfo, s.mode, s.streamEn))
      (exec .decode (decoding [2, 1, 0, 3, 0, 0, 0, 0])) = some (2, 0, .faulting, false) ∧
    field (fun s => (causeCode s.faultCause, s.cacheValid))
      (exec .decode (decoding [2, 1, 0, 4, 0, 0, 0, 0x80])) = some (4, false) := by decide
/-- V-D8: the deferred frame leaves its layout in the cache. -/
theorem test_decode_defer :
    field (fun s => (s.phase, s.raw.read, heads s)) (exec .decode (decoding (hdr213 ++ slotA ++ slotA1))) =
      some (.compact, 0, [(0, 0), (0, 0), (0, 0)]) ∧
    field (fun s => (s.cacheValid, s.out)) (exec .decode (decoding (hdr213 ++ slotA ++ slotA1))) =
      some (true, [.analyse (hw 2 1 0 3 0 0 0)]) := by decide
/-- V-D9 rows 2 and 3: the lowest channel without room, and nothing copied. -/
theorem test_decode_overrun :
    field (fun s => (causeCode s.faultCause, s.faultInfo))
      (exec .decode { decoding frame213 with ch := [buf 0 [] 0 42, buf 0 [] 0 48, Buffer.empty] }) = some (6, 0) ∧
    field (fun s => (causeCode s.faultCause, s.faultInfo, heads s))
      (exec .decode { decoding frame213 with ch := [buf 0 [] 0 36, buf 0 [] 0 48, Buffer.empty] }) =
      some (6, 1, [(0, 0), (0, 0), (0, 0)]) := by decide

/-! What stands at the cursor (R98, R174; P2). -/

theorem test_hdr_aligns :
    field (fun s => (s.aligned, s.phase, s.raw.read))
      (exec (.hdr (hw 2 1 0 3 0 0 0)) { streaming .align with raw := buf 0 frame213 0 32 }) = some (true, .decode, 0) := by
  decide
theorem test_hdr_not_there :
    whyRefused (exec (.hdr (hw 0 0 0 0 0 0 0)) (decoding frame213)) = some .notEnabled := by decide
theorem test_nonhdr :
    field (fun s => causeCode s.faultCause)
      (exec (.nonhdr ⟨2, 1, 0, 3, 0, 0, 0, 0x81⟩) (decoding [2, 1, 0, 3, 0, 0, 0, 0x81])) = some 2 := by decide
theorem test_frame :
    field (fun s => (s.raw.read, heads s))
      (exec (.frame (hw 0 0 1 1 0 0 0) [⟨0xB0, 0x00, 0x01, 0x02, 0x03, 0x04, 0xEE, 0xFF⟩])
        (decoding ([0, 0, 1, 1, 0, 0, 0, 0x80] ++ slotB))) = some (16, [(0, 0), (0, 0), (0, 6)]) := by decide
theorem test_slot :
    field (fun s => (heads s, memRead 0 (chan s 0).mem 0 13))
      (exec (.slot 0 1 ⟨0xA0, 0x01, 0x01, 0x02, 0x03, 0x04, 0xEE, 0xFF⟩) (decoding frame213)) =
      some ([(0, 0), (0, 0), (0, 0)], [0, 0, 0, 0, 0, 0, 0xA0, 0x01, 0x01, 0x02, 0x03, 0x04, 0]) := by decide

/-! Downstream: V-P1 to V-P5. -/

/-- V-P1. -/
theorem test_datagram :
    datagram fixture 3 2 [0xA0, 0x02, 0x01, 0x02, 0x03, 0x04, 0xA0, 0x03, 0x01, 0x02, 0x03, 0x04] =
      [0, 0, 0, 3, 0, 0, 0, 0, 0, 0, 0, 0, 0x12, 0x34, 0, 2, 0xA0, 0x02, 0x01, 0x02, 0x03, 0x04, 0xA0, 0x03, 0x01, 0x02, 0x03,
        0x04] ∧ (datagram fixture 0x01020304 238 []).take 4 = [1, 2, 3, 4] := by decide
/-- V-P2, by the Packetizer's own step. -/
theorem test_seq_wraps :
    field (fun s => (seqOf s 0, (chan s 0).read))
      (step { streaming .send with
        ch := [buf 0 [] 0 12, Buffer.empty, Buffer.empty], seq := [0xFFFFFFFF, 0, 0]
        inputs := { base.inputs with sched := [.worker], tx := [true] } }) = some (0, 12) := by decide
/-- V-P3. -/
theorem test_drain :
    field (fun s => (cur (chan s 0), s.out)) (exec (.drain 0 2) { streaming .send with
      ch := [buf 0 [7, 8, 9] 0 3, Buffer.empty, Buffer.empty] }) = some ((2, 3), [.handed 0 [7, 8]]) ∧
    whyRefused (exec (.drain 0 4) { streaming .send with ch := [buf 0 [7, 8, 9] 0 3, Buffer.empty, Buffer.empty] }) =
      some .notEnabled := by decide
/-- V-P4. -/
theorem test_sendDone :
    field (fun s => (heads s, memRead 0 (chan s 0).mem 0 3, s.phase)) (exec .sendDone { streaming .send with
      ch := [buf 12 [1, 2, 3] 12 15, buf 0 [4] 0 6, buf 0 [] 6 6] }) = some ([(0, 3), (0, 6), (0, 0)], [1, 2, 3], .top) := by
  decide
/-- V-P5. -/
theorem test_sendFail :
    field (fun s => (causeCode s.faultCause, s.faultInfo, s.mode, heads s))
      (exec (.sendFail 2) { streaming .send with ch := [buf 0 [] 0 72, buf 0 [] 6 9, Buffer.empty] }) =
      some (3, 2, .faulting, [(0, 0), (0, 0), (0, 0)]) := by decide

/-! Session control: V-S1 to V-S5. -/

def seeing (act : Bool) (s : State) : State := { s with act := act, inputs := { s.inputs with lag := [false] } }

def session (s : State) : Mode × Bool := (s.mode, s.armed)

/-- V-S1 rows 2 and 3. -/
theorem test_idlePoll :
    field session (exec .idlePoll (seeing true base)) = some (.starting, true) ∧
    field session (exec .idlePoll (seeing true { base with armed := false })) = some (.idle, false) := by decide
/-- V-S1 rows 4 and 5. -/
theorem test_idlePoll_rearms :
    field session (exec .idlePoll (seeing false { base with armed := false })) = some (.idle, true) ∧
    field session (exec .idlePoll (seeing true { base with armed := false, cfg := { fixture with restartOnLevel := true } })) =
      some (.starting, false) := by decide
/-- V-S2. -/
theorem test_start :
    field (fun s => (cur s.raw, heads s, s.cacheValid, s.graceCnt))
      (exec .start { base with
        mode := .starting, raw := buf 0 [] 7 99, ch := [Buffer.empty, buf 0 [] 3 9, Buffer.empty], aligned := true
        cacheValid := true, faultCause := some .desync, diag := 1 }) =
      some ((0, 0), [(0, 0), (0, 0), (0, 0)], false, 2) := by decide
/-- V-S2, the other registers and the commands. -/
theorem test_start_commands :
    field (fun s => (s.armed, s.streamEn, s.mode, s.phase)) (exec .start { base with mode := .starting }) =
      some (false, true, .streaming, .top) ∧
    field (fun s => (s.diag, s.out)) (exec .start { base with mode := .starting, diag := 1 }) =
      some (1, [.streamEnable true, .fifoReset]) := by decide
/-- V-S3. -/
theorem test_topCheck :
    field (fun s => (s.mode, s.phase)) (exec .topCheck (seeing true (streaming .top))) = some (.streaming, .select) ∧
    field (fun s => (s.mode, s.streamEn, s.armed, cur s.raw))
      (exec .topCheck (seeing false { streaming .top with raw := buf 0 [] 0 16 })) = some (.idle, false, true, (0, 16)) := by
  decide
/-- V-S4; and never on its own (R104): no DESYNC at a good header, no RAW_OVERRUN in phase TOP. -/
theorem test_faultEnter_and_exit :
    field (fun s => (s.aligned, s.cacheValid, s.graceCnt, s.diag, causeCode s.faultCause, s.mode))
      (exec (.faultEnter .desync 0) { decoding [2, 1, 0, 3, 0, 0, 0, 0x7F] with cacheValid := true, diag := 1 }) =
      some (true, true, 0, 1, 2, .faulting) ∧
    field (fun s => (s.mode, causeCode s.faultCause)) (exec .faultExit { base with mode := .faulting, faultCause := some .desync }) =
      some (.idle, 2) ∧
    whyRefused (exec (.faultEnter .desync 0) (decoding frame213)) = some .notEnabled ∧
    whyRefused (exec (.faultEnter .rawOverrun 0) (streaming .top)) = some .notEnabled := by decide
/-- V-S5. -/
theorem test_env :
    field (fun s => (s.act, s.phase)) (exec (.envAct false) { streaming .decode with act := true }) = some (false, .decode) ∧
    field (fun s => s.diag) (exec (.envDiagClear 1) { base with diag := 5 }) = some 4 := by decide
/-- The first operation after power-on (R261), with ACT 0. -/
theorem test_reset_polls :
    field session (step { State.resetWith fixture with inputs := { base.inputs with sched := [.worker], lag := [false] } }) =
      some (.idle, true) := by decide

/-- FAULT_ENTER placed after power-on (log 21), where RAW holds a word at all: the word at the cursor is no header. -/
theorem test_placed_faultEnter (h : 8 ≤ Config.params.rawCap) :
    ∃ t, step (State.reset.withFetchWord 8 12) = .next t ∧ t.mode = .faulting ∧ t.faultCause = some .alignFail := by
  let s : State := selectFault .alignFail State.reset
  have hw : alignWindow s = 1 := (show alignWindow s = 8 / 8 from rfl)
  have hb : memGet s.cfg.fill s.raw.mem 7 = ~~~s.cfg.marker :=
    memGet_memWrite_of_lt (fill := s.cfg.fill) (m := []) (a := 0) (k := 7) rfl (by simp)
  have hf : firstMarked s = none := by
    refine firstMarked_eq_none_iff.2 fun i hi => ?_
    obtain rfl : i = 0 := by omega
    refine decide_eq_false fun e => ?_
    have := congrArg (fun b : Byte => b.getLsbD 0) (hb.symm.trans e)
    simp at this
  have ho : outside s.cfg.rawCap s.raw = false := outside_of_inOrder ⟨Nat.zero_le _, h⟩
  have ha : alignState s = takeFault .alignFail 0 s := by simp [alignState, hw, hf]
  have hr : raiser .alignFail 0 s = .next (takeFault .alignFail 0 s) :=
    (whenPhase_of (s := s) (ph := .align) rfl rfl).trans (runAlign_eq_next.2 ⟨ho, ha.symm⟩)
  exact ⟨_, execFaultEnter_eq_next.2 ⟨rfl, hr, rfl, rfl, rfl⟩, rfl, rfl⟩

/-! Witnesses: for each statement with hypotheses, a state and operands that meet all of them, clause by clause where it has several.
`witness_<Name>` is for `Obligations.<Name>`. -/

/-- A result that passes a test is a next state that passes it. -/
theorem next_of {r : Host.Outcome State Fault Refusal} {p : State → Bool} (h : field p r = some true) :
    ∃ t, r = .next t ∧ p t = true := by
  cases r with
  | next t => exact ⟨t, rfl, by simpa [field] using h⟩
  | fault f => cases h
  | refused f => cases h

theorem witness_OperationIdsDecode : 16 ≤ (0x10#8).toNat ∧ 16 ≤ (0xFF#8).toNat := by decide
theorem witness_MarkerByteMakesTheHeader : (0x80#8 = fixture.marker) ∧ (0x7F#8 ≠ fixture.marker) ∧ (0#8 ≠ fixture.marker) := by
  decide
theorem witness_DecodeInvertsEncode : WellFormed fixture (.drain 2 1) = true ∧ WellFormed fixture (.hdr (hw 1 2 3 4 5 6 7)) = true ∧
    WellFormed fixture (.frame (hw 0 0 1 1 0 0 0) [hw 0 0 0 0 0 0 0]) = true ∧ WellFormed fixture (.append [1, 2]) = true := by
  decide
theorem witness_EncodeInvertsDecode : decode fixture .op [0x0C, 5, 2, 7] = .ok (.faultEnter .chOverrun 2, [7]) ∧
    decode fixture .pseudo [0x10, 1, 0xAA, 7] = .ok (.append [0xAA], [7]) ∧
    decode fixture (.slot 1 0) [1, 2, 3, 4, 5, 6, 7, 8, 9] = .ok (.slot 1 0 ⟨1, 2, 3, 4, 5, 6, 7, 8⟩, [9]) := by decide
theorem witness_StepRunsTheWaitingRecord :
    decodeRecord ({ base with agenda := [0x0B, 2, 7] } : State).cfg [0x0B, 2, 7] = .ok (.sendFail 2, [7]) := by decide

/-- The worker moves next, in any mode and phase, with the Packetizer or a free consumer. -/
def worker (m : Mode) (ph : Phase) (pk : Bool) : State :=
  { base with mode := m, phase := ph, cfg := { fixture with packetizer := pk }, inputs := { base.inputs with sched := [.worker] } }

theorem witness_StepRunsTheEnabledOperation (m : Mode) (ph : Phase) : (worker m ph false).agenda = [] ∧
    nextChoice (worker m ph false).inputs = .worker ∧ (worker m ph false).mode = m ∧ (worker m ph false).phase = ph ∧
    (worker m ph false).cfg.packetizer = false := ⟨rfl, rfl, rfl, rfl, rfl⟩

/-- A whole good frame at the cursor, and two bytes more. -/
def atFrame : State := decoding (frame213 ++ [0x11, 0x22])
def desynced : State := decoding [2, 1, 0, 3, 0, 0, 0, 0x7F]
def payload213 : List Word8 :=
  [⟨0xA0, 0x00, 0x01, 0x02, 0x03, 0x04, 0xEE, 0xFF⟩, ⟨0xA0, 0x01, 0x01, 0x02, 0x03, 0x04, 0xEE, 0xFF⟩,
    ⟨0xB0, 0x00, 0x01, 0x02, 0x03, 0x04, 0xEE, 0xFF⟩]

theorem witness_DecodeRunsTheWordAtTheCursor : atFrame.mode = .streaming ∧ atFrame.phase = .decode ∧ 8 ≤ avail atFrame.raw ∧
    (headerAt atFrame).b7 = atFrame.cfg.marker ∧ WellFormed atFrame.cfg (.frame (headerAt atFrame) payload213) = true ∧
    (payload213.length + 1) * 8 ≤ avail atFrame.raw ∧ wordsAt atFrame (atFrame.raw.read + 8) payload213.length = payload213 := by
  decide
theorem witness_DecodeRunsTheWordAtTheCursor_nonhdr : desynced.mode = .streaming ∧ desynced.phase = .decode ∧
    8 ≤ avail desynced.raw ∧ (headerAt desynced).b7 ≠ desynced.cfg.marker := by decide

theorem witness_IdlePollFollowsAct : base.mode = .idle ∧ actRead (seeing false base) = false ∧ actRead (seeing true base) = true ∧
    (seeing true base).armed = true ∧ ({ seeing true base with armed := false } : State).cfg.restartOnLevel = false := by decide
theorem witness_IdlePollFollowsAct_level :
    ({ seeing true base with armed := false, cfg := { fixture with restartOnLevel := true } } : State).cfg.restartOnLevel = true := by
  decide
theorem witness_StartResetsTheSession : ({ base with mode := .starting } : State).mode = .starting := rfl
theorem witness_TopCheckContinuesOrStops : (seeing true (streaming .top)).mode = .streaming ∧
    (seeing true (streaming .top)).phase = .top ∧ actRead (seeing true (streaming .top)) = true ∧
    actRead (seeing false (streaming .top)) = false := by decide

theorem witness_BurstSizeIsTheStepFunction : 4096 < 4097 ∧ (2048 < 4096 ∧ 4096 ≤ 4096) ∧ (1024 < 2048 ∧ 2048 ≤ 2048) ∧ 1024 ≤ 1024 := by
  decide
theorem witness_FcSelectChoosesTheBurst : (streaming .select).mode = .streaming ∧ (streaming .select).phase = .select := by decide
theorem witness_FcRepollWaitsForTheBurst : (streaming .wait).mode = .streaming ∧ (streaming .wait).phase = .wait ∧
    BurstSize.s0 = (if (streaming .wait).cfg.fcReselect = true then burstSizeFor (monRead (streaming .wait)).occ
      else (streaming .wait).xfer) := by
  refine ⟨rfl, rfl, rfl⟩
theorem witness_OverflowFlagsHaveNoEffect :
    (withMon ⟨600, true, true, true⟩ (streaming .select)).inputs.mon = ⟨600, true, true, true⟩ :: [] ∧
    (⟨600, true, true, true⟩ : FifoStatus).occ = (⟨600, false, false, true⟩ : FifoStatus).occ ∧
    (⟨600, true, true, true⟩ : FifoStatus).thr = (⟨600, false, false, true⟩ : FifoStatus).thr := by decide
theorem witness_DiagOnlyGainsTheAlarmBit :
    (∃ t, exec .fcSelect (withMon ⟨5000, false, false, true⟩ { streaming .select with diag := 4 }) = .next t ∧
      decide (t.diag ≠ 4) = true) ∧ ∀ m, Instr.fcSelect ≠ .envDiagClear m := ⟨next_of (by decide), by simp⟩
theorem witness_GraceCountsTheBursts :
    (∃ t, exec .burst (withDev .complete (bigRaw 4120 .s0 (streaming .burst))) = .next t ∧
      decide (t.mode = .streaming) = true) ∧ ∃ t, exec .start { base with mode := .starting } = .next t ∧ true = true :=
  ⟨next_of (by decide), next_of (p := fun _ => true) (by decide)⟩
theorem witness_UnderflowGuard : ∃ t, exec .fcSelect (withMon ⟨512, false, false, false⟩ (streaming .select)) = .next t ∧
    decide (t.mode = .streaming ∧ t.phase = .burst) = true := next_of (by decide)
theorem witness_WaitEndsOnlyWithEnough : (withMon ⟨512, false, false, false⟩ (worker .streaming .wait true)).mode = .streaming ∧
    (withMon ⟨512, false, false, false⟩ (worker .streaming .wait true)).phase = .wait ∧
    (∃ t, exec .fcRepoll (withMon ⟨512, false, false, false⟩ (streaming .wait)) = .next t ∧ decide (t.phase = .burst) = true) ∧
    (∃ t, exec (.envAct false) (streaming .wait) = .next t ∧ decide (t.phase = .wait) = true) ∧
    (∃ t, step (withMon ⟨512, false, false, false⟩ (worker .streaming .wait true)) = .next t ∧ decide (t.phase = .burst) = true) ∧
    ∃ t, step { withMon ⟨511, false, false, false⟩ (streaming .wait) with agenda := [4] } = .next t ∧
      decide (t.phase = .wait) = true :=
  ⟨rfl, rfl, next_of (by decide), next_of (by decide), next_of (by decide), next_of (by decide)⟩

/-- A burst that just fits (24 + 4096 = 4120), answered, its first bytes known. -/
def fits : State :=
  { bigRaw 4120 .s0 (streaming .burst) with inputs := { base.inputs with dev := [.complete], bytes := [1, 2] } }

theorem witness_BurstAppendsTheDeliveredBytes : fits.mode = .streaming ∧ fits.phase = .burst ∧
    fits.raw.head + fits.xfer.bytes ≤ fits.cfg.rawCap ∧ devAnswer fits.inputs = .complete ∧
    Memory.wf fits.cfg.fill fits.raw.mem = true ∧ (0 < fits.xfer.bytes ∧ fits.inputs.bytes[0]? = some 1) ∧
    (23 < fits.raw.head ∧ fits.raw.head + fits.xfer.bytes ≤ 4120) := by decide
theorem witness_BurstOverrunAndStops : (bigRaw 4119 .s0 (streaming .burst)).mode = .streaming ∧
    (bigRaw 4119 .s0 (streaming .burst)).phase = .burst ∧
    (bigRaw 4119 .s0 (streaming .burst)).cfg.rawCap < (bigRaw 4119 .s0 (streaming .burst)).raw.head + BurstSize.s0.bytes := by decide
theorem witness_BurstOverrunAndStops_stops :
    (bigRaw 4120 .s0 (streaming .burst)).raw.head + BurstSize.s0.bytes ≤ (bigRaw 4120 .s0 (streaming .burst)).cfg.rawCap ∧
    devAnswer (withDev .stuck (bigRaw 4120 .s0 (streaming .burst))).inputs = .stuck ∧
    devAnswer (withDev .short (bigRaw 4120 .s0 (streaming .burst))).inputs = .short := by decide
/-- RAW has room for two bytes more. -/
def almostFull : State := { streaming .select with raw := { Buffer.empty with head := 126 } }

theorem witness_AppendFeedsTheDecoder : almostFull.mode = .streaming ∧ almostFull.phase = .select ∧
    almostFull.raw.head + [7, 8].length ≤ almostFull.cfg.rawCap ∧ Memory.wf almostFull.cfg.fill almostFull.raw.mem = true ∧
    almostFull.cfg.rawCap < almostFull.raw.head + [7, 8, 9].length ∧
    ¬((streaming .wait).mode = .streaming ∧
      ((streaming .wait).phase = .top ∨ (streaming .wait).phase = .select ∨ (streaming .wait).phase = .burst)) := by decide
theorem witness_CompactMovesTheResidue : Memory.wf 0 (buf 2 [1, 2, 3] 2 5).mem = true ∧
    (buf 2 [1, 2, 3] 2 5).read ≤ (buf 2 [1, 2, 3] 2 5).head ∧ 2 < (buf 2 [1, 2, 3] 2 5).head - (buf 2 [1, 2, 3] 2 5).read ∧
    (buf 2 [1, 2, 3] 2 5).head - (buf 2 [1, 2, 3] 2 5).read ≤ 3 ∧ (buf 0 [1] 0 1).read = 0 := by decide
theorem witness_CompactRawCompactsRaw : (streaming .compact).mode = .streaming ∧ (streaming .compact).phase = .compact ∧
    CursorsInOrder (streaming .compact).cfg.rawCap (streaming .compact).raw := ⟨rfl, rfl, by decide, by decide⟩

/-! The states below meet the invariants too. -/

theorem atFrame_ok : CursorsOk atFrame ∧ MemoriesOk atFrame ∧ SizesOk atFrame ∧ CacheOk atFrame ∧ ArenasOk atFrame :=
  ⟨⟨⟨by decide, by decide⟩, fun B h => by
      obtain rfl : B = Buffer.empty := by simpa [atFrame, decoding, streaming, base, State.resetWith, Params.nCh] using h
      exact ⟨Nat.le_refl _, Nat.zero_le _⟩⟩,
    ⟨by decide, by decide⟩, ⟨by decide, by decide, by decide⟩, fun h => absurd h (by decide), by decide, by decide⟩

theorem witness_RawIsAQueueOfBytes : MemoriesOk atFrame ∧ CursorsOk atFrame ∧
    (∃ t, exec .decode atFrame = .next t ∧ decide (t.mode = .streaming) = true) ∧
    (∃ t, exec (.envAct true) atFrame = .next t ∧ decide (t.phase = .decode) = true) ∧
    (∃ t, exec (.append [1, 2]) (streaming .top) = .next t ∧ decide (t.mode = .streaming) = true) :=
  ⟨atFrame_ok.2.1, atFrame_ok.1, next_of (by decide), next_of (by decide), next_of (by decide)⟩

/-- Four strides, the first marked one at index 2. -/
def aligning (b : Byte) : State := { streaming .align with raw := strides 0 0x7F b 0x80 }

theorem witness_AlignFindsTheFirstMarkedStride : (aligning 0x80).mode = .streaming ∧ (aligning 0x80).phase = .align ∧
    CursorsInOrder (aligning 0x80).cfg.rawCap (aligning 0x80).raw ∧ 8 * 2 + 8 ≤ avail (aligning 0x80).raw ∧
    (∀ m, (aligning 0x80).cfg.alignLimit = some m → 2 < m) ∧
    memGet 0 (aligning 0x80).raw.mem ((aligning 0x80).raw.read + 8 * 2 + 7) = (aligning 0x80).cfg.marker ∧
    ∀ i < 2, memGet 0 (aligning 0x80).raw.mem ((aligning 0x80).raw.read + 8 * i + 7) ≠ (aligning 0x80).cfg.marker :=
  ⟨rfl, rfl, ⟨by decide, by decide⟩, by decide, nofun, by decide, by decide⟩
theorem witness_AlignFindsTheFirstMarkedStride_first :
    8 * 0 + 8 ≤ avail (strides 0x80 0 0 0) ∧ memGet 0 (strides 0x80 0 0 0).mem ((strides 0x80 0 0 0).read + 8 * 0 + 7) = 0x80 := by
  decide

/-- Two strides to scan, none of them marked, the third beyond ALIGN_LIMIT. -/
def unmarked : State := { streaming .align with raw := strides 0 0x7F 0x80 0, cfg := { fixture with alignLimit := some 2 } }

theorem witness_AlignFailsWithoutAMarker : unmarked.mode = .streaming ∧ unmarked.phase = .align ∧
    CursorsInOrder unmarked.cfg.rawCap unmarked.raw ∧ 8 ≤ avail unmarked.raw ∧ unmarked.cfg.alignLimit ≠ some 0 ∧
    ∀ i, 8 * i + 8 ≤ avail unmarked.raw → (∀ m, unmarked.cfg.alignLimit = some m → i < m) →
      memGet unmarked.cfg.fill unmarked.raw.mem (unmarked.raw.read + 8 * i + 7) ≠ unmarked.cfg.marker := by
  refine ⟨rfl, rfl, ⟨by decide, by decide⟩, by decide, by decide, fun i _ h => ?_⟩
  have h2 := h 2 rfl
  have : ∀ i < 2, memGet unmarked.cfg.fill unmarked.raw.mem (unmarked.raw.read + 8 * i + 7) ≠ unmarked.cfg.marker := by decide
  exact this i h2
theorem witness_AlignPostponesWithoutAStride :
    avail ({ streaming .align with raw := { strides 0x80 0 0 0 with head := 7 } } : State).raw < 8 ∧
    ({ streaming .align with cfg := { fixture with alignLimit := some 0 } } : State).cfg.alignLimit = some 0 ∧
    CursorsInOrder 128 { strides 0x80 0 0 0 with head := 7 } := ⟨by decide, by decide, by decide, by decide⟩
theorem witness_AlignedIsEarned :
    (∃ t, exec .align (aligning 0x80) = .next t ∧ decide ((aligning 0x80).aligned = false ∧ t.aligned = true) = true) ∧
    (∃ t, exec .start { base with mode := .starting, aligned := true } = .next t ∧ decide (t.aligned = false) = true) ∧
    ∃ t, exec .decode atFrame = .next t ∧ true = true :=
  ⟨next_of (by decide), next_of (by decide), next_of (p := fun _ => true) (by decide)⟩

theorem witness_DecodeEmptyEndsTheLoop : (decoding [1, 2, 3, 4, 5, 6, 7]).mode = .streaming ∧
    (decoding [1, 2, 3, 4, 5, 6, 7]).phase = .decode ∧ (decoding [1, 2, 3, 4, 5, 6, 7]).aligned = true ∧
    CursorsInOrder 128 (decoding [1, 2, 3, 4, 5, 6, 7]).raw ∧ avail (decoding [1, 2, 3, 4, 5, 6, 7]).raw < 8 :=
  ⟨rfl, rfl, rfl, ⟨by decide, by decide⟩, by decide⟩
theorem witness_DecodeDesyncFaults : desynced.mode = .streaming ∧ desynced.phase = .decode ∧ desynced.aligned = true ∧
    CursorsInOrder desynced.cfg.rawCap desynced.raw ∧ 8 ≤ avail desynced.raw ∧
    memGet desynced.cfg.fill desynced.raw.mem (desynced.raw.read + 7) ≠ desynced.cfg.marker :=
  ⟨rfl, rfl, rfl, ⟨by decide, by decide⟩, by decide, by decide⟩

/-- A header whose counts (2 + 1) do not fill its frame (4). -/
def badLayout : State := decoding [2, 1, 0, 4, 0, 0, 0, 0x80]

theorem witness_DecodeBadLayoutFaults : badLayout.mode = .streaming ∧ badLayout.phase = .decode ∧ badLayout.aligned = true ∧
    CursorsInOrder badLayout.cfg.rawCap badLayout.raw ∧ 8 ≤ avail badLayout.raw ∧
    (headerAt badLayout).b7 = badLayout.cfg.marker ∧ (badLayout.cacheValid = true → headerAt badLayout ≠ badLayout.codeCache) ∧
    (badLayout.cfg.analyse (headerAt badLayout)).cnt.sum ≠ (badLayout.cfg.analyse (headerAt badLayout)).flen :=
  ⟨rfl, rfl, rfl, ⟨by decide, by decide⟩, by decide, by decide, by decide, by decide⟩

/-- The frame of `atFrame` without its last byte. -/
def partialFrame : State := decoding (frame213.take 31)
def cached (s : State) : State := { s with cacheValid := true, codeCache := hw 2 1 0 3 0 0 0, flen := 3, cnt := [2, 1, 0] }

theorem witness_DecodeDefersAPartialFrame : CursorsInOrder partialFrame.cfg.rawCap partialFrame.raw ∧ 8 ≤ avail partialFrame.raw ∧
    (headerAt partialFrame).b7 = partialFrame.cfg.marker ∧ partialFrame.aligned = true ∧
    (partialFrame.cacheValid = true → headerAt partialFrame ≠ partialFrame.codeCache) ∧
    (partialFrame.cfg.analyse (headerAt partialFrame)).cnt.sum = (partialFrame.cfg.analyse (headerAt partialFrame)).flen ∧
    avail partialFrame.raw < ((partialFrame.cfg.analyse (headerAt partialFrame)).flen + 1) * 8 :=
  ⟨⟨by decide, by decide⟩, by decide, by decide, by decide, by decide, by decide, by decide⟩
theorem witness_DecodeDefersAPartialFrame_cached : (cached partialFrame).cacheValid = true ∧
    headerAt (cached partialFrame) = (cached partialFrame).codeCache ∧
    avail (cached partialFrame).raw < ((cached partialFrame).flen + 1) * 8 := by decide

/-- Channel 1 has one byte too few left (43 + 6 > 48), channel 0 just enough (36 + 12 = 48). -/
def fullChannel : State := { atFrame with ch := [buf 0 [] 0 36, buf 0 [] 0 43, Buffer.empty] }

theorem witness_DecodeOverrunFaults : fullChannel.mode = .streaming ∧ fullChannel.phase = .decode ∧ fullChannel.aligned = true ∧
    CursorsInOrder fullChannel.cfg.rawCap fullChannel.raw ∧ 8 ≤ avail fullChannel.raw ∧
    (headerAt fullChannel).b7 = fullChannel.cfg.marker ∧ (⟨3, [2, 1, 0]⟩ : Layout) = layoutFor fullChannel (headerAt fullChannel) ∧
    [2, 1, 0].sum = 3 ∧ (3 + 1) * 8 ≤ avail fullChannel.raw ∧ 1 < fullChannel.cfg.nCh ∧
    fullChannel.cfg.chCap < (chan fullChannel 1).head + 6 * [2, 1, 0].getD 1 0 ∧
    ∀ d < 1, (chan fullChannel d).head + 6 * [2, 1, 0].getD d 0 ≤ fullChannel.cfg.chCap :=
  ⟨rfl, rfl, rfl, ⟨by decide, by decide⟩, by decide, by decide, by decide, by decide, by decide, by decide, by decide, by decide⟩

theorem witness_DecodeCopiesTheFrame : atFrame.mode = .streaming ∧ atFrame.phase = .decode ∧ atFrame.aligned = true ∧
    MemoriesOk atFrame ∧ SizesOk atFrame ∧ CursorsInOrder atFrame.cfg.rawCap atFrame.raw ∧ 8 ≤ avail atFrame.raw ∧
    (headerAt atFrame).b7 = atFrame.cfg.marker ∧ (⟨3, [2, 1, 0]⟩ : Layout) = layoutFor atFrame (headerAt atFrame) ∧
    [2, 1, 0].sum = 3 ∧ (3 + 1) * 8 ≤ avail atFrame.raw ∧
    (∀ c < atFrame.cfg.nCh, (chan atFrame c).head + 6 * [2, 1, 0].getD c 0 ≤ atFrame.cfg.chCap) ∧
    3 = (atFrame.cfg.analyse (headerAt atFrame)).flen :=
  ⟨rfl, rfl, rfl, atFrame_ok.2.1, atFrame_ok.2.2.1, atFrame_ok.1.1, by decide, by decide, by decide, by decide, by decide, by decide,
    by decide⟩
/-- The hypotheses of `witness_DecodeCopiesTheFrame` and the last sample of channel 0. -/
theorem witness_SlotCopiesSixBytes : 0 < atFrame.cfg.nCh ∧ 1 < [2, 1, 0].getD 0 0 := by decide
theorem witness_CopyConsumesTheWholeFrame : CacheOk atFrame ∧ (2 < atFrame.cfg.nCh ∧ 2 < atFrame.ch.length) ∧ ∃ t, exec .decode atFrame = .next t ∧
    decide (t.mode = .streaming ∧ t.phase = .decode) = true := ⟨atFrame_ok.2.2.2.1, by decide, next_of (by decide)⟩
theorem witness_DecodeMakesProgress : (∃ t, exec .decode atFrame = .next t ∧ decide (t.phase = .decode) = true) ∧
    ∃ t, exec .decode partialFrame = .next t ∧ decide (t.phase = .compact) = true := ⟨next_of (by decide), next_of (by decide)⟩
theorem witness_CacheIsTransparent : CacheOk (cached atFrame) ∧ (cached atFrame).cacheValid = true ∧
    (∃ t, exec .decode (cached atFrame) = .next t ∧ decide (t.mode = .streaming) = true) ∧ 8 ≤ avail (cached atFrame).raw :=
  ⟨fun _ => ⟨by decide, by decide⟩, rfl, next_of (by decide), by decide⟩

/-- Two frames, the second without payload, and three bytes of a third. -/
def twoFrames : State := decoding (frame213 ++ [0, 0, 0, 0, 0, 0, 0, 0x80, 1, 2, 3])
def frames : List (Word8 × List Word8) := [(hw 2 1 0 3 0 0 0, payload213), (hw 0 0 0 0 0 0 0, [])]

theorem witness_FramesDecodeInOrder : twoFrames.mode = .streaming ∧ twoFrames.phase = .decode ∧ twoFrames.aligned = true ∧
    CursorsOk twoFrames ∧ MemoriesOk twoFrames ∧ SizesOk twoFrames ∧ CacheOk twoFrames ∧
    pending twoFrames.cfg.fill twoFrames.raw = frames.flatMap frameBytes ++ [1, 2, 3] ∧
    (∀ f ∈ frames, GoodFrame twoFrames.cfg f) ∧
    ∀ c < twoFrames.cfg.nCh,
      (chan twoFrames c).head + 6 * (frames.map fun f => cntOf (twoFrames.cfg.analyse f.1) c).sum ≤ twoFrames.cfg.chCap := by
  refine ⟨rfl, rfl, rfl, ⟨⟨by decide, by decide⟩, atFrame_ok.1.2⟩, ⟨by decide, by decide⟩, ⟨by decide, by decide, by decide⟩,
    fun h => absurd h (by decide), by decide, fun f hf => ?_, by decide⟩
  simp only [frames, List.mem_cons, List.not_mem_nil, or_false] at hf
  rcases hf with rfl | rfl <;> exact ⟨by decide, by decide, by decide⟩

/-- PHASE SEND, 12 bytes in channel 0 (one payload), 11 in channel 1. -/
def sending (n : Nat) : State :=
  { worker .streaming .send true with ch := [buf 0 [] 0 n, buf 0 [] 0 11, Buffer.empty] }

theorem sending_ok (n : Nat) (h : n ≤ 48) : CursorsOk (sending n) := by
  refine ⟨⟨Nat.le_refl 0, Nat.zero_le 128⟩, fun B hB => ?_⟩
  simp only [sending, List.mem_cons, List.not_mem_nil, or_false] at hB
  rcases hB with rfl | rfl | rfl
  · exact ⟨Nat.zero_le _, h⟩
  · exact ⟨Nat.zero_le _, (by decide : 11 ≤ 48)⟩
  · exact ⟨Nat.le_refl 0, Nat.zero_le 48⟩

theorem witness_DrainHandsOutTheOldestBytes : (sending 12).mode = .streaming ∧ (sending 12).phase = .send ∧ 0 < (sending 12).cfg.nCh ∧
    CursorsInOrder (sending 12).cfg.chCap (chan (sending 12) 0) ∧ (0 < 12 ∧ 12 ≤ avail (chan (sending 12) 0)) ∧
    avail (chan (sending 12) 0) < 13 := ⟨rfl, rfl, by decide, ⟨by decide, by decide⟩, by decide, by decide⟩
theorem witness_SendDoneCompactsEveryChannel : CursorsOk (sending 12) ∧ (sending 12).mode = .streaming ∧ (sending 12).phase = .send ∧
    ¬((streaming .top).mode = .streaming ∧ (streaming .top).phase = .send) := ⟨sending_ok 12 (by decide), rfl, rfl, by decide⟩
theorem witness_SendFailFaults : (sending 12).mode = .streaming ∧ (sending 12).phase = .send ∧ 2 < (sending 12).cfg.nCh := by decide
theorem witness_PacketizerServesTheLowestChannel : (sending 12).mode = .streaming ∧ (sending 12).phase = .send ∧
    (sending 12).agenda = [] ∧ (sending 12).cfg.packetizer = true ∧ nextChoice (sending 12).inputs = .worker ∧
    (∀ c < (sending 11).cfg.nCh, avail (chan (sending 11) c) < 6 * (sending 11).cfg.pktSamples) ∧
    6 * (sending 12).cfg.pktSamples ≤ avail (chan (sending 12) 0) := by decide
theorem witness_PacketizerServesTheLowestChannel_tx : txOk { (sending 12).inputs with tx := [true] } = true ∧
    txOk { (sending 12).inputs with tx := [false] } = false := by decide
theorem witness_DatagramLayout : 65535 < 65536 ∧ (List.replicate (6 * 65535) (0 : Byte)).length = 6 * 65535 :=
  ⟨by decide, List.length_replicate⟩
/-- The hypotheses of each cause: those of `witness_BurstOverrunAndStops`, `witness_SendFailFaults`, `witness_AlignFailsWithoutAMarker`,
`witness_DecodeDesyncFaults`, `witness_DecodeBadLayoutFaults` and `witness_DecodeOverrunFaults`; and FAULT_ENTER runs in those states. -/
theorem witness_FaultEnterIsTheFaultEntry :
    (∃ t, exec (.faultEnter .rawOverrun 0) (withDev .stuck (bigRaw 4119 .s0 (streaming .burst))) = .next t ∧
      decide (t.mode = .faulting) = true) ∧
    (∃ t, exec (.faultEnter .sendFail 2) (sending 12) = .next t ∧ decide (t.faultInfo = 2) = true) ∧
    (∃ t, exec (.faultEnter .alignFail 0) unmarked = .next t ∧ decide (t.mode = .faulting) = true) ∧
    (∃ t, exec (.faultEnter .desync 0) desynced = .next t ∧ decide (t.mode = .faulting) = true) ∧
    (∃ t, exec (.faultEnter .badLayout 0) badLayout = .next t ∧ decide (t.mode = .faulting) = true) ∧
    ∃ t, exec (.faultEnter .chOverrun 1) fullChannel = .next t ∧ decide (t.faultInfo = 1) = true :=
  ⟨next_of (by decide), next_of (by decide), next_of (by decide), next_of (by decide), next_of (by decide), next_of (by decide)⟩
theorem witness_FaultExitReturnsToIdle : ({ base with mode := .faulting } : State).mode = .faulting := rfl
theorem witness_FaultsCannotNest : (∃ t, exec .faultExit { base with mode := .faulting } = .next t ∧ decide (t.mode = .idle) = true) ∧
    ∃ t, exec (.faultEnter .desync 0) desynced = .next t ∧ decide (t.mode = .faulting) = true :=
  ⟨next_of (by decide), next_of (by decide)⟩
theorem witness_ActIsReadAtTwoPlaces : Instr.decode ≠ .idlePoll ∧ Instr.decode ≠ .topCheck ∧ (∀ x, Instr.decode ≠ .envAct x) ∧
    ∃ t, exec .decode atFrame = .next t ∧ decide (t.phase = .decode) = true := ⟨by decide, by decide, by simp, next_of (by decide)⟩

/-- DECODE is the waiting record at a whole good frame. -/
def ready : State := { atFrame with agenda := [7] }

theorem ready_steps : ∃ t, step ready = .next t ∧ decide (t.raw.read = 32) = true := next_of (by decide)
theorem witness_ModeMovesAlongTheEdges : (∃ t, step ready = .next t ∧ decide (t.raw.read = 32) = true) ∧
    (∃ t, exec .idlePoll (seeing true base) = .next t ∧ decide (t.mode = .starting) = true) ∧
    (∃ t, exec .start { base with mode := .starting } = .next t ∧ decide (t.mode = .streaming) = true) ∧
    (∃ t, exec .topCheck (seeing false (streaming .top)) = .next t ∧ decide (t.mode = .idle) = true) ∧
    (∃ t, exec .decode desynced = .next t ∧ decide (t.mode = .faulting) = true) ∧
    ∃ t, exec .faultExit { base with mode := .faulting } = .next t ∧ decide (t.mode = .idle) = true :=
  ⟨ready_steps, next_of (by decide), next_of (by decide), next_of (by decide), next_of (by decide), next_of (by decide)⟩
theorem witness_ParametersNeverChange : ∃ t, step ready = .next t ∧ decide (t.raw.read = 32) = true := ready_steps
theorem witness_StepKeepsCursors : CursorsOk ready ∧ ArenasOk ready ∧ ∃ t, step ready = .next t ∧ decide (t.raw.read = 32) = true :=
  ⟨atFrame_ok.1, atFrame_ok.2.2.2.2, ready_steps⟩
theorem witness_StepKeepsMemories : MemoriesOk ready ∧ SizesOk ready ∧ ∃ t, step ready = .next t ∧ decide (t.raw.read = 32) = true :=
  ⟨atFrame_ok.2.1, atFrame_ok.2.2.1, ready_steps⟩
theorem witness_StepKeepsTheCacheTrue : CacheOk ready ∧ ∃ t, step ready = .next t ∧ decide (t.raw.read = 32) = true :=
  ⟨atFrame_ok.2.2.2.1, ready_steps⟩
theorem witness_StepKeepsTheSequence : SequencingOk ready ∧ ∃ t, step ready = .next t ∧ decide (t.raw.read = 32) = true := by
  refine ⟨?_, ready_steps⟩
  simp [SequencingOk, AlignmentOk, CompactedOk, LifecycleOk, WaitOk, GraceOk, DiagOk, ready, atFrame, decoding, streaming, base,
    State.resetWith]
theorem witness_StepStaysInsideTheArenas : CursorsOk ready ∧ CacheOk ready := ⟨atFrame_ok.1, atFrame_ok.2.2.2.1⟩

/-- RAW of exactly `8 * MAX_FLEN + 32768` bytes and a residue of `8 * MAX_FLEN`. -/
def sized : State :=
  { withDev .complete (bigRaw 32800 .s3 (streaming .burst)) with raw := { Buffer.empty with head := 32 } }

theorem witness_SizingPreventsRawOverrun : 8 * sized.cfg.maxFlen + 32768 ≤ sized.cfg.rawCap ∧ sized.raw.head ≤ 8 * sized.cfg.maxFlen ∧
    ∃ t, exec .burst sized = .next t ∧ decide (t.mode = .streaming) = true := ⟨by decide, by decide, next_of (by decide)⟩
/-- A whole number of words of an incomplete frame. -/
theorem witness_SizingPreventsRawOverrun_defer :
    CacheOk { decoding (frame213.take 24) with cfg := { fixture with rawCap := 32800 } } ∧ 8 ∣ avail (decoding (frame213.take 24)).raw ∧
    ∃ t, exec .decode { decoding (frame213.take 24) with cfg := { fixture with rawCap := 32800 } } = .next t ∧
      decide (t.mode = .streaming ∧ t.phase = .compact) = true :=
  ⟨fun h => absurd h (by decide), by decide, next_of (by decide)⟩

end Sys2Proof.Tests
end

section
/-! SUPPORT. R45 in every reachable state (O53): one buffer's cursors and bytes inside its arena, kept by each buffer operation;
then by each effect an instruction can have; then by a step. -/

namespace Sys2Proof.Machine

/-! One buffer. -/

/-- R45 and R63 for one buffer: its cursors are in order within `cap`, and every byte it lists is below `cap`. -/
def BufferOk (cap : Nat) (B : Buffer) : Prop := CursorsInOrder cap B ∧ ∀ c ∈ B.mem, c.1 < cap

section
variable {cap : Nat} {fill : Byte} {B : Buffer}

theorem BufferOk.empty (cap : Nat) : BufferOk cap Buffer.empty := by
  simp [BufferOk, CursorsInOrder, Buffer.empty]

theorem BufferOk.flush (h : BufferOk cap B) : BufferOk cap (flush B) :=
  ⟨by simp [CursorsInOrder], h.2⟩

theorem BufferOk.compact (h : BufferOk cap B) : BufferOk cap (compact fill B) :=
  ⟨compact_cur h.1, compact_below h.1 h.2⟩

/-- The read cursor may pass any number of unread bytes. -/
theorem BufferOk.advance {n : Nat} (h : BufferOk cap B) (hn : n ≤ avail B) :
    BufferOk cap { B with read := B.read + n } := by
  obtain ⟨⟨hread, hhead⟩, hmem⟩ := h
  refine ⟨⟨?_, hhead⟩, hmem⟩
  simp only [avail] at hn ⊢
  omega

/-- A write that ends within the arena. -/
theorem BufferOk.write {a : Nat} {bs : List Byte} (h : BufferOk cap B) (ha : a + bs.length ≤ cap) :
    BufferOk cap { B with mem := memWrite fill B.mem a bs } :=
  ⟨h.1, memWrite_below h.2 ha⟩

/-- An append that fits: new data in RAW (R190), copied samples in a channel (R174). -/
theorem BufferOk.append {bs : List Byte} (h : BufferOk cap B) (hfit : B.head + bs.length ≤ cap) :
    BufferOk cap (appendBytes fill B bs) :=
  ⟨⟨Nat.le_add_right_of_le h.1.1, hfit⟩, memWrite_below h.2 hfit⟩

end

/-! All buffers. -/

/-- Every buffer of the block is in order inside its arena: the invariant that the induction carries. -/
def BuffersOk (s : State) : Prop := BufferOk s.cfg.rawCap s.raw ∧ ∀ B ∈ s.ch, BufferOk s.cfg.chCap B

theorem buffersOk_iff {s : State} : BuffersOk s ↔ CursorsOk s ∧ ArenasOk s := by
  simp only [BuffersOk, BufferOk, CursorsOk, ArenasOk, forall_and]
  tauto

theorem buffersOk_resetWith (p : Params) : BuffersOk (State.resetWith p) :=
  ⟨.empty _, fun _ hB => List.eq_of_mem_replicate hB ▸ .empty _⟩

section
variable {s t : State}

/-- The invariant speaks of RAW, the channels and the capacities only. -/
theorem BuffersOk.of_eq (h : BuffersOk s) (hcfg : t.cfg = s.cfg) (hraw : t.raw = s.raw) (hch : t.ch = s.ch) :
    BuffersOk t := by
  simpa only [BuffersOk, hcfg, hraw, hch] using h

theorem Untouched.buffersOk (hu : Untouched s t) (h : BuffersOk s) : BuffersOk t := h.of_eq hu.cfg hu.raw hu.ch

theorem BuffersOk.setChan {c : Nat} {B : Buffer} (h : BuffersOk s) (hB : BufferOk s.cfg.chCap B) :
    BuffersOk (setChan s c B) := by
  refine ⟨h.1, fun D hD => ?_⟩
  rcases List.mem_or_eq_of_mem_set hD with hD | rfl
  · exact h.2 D hD
  · exact hB

/-- A number that is no channel reads as the empty buffer, so no bound on it is needed. -/
theorem BuffersOk.chan (h : BuffersOk s) (c : Nat) : BufferOk s.cfg.chCap (chan s c) := by
  rcases lt_or_ge c s.ch.length with hc | hc
  · exact h.2 _ (chan_mem hc)
  · rw [chan_of_le hc]; exact .empty _

/-- START and every fault empty all buffers where they stand (R122, R230). -/
theorem BuffersOk.of_flush (h : BuffersOk s) (hcfg : t.cfg = s.cfg) (hraw : t.raw = flush s.raw)
    (hch : t.ch = s.ch.map flush) : BuffersOk t := by
  rw [BuffersOk, hcfg, hraw, hch]
  exact ⟨h.1.flush, List.forall_mem_map.2 fun B hB => (h.2 B hB).flush⟩

theorem BuffersOk.takeFault (h : BuffersOk s) (cause : Cause) (info : Nat) : BuffersOk (takeFault cause info s) :=
  h.of_flush rfl rfl rfl

/-! Session control. -/

theorem BuffersOk.idlePollState (h : BuffersOk s) : BuffersOk (idlePollState s) := by
  unfold Machine.idlePollState
  split
  · exact h.of_eq rfl rfl rfl
  · split <;> exact h.of_eq rfl rfl rfl

theorem BuffersOk.topCheckState (h : BuffersOk s) : BuffersOk (topCheckState s) := by
  unfold Machine.topCheckState
  split <;> exact h.of_eq rfl rfl rfl

/-! New data (R190, R191): what does not overrun RAW fits. -/

theorem rawOverruns_eq_false_iff {n : Nat} : rawOverruns s n = false ↔ s.raw.head + n ≤ s.cfg.rawCap := by
  simp [rawOverruns]

theorem BuffersOk.burstState (h : BuffersOk s) (hr : rawOverruns s s.xfer.bytes = false) : BuffersOk (burstState s) :=
  ⟨h.1.append (by rw [length_devRead]; exact rawOverruns_eq_false_iff.1 hr), h.2⟩

theorem BuffersOk.appendState (h : BuffersOk s) (data : List Byte) : BuffersOk (appendState data s) := by
  unfold Machine.appendState
  split
  · exact h.takeFault _ _
  · rename_i hr
    exact ⟨h.1.append (rawOverruns_eq_false_iff.1 (Bool.not_eq_true _ ▸ hr)), h.2⟩

/-! ALIGN, DECODE and the slots it copies. -/

theorem BuffersOk.alignState (h : BuffersOk s) : BuffersOk (alignState s) := by
  rcases alignState_cases s with e | ⟨k, hk, e⟩ | e
  · exact e ▸ h.of_eq rfl rfl rfl
  · have hbound := firstMarked_bound hk
    rw [e]
    exact ⟨h.1.advance (by omega), h.2⟩
  · exact e ▸ h.takeFault _ _

/-- COPY: no channel overruns, so each one's samples fit it (R173, R225), and the frame was among RAW's unread bytes. -/
theorem BuffersOk.copyState {hd : Word8} {l : Layout} (h : BuffersOk s) (hl : frameSize l ≤ avail s.raw)
    (ho : firstOverrun s l = none) : BuffersOk (copyState hd l s) := by
  rw [BuffersOk, copyState_cfg, copyState_raw, copyState_ch]
  refine ⟨h.1.advance hl, fun B hB => ?_⟩
  obtain ⟨c, hc, rfl⟩ := List.mem_mapIdx.1 hB
  have hOk := h.2 _ (List.getElem_mem hc)
  unfold copyChannel
  split
  · rename_i hn
    have hfit := firstOverrun_eq_none_iff.1 ho c hn
    rw [chan_eq hc] at hfit
    have happ := hOk.append (fill := s.cfg.fill) (bs := channelBytes s l c) (by rwa [length_channelBytes])
    rwa [appendBytes, length_channelBytes] at happ
  · exact hOk

theorem BuffersOk.decodeState (h : BuffersOk s) : BuffersOk (decodeState s) := by
  rcases decodeState_cases s with e | ⟨_, _, calls, e⟩ | ⟨hd, l, _, _, e⟩ | ⟨_, _, _, hl, ho, e⟩
  · exact e ▸ h.of_eq rfl rfl rfl
  · exact e ▸ h.of_flush rfl rfl rfl
  · exact e ▸ h.of_eq (cacheLayout_cfg hd l s) (cacheLayout_raw hd l s) (cacheLayout_ch hd l s)
  · exact e ▸ h.copyState hl ho

/-- A slot's six bytes lie within the room that COPY found for its channel. -/
theorem slot_fits {hd : Word8} {l : Layout} {c k : Nat} (hv : verdict s = .copy hd l) (hc : c < s.cfg.nCh)
    (hk : k < cntOf l c) : (chan s c).head + 6 * k + 6 ≤ s.cfg.chCap := by
  obtain ⟨_, _, ho⟩ := verdict_copy_iff.1 hv
  have hroom := firstOverrun_eq_none_iff.1 ho c hc
  omega

/-! Every instruction and every step. -/

theorem Effect.keeps_buffersOk {i : Instr} (he : Effect i s t) (h : BuffersOk s) : BuffersOk t := by
  cases he with
  | idlePoll => exact h.idlePollState
  | start => exact h.of_flush rfl rfl rfl
  | topCheck => exact h.topCheckState
  | fcSelect => exact h.of_eq rfl rfl rfl
  | fcRepoll => exact h.of_eq rfl rfl rfl
  | burst _ _ hr => exact h.burstState hr
  | burstOverrun => exact h.takeFault _ _
  | append => exact h.appendState _
  | align => exact h.alignState
  | decode => exact h.decodeState
  | slot _ _ hv hc hk => exact h.setChan ((h.chan _).write (slot_fits hv hc hk))
  | compactRaw => exact ⟨h.1.compact, h.2⟩
  | drain _ _ _ hn => exact (h.setChan ((h.chan _).advance hn)).of_eq rfl rfl rfl
  | sendDone => exact ⟨h.1, List.forall_mem_map.2 fun B hB => (h.2 B hB).compact⟩
  | sendFail => exact h.takeFault _ _
  | faultEnter => exact h.of_flush rfl rfl rfl
  | faultExit => exact h.of_eq rfl rfl rfl
  | envAct => exact h.of_eq rfl rfl rfl
  | envDiagClear => exact h.of_eq rfl rfl rfl

theorem step_keeps_buffersOk (h : BuffersOk s) (hst : step s = .next t) : BuffersOk t := by
  rcases step_effect hst with ⟨i, s1, hu, he⟩ | ⟨m, rfl⟩
  · exact he.keeps_buffersOk (hu.buffersOk h)
  · exact h.of_eq rfl rfl rfl

end

/-- Settles O53: R45 and the arenas' bounds are one invariant per buffer, which power-on has and every effect keeps. -/
theorem stepKeepsCursors : Obligations.StepKeepsCursors := by
  unfold Obligations.StepKeepsCursors
  exact ⟨fun p => buffersOk_iff.1 (buffersOk_resetWith p),
    fun s t hC hA hst => buffersOk_iff.1 (step_keeps_buffersOk (buffersOk_iff.2 ⟨hC, hA⟩) hst)⟩

end Sys2Proof.Machine
end

section
/-! SUPPORT. The flow controller's two functions (O11, O12): a burst size with the range of occupancies it answers to (R146), and
enough as a bound on the occupancy, in 8-byte words (R147). -/

namespace Sys2Proof.Machine

/-! SizeOf (R146). -/

theorem bytes_burstSizeFor_cases (occ : Nat) :
    (4096 < occ ∧ (burstSizeFor occ).bytes = 32768) ∨ (2048 < occ ∧ occ ≤ 4096 ∧ (burstSizeFor occ).bytes = 16384) ∨
    (1024 < occ ∧ occ ≤ 2048 ∧ (burstSizeFor occ).bytes = 8192) ∨ (occ ≤ 1024 ∧ (burstSizeFor occ).bytes = 4096) := by
  unfold burstSizeFor
  split_ifs with h3 h2 h1
  · exact .inl ⟨h3, rfl⟩
  · exact .inr (.inl ⟨h2, Nat.le_of_not_lt h3, rfl⟩)
  · exact .inr (.inr (.inl ⟨h1, Nat.le_of_not_lt h2, rfl⟩))
  · exact .inr (.inr (.inr ⟨Nat.le_of_not_lt h1, rfl⟩))

theorem bytes_burstSizeFor_mono {a b : Nat} (hab : a ≤ b) : (burstSizeFor a).bytes ≤ (burstSizeFor b).bytes := by
  have ha := bytes_burstSizeFor_cases a
  have hb := bytes_burstSizeFor_cases b
  omega

/-! Enough (R147). -/

theorem enough_iff {occ : Nat} {x : BurstSize} : enough occ x = true ↔ x.bytes / 8 ≤ occ := by
  simp [enough]

theorem BurstSize.words_cases (x : BurstSize) :
    x.bytes / 8 = 512 ∨ x.bytes / 8 = 1024 ∨ x.bytes / 8 = 2048 ∨ x.bytes / 8 = 4096 := by
  cases x <;> decide

theorem BurstSize.eight_dvd_bytes (x : BurstSize) : 8 ∣ x.bytes := by
  cases x <;> decide

/-- Settles O11: each size comes with its range of occupancies, and the ranges are in the order of the sizes. -/
theorem burstSizeIsTheStepFunction : Obligations.BurstSizeIsTheStepFunction := by
  unfold Obligations.BurstSizeIsTheStepFunction
  refine ⟨fun occ => ?_, fun _ _ => bytes_burstSizeFor_mono⟩
  have h := bytes_burstSizeFor_cases occ
  omega

/-- Settles O12: the test is `≤` in words, and each of the four sizes is a multiple of 8 bytes. -/
theorem enoughIsOneBurst : Obligations.EnoughIsOneBurst := by
  unfold Obligations.EnoughIsOneBurst
  exact fun occ x => ⟨enough_iff, Nat.mul_div_cancel' x.eight_dvd_bytes, x.words_cases⟩

end Sys2Proof.Machine
end

section
/-! SUPPORT. Outcome EMPTY of DECODE (O30, R171): with fewer than 8 unread bytes no payload is accessed and only PHASE changes. -/

namespace Sys2Proof.Machine

theorem payloadOutside_of_verdict_empty {s : State} (hv : verdict s = .empty) : payloadOutside s = false := by
  rw [payloadOutside, hv]

theorem decodeState_of_verdict_empty {s : State} (hv : verdict s = .empty) :
    decodeState s = { s with phase := .compact } := by
  rw [decodeState, hv]

/-- Settles O30: fewer than 8 unread bytes are the verdict EMPTY, for which DECODE has no access to check and one field to write. -/
theorem decodeEmptyEndsTheLoop : Obligations.DecodeEmptyEndsTheLoop := by
  unfold Obligations.DecodeEmptyEndsTheLoop
  intro s hmode hphase haligned hcursors havail
  have hempty : verdict s = .empty := verdict_empty_iff.2 havail
  rw [execDecode_of hmode hphase haligned hcursors (payloadOutside_of_verdict_empty hempty),
    decodeState_of_verdict_empty hempty]

end Sys2Proof.Machine
end

section
/-! SUPPORT. The shared compaction (O23, R195): its laws stand with the buffers'; here its head without the case split. -/

namespace Sys2Proof.Machine

/-- The read cursor is 0, so the head counts the unread bytes, and compaction keeps their number. -/
theorem compact_head_eq_avail (fill : Byte) (B : Buffer) : (compact fill B).head = avail B :=
  calc (compact fill B).head
    _ = avail (compact fill B) := by rw [avail, compact_read, Nat.sub_zero]
    _ = avail B := avail_compact B

/-- Settles O23: the laws of the compaction, for the residue and for the bytes above it. The order of the cursors is not needed:
`avail` is 0 where the read cursor is past the head. -/
theorem compactMovesTheResidue : Obligations.CompactMovesTheResidue := by
  unfold Obligations.CompactMovesTheResidue
  intro fill B hwf _
  exact ⟨compact_read B, compact_head_eq_avail fill B, fun _ hj => memGet_compact_of_lt hwf hj,
    fun _ ha => memGet_compact_of_le hwf ha, compact_of_read_zero⟩

end Sys2Proof.Machine
end

section
/-! SUPPORT. The datagram's layout (O45, R209): the big-endian bytes as quotients by powers of 256, then each field found at its
offset among the parts that are put together. -/

namespace Sys2Proof.Machine

/-! Big-endian bytes. -/

theorem extractByte_eq_ofNat {w : Nat} (v : BitVec w) (k : Nat) :
    v.extractLsb' (8 * k) 8 = BitVec.ofNat 8 (v.toNat / 256 ^ k) := by
  rw [BitVec.extractLsb', Nat.shiftRight_eq_div_pow, Nat.pow_mul]

@[simp] theorem length_be32 (v : BitVec 32) : (be32 v).length = 4 := rfl

@[simp] theorem length_be16 (v : BitVec 16) : (be16 v).length = 2 := rfl

theorem getElem?_be32 (v : BitVec 32) {j : Nat} (hj : j < 4) :
    (be32 v)[j]? = some (BitVec.ofNat 8 (v.toNat / 256 ^ (3 - j))) := by
  rw [← extractByte_eq_ofNat]
  match j, hj with
  | 0, _ | 1, _ | 2, _ | 3, _ => rfl

theorem getElem?_be16 (v : BitVec 16) {j : Nat} (hj : j < 2) :
    (be16 v)[j]? = some (BitVec.ofNat 8 (v.toNat / 256 ^ (1 - j))) := by
  rw [← extractByte_eq_ofNat]
  match j, hj with
  | 0, _ | 1, _ => rfl

/-! The datagram's parts. -/

/-- What stands between two parts of a list is read at its own offset. -/
theorem getElem?_append_mid {before part after : List Byte} {n j : Nat} (hn : before.length = n) (hj : j < part.length) :
    (before ++ part ++ after)[n + j]? = part[j]? := by
  subst hn
  rw [List.append_assoc, List.getElem?_append_right (Nat.le_add_right _ _), Nat.add_sub_cancel_left,
    List.getElem?_append_left hj]

section
variable (p : Params) (seq : BitVec 32) (count : Nat) (payload : List Byte) {j : Nat}

theorem length_datagram : (datagram p seq count payload).length = 16 + payload.length := by
  simp only [datagram, List.length_append, length_be32, length_be16, List.length_replicate]

theorem getElem?_datagram_seq (hj : j < 4) : (datagram p seq count payload)[j]? = (be32 seq)[j]? := by
  simp only [datagram, List.append_assoc]
  exact List.getElem?_append_left hj

theorem getElem?_datagram_zeros (hj : j < 8) : (datagram p seq count payload)[4 + j]? = some 0 := by
  rw [datagram, List.append_assoc, List.append_assoc, getElem?_append_mid (length_be32 seq) (by simpa using hj),
    List.getElem?_replicate_of_lt hj]

theorem getElem?_datagram_type (hj : j < 2) : (datagram p seq count payload)[12 + j]? = (be16 p.pktType)[j]? := by
  rw [datagram, List.append_assoc]
  exact getElem?_append_mid (by simp) hj

theorem getElem?_datagram_count (hj : j < 2) :
    (datagram p seq count payload)[14 + j]? = (be16 (BitVec.ofNat 16 count))[j]? :=
  getElem?_append_mid (by simp) hj

theorem drop_datagram : (datagram p seq count payload).drop 16 = payload :=
  List.drop_left' (by simp)

end

/-- Settles O45: each field is read at its offset, and its bytes are the quotients of its value, which for a count below 65536
is the count itself. -/
theorem datagramLayout : Obligations.DatagramLayout := by
  unfold Obligations.DatagramLayout
  intro p seq count payload hcount hlen
  have hval : (BitVec.ofNat 16 count).toNat = count := by
    rw [BitVec.toNat_ofNat, Nat.mod_eq_of_lt hcount]
  refine ⟨by rw [length_datagram, hlen], fun j hj => ?_, fun j hj => getElem?_datagram_zeros p seq count payload hj,
    fun j hj => ?_, fun j hj => ?_, drop_datagram p seq count payload⟩
  · rw [getElem?_datagram_seq p seq count payload hj, getElem?_be32 seq hj]
  · rw [getElem?_datagram_type p seq count payload hj, getElem?_be16 p.pktType hj]
  · rw [getElem?_datagram_count p seq count payload hj, getElem?_be16 _ hj, hval]

end Sys2Proof.Machine
end

section
/-! SUPPORT. Faults cannot nest (O49, R233): the five operations that run outside Streaming, none of which enters Faulting or
records a fault; and FAULT_ENTER as a move out of Streaming. -/

namespace Sys2Proof.Machine

section
variable {i : Instr} {s t : State}

/-! IDLE_POLL (R121), the only one of the five that branches. -/

@[simp] theorem idlePollState_faultCause (s : State) : (idlePollState s).faultCause = s.faultCause := by
  unfold idlePollState
  split_ifs <;> rfl

@[simp] theorem idlePollState_faultInfo (s : State) : (idlePollState s).faultInfo = s.faultInfo := by
  unfold idlePollState
  split_ifs <;> rfl

theorem idlePollState_mode_eq_or (s : State) :
    (idlePollState s).mode = s.mode ∨ (idlePollState s).mode = .starting := by
  unfold idlePollState
  split_ifs
  · exact .inl rfl
  · exact .inr rfl
  · exact .inl rfl

/-! Every instruction. -/

/-- What can run outside Streaming (R104): the session's operations, each in its own mode, and the external writes. -/
theorem Effect.cases_of_not_streaming (he : Effect i s t) (hm : s.mode ≠ .streaming) :
    t = idlePollState s ∨ (i = .start ∧ t = startState s) ∨ t = leaveFault s ∨
    (∃ b, t = { s with act := b, actPrev := s.act }) ∨ ∃ m, t = { s with diag := clearBits s.diag m } := by
  cases he with
  | idlePoll => exact .inl rfl
  | start => exact .inr (.inl ⟨rfl, rfl⟩)
  | faultExit => exact .inr (.inr (.inl rfl))
  | envAct => exact .inr (.inr (.inr (.inl ⟨_, rfl⟩)))
  | envDiagClear => exact .inr (.inr (.inr (.inr ⟨_, rfl⟩)))
  | _ => contradiction

theorem Effect.not_enters_faulting (he : Effect i s t) (hm : s.mode ≠ .streaming) (ht : t.mode = .faulting) :
    s.mode = .faulting := by
  rcases he.cases_of_not_streaming hm with rfl | ⟨_, rfl⟩ | rfl | ⟨b, rfl⟩ | ⟨m, rfl⟩
  · rcases idlePollState_mode_eq_or s with e | e
    · exact e.symm.trans ht
    · exact absurd (e.symm.trans ht) (by decide)
  · exact absurd ht (by simp)
  · exact absurd ht (by simp)
  · exact ht
  · exact ht

theorem Effect.keeps_fault_record (he : Effect i s t) (hm : s.mode ≠ .streaming) :
    (t.faultCause = s.faultCause ∧ t.faultInfo = s.faultInfo) ∨ (i = .start ∧ t.faultCause = none ∧ t.faultInfo = 0) := by
  rcases he.cases_of_not_streaming hm with rfl | ⟨hi, rfl⟩ | rfl | ⟨b, rfl⟩ | ⟨m, rfl⟩
  · exact .inl ⟨idlePollState_faultCause s, idlePollState_faultInfo s⟩
  · exact .inr ⟨hi, rfl, rfl⟩
  · exact .inl ⟨rfl, rfl⟩
  · exact .inl ⟨rfl, rfl⟩
  · exact .inl ⟨rfl, rfl⟩

theorem Effect.faultEnter_streaming_to_faulting {cause : Cause} {info : Nat} (he : Effect (.faultEnter cause info) s t) :
    s.mode = .streaming ∧ t.mode = .faulting := by
  cases he with
  | faultEnter hm => exact ⟨hm, rfl⟩
  | align hi => simp at hi
  | decode hi => simp at hi

end

/-- Settles O49: by the effects an instruction can have; outside Streaming only five are left, and START alone changes the record. -/
theorem faultsCannotNest : Obligations.FaultsCannotNest := by
  unfold Obligations.FaultsCannotNest
  intro i s t h
  have he : Effect i s t := exec_effect h
  refine ⟨fun hm => ⟨he.not_enters_faulting hm, he.keeps_fault_record hm⟩, ?_⟩
  rintro cause info rfl
  exact he.faultEnter_streaming_to_faulting

end Sys2Proof.Machine
end

section
/-! SUPPORT. The codec (O1 to O4; R91 to R98, R104): the flag and the cause, which Laws/Codec.lean leaves out; what the readers of
operations and of APPEND accept; then the four statements. -/

namespace Sys2Proof

/-! The flag and the cause. -/

theorem takeFlag_inv {bs : List Byte} {b : Bool} {rest : List Byte} (h : takeFlag bs = .ok (b, rest)) :
    bs = (if b then 1 else 0) :: rest := by
  cases bs with
  | nil => cases h
  | cons x bs =>
    simp only [takeFlag] at h
    split_ifs at h with h0 h1 <;> cases h
    · rw [h0]; rfl
    · rw [h1]; rfl

theorem takeCause_bytes (cause : Cause) (rest : List Byte) :
    takeCause (BitVec.ofNat 8 (cause.code - 1) :: rest) = .ok (cause, rest) := by
  cases cause <;> rfl

theorem takeCause_inv {bs : List Byte} {cause : Cause} {rest : List Byte} (h : takeCause bs = .ok (cause, rest)) :
    bs = BitVec.ofNat 8 (cause.code - 1) :: rest := by
  cases bs with
  | nil => cases h
  | cons x bs =>
    have hx : BitVec.ofNat 8 x.toNat = x := by simp
    simp only [takeCause] at h
    split at h <;> cases h
    all_goals
      rename_i hn
      rw [← hx, hn]
      rfl

/-! What the readers of operations and of APPEND accept. -/

theorem natBytes_of_takeNat {bs : List Byte} {n : Nat} {rest : List Byte} (h : takeNat bs = .ok (n, rest)) :
    bs = natBytes n ++ rest := takeNat_inv h n le_rfl

/-- An operation's record is its id and its operands' bytes (R104). -/
theorem decodeOp_inv {id : Nat} {bs : List Byte} {i : Instr} {rest : List Byte} (h : decodeOp id bs = .ok (i, rest)) :
    formatOf i = .op ∧ BitVec.ofNat 8 id :: bs = encode i ++ rest := by
  unfold decodeOp at h
  split at h
  case h_10 =>
    split at h
    · cases h
    · rename_i hc
      split at h <;> cases h
      rename_i hn
      exact ⟨rfl, by rw [natBytes_of_takeNat hc, natBytes_of_takeNat hn]; simp [encode]⟩
  case h_12 =>
    split at h <;> cases h
    rename_i hc
    exact ⟨rfl, by rw [natBytes_of_takeNat hc]; rfl⟩
  case h_13 =>
    split at h
    · cases h
    · rename_i hc
      split at h <;> cases h
      rename_i hn
      exact ⟨rfl, by rw [takeCause_inv hc, natBytes_of_takeNat hn]; rfl⟩
  case h_15 =>
    split at h <;> cases h
    rename_i hb
    exact ⟨rfl, by rw [takeFlag_inv hb]; rfl⟩
  case h_16 =>
    split at h <;> cases h
    rename_i hm
    exact ⟨rfl, by rw [natBytes_of_takeNat hm]; rfl⟩
  case h_17 => cases h
  all_goals (cases h; exact ⟨rfl, rfl⟩)

theorem decodeAppend_inv {bs : List Byte} {i : Instr} {rest : List Byte} (h : decodeAppend bs = .ok (i, rest)) :
    formatOf i = .pseudo ∧ 0x10#8 :: bs = encode i ++ rest := by
  unfold decodeAppend at h
  split at h
  · cases h
  · rename_i hn
    split at h <;> cases h
    rename_i hd
    obtain ⟨rfl, rfl⟩ := takeBytes_inv hd
    exact ⟨rfl, by rw [natBytes_of_takeNat hn]; simp [encode]⟩

/-! The statements. -/

/-- Settles O3: by the instruction's format; each operand's reader gives back what was written. -/
theorem decodeInvertsEncode : Obligations.DecodeInvertsEncode := by
  unfold Obligations.DecodeInvertsEncode
  intro p i rest hwf
  cases i with
  | hdr w =>
    have hmark : w.b7 = p.marker := by simpa [WellFormed] using hwf
    simp [formatOf, encode, decode, takeWord_bytes, hmark]
  | nonhdr w =>
    have hmark : w.b7 ≠ p.marker := by simpa [WellFormed] using hwf
    simp [formatOf, encode, decode, takeWord_bytes, hmark]
  | frame h ws =>
    obtain ⟨hmark, hlen⟩ : h.b7 = p.marker ∧ ws.length = (p.analyse h).flen := by simpa [WellFormed] using hwf
    simp [formatOf, encode, decode, takeWord_bytes, hmark, ← hlen, takeWords_bytes]
  | slot c k w => simp [formatOf, encode, decode, takeWord_bytes]
  | drain c n =>
    obtain ⟨-, hn⟩ : p.hasChannel c = true ∧ 0 < n := by simpa [WellFormed] using hwf
    simp [formatOf, encode, decode, decodeOp, takeNat_bytes, Nat.sub_add_cancel hn]
  | sendFail c => simp [formatOf, encode, decode, decodeOp, takeNat_bytes]
  | faultEnter cause info => simp [formatOf, encode, decode, decodeOp, takeCause_bytes, takeNat_bytes]
  | envAct b => cases b <;> rfl
  | envDiagClear m => simp [formatOf, encode, decode, decodeOp, takeNat_bytes]
  | append ds => simp [formatOf, encode, decode, decodeAppend, takeNat_bytes, takeBytes_bytes]
  | _ => rfl

/-- Settles O4: by the format read; each reader accepts only what the encoder writes. -/
theorem encodeInvertsDecode : Obligations.EncodeInvertsDecode := by
  unfold Obligations.EncodeInvertsDecode
  intro p f bs i rest h
  cases f with
  | hdr =>
    simp only [decode] at h
    split at h
    · cases h
    · rename_i hw
      split at h <;> cases h <;> exact ⟨rfl, takeWord_inv hw⟩
  | frame =>
    simp only [decode] at h
    split at h
    · cases h
    · rename_i hw
      split at h
      · split at h <;> cases h
        rename_i hws
        exact ⟨rfl, by rw [takeWord_inv hw, takeWords_inv hws]; simp [encode]⟩
      · cases h
  | slot c k =>
    simp only [decode] at h
    split at h <;> cases h
    rename_i hw
    exact ⟨rfl, takeWord_inv hw⟩
  | op =>
    cases bs with
    | nil => cases h
    | cons b bs => simpa using decodeOp_inv h
  | pseudo =>
    cases bs with
    | nil => cases h
    | cons b bs =>
      simp only [decode] at h
      split at h
      · rename_i hb
        rw [hb]
        exact decodeAppend_inv h
      · cases h

/-- Sixteen ids, and no other (R104). -/
theorem decodeOp_of_16_le {id : Nat} (h : 16 ≤ id) (bs : List Byte) : decodeOp id bs = .error .noSuchId := by
  unfold decodeOp
  split
  case h_17 => rfl
  all_goals exact absurd h (by decide)

/-- Settles O1: each id's record by evaluation, and a larger byte by the ids being sixteen. -/
theorem operationIdsDecode : Obligations.OperationIdsDecode := by
  unfold Obligations.OperationIdsDecode
  intro p rest
  refine ⟨rfl, rfl, rfl, rfl, rfl, rfl, rfl, rfl, rfl, rfl, rfl, rfl, rfl, rfl, rfl, rfl, fun b hb => ?_⟩
  exact decodeOp_of_16_le hb rest

/-- Settles O2: the test of byte 7, taken either way. -/
theorem markerByteMakesTheHeader : Obligations.MarkerByteMakesTheHeader := by
  unfold Obligations.MarkerByteMakesTheHeader
  intro p b0 b1 b2 b3 b4 b5 b6 b7 rest
  exact ⟨fun h => if_pos h, fun h => if_neg h, rfl⟩

end Sys2Proof
end

section
/-! SUPPORT. The effects of Laws/Ops.lean branch by branch, and what they leave unchanged: the control registers, which four
instructions write, and the layout registers, which START and DECODE write. -/

namespace Sys2Proof.Machine

/-! Who scans, who decodes, who can fault. -/

/-- The alignment scan runs: by itself, or through the word it meets (log 19). -/
def Scans (i : Instr) : Prop := i = .align ∨ (∃ w, i = .hdr w) ∨ ∃ w, i = .nonhdr w

/-- The decoder runs: by itself, or through the word or the frame it meets (log 19). -/
def Decodes (i : Instr) : Prop := i = .decode ∨ (∃ w, i = .hdr w) ∨ (∃ w, i = .nonhdr w) ∨ ∃ h ws, i = .frame h ws

/-- The instruction can raise a session-fatal error (R104, R220; log 17 to 19). -/
def CanFault (i : Instr) : Prop :=
  i = .burst ∨ i = .align ∨ i = .decode ∨ (∃ c, i = .sendFail c) ∨ (∃ d, i = .append d) ∨ (∃ w, i = .hdr w) ∨
    (∃ w, i = .nonhdr w) ∨ (∃ h ws, i = .frame h ws) ∨ ∃ c n, i = .faultEnter c n

/-- The instruction is one that session control runs to move MODE (R120). -/
def MovesMode (i : Instr) : Prop := i = .idlePoll ∨ i = .start ∨ i = .topCheck ∨ i = .faultExit

section
variable {i : Instr}

theorem Scans.canFault (h : Scans i) : CanFault i := by
  rcases h with rfl | ⟨w, rfl⟩ | ⟨w, rfl⟩ <;> simp [CanFault]

theorem Decodes.canFault (h : Decodes i) : CanFault i := by
  rcases h with rfl | ⟨w, rfl⟩ | ⟨w, rfl⟩ | ⟨h, ws, rfl⟩ <;> simp [CanFault]

theorem CanFault.not_movesMode (h : CanFault i) : ¬MovesMode i := by
  rcases h with rfl | rfl | rfl | ⟨_, rfl⟩ | ⟨_, rfl⟩ | ⟨_, rfl⟩ | ⟨_, rfl⟩ | ⟨_, _, rfl⟩ | ⟨_, _, rfl⟩ <;> simp [MovesMode]

theorem Scans.ne_burst (h : Scans i) : i ≠ .burst := by
  rcases h with rfl | ⟨w, rfl⟩ | ⟨w, rfl⟩ <;> simp

theorem Decodes.ne_burst (h : Decodes i) : i ≠ .burst := by
  rcases h with rfl | ⟨w, rfl⟩ | ⟨w, rfl⟩ | ⟨h, ws, rfl⟩ <;> simp

theorem CanFault.ne_start (h : CanFault i) : i ≠ .start := fun e => h.not_movesMode (.inr (.inl e))

end

/-! The moves. -/

/-- What an instruction can do, with every branch of its effect taken: `Effect` says which operation ran, `Move` also how it
ended. -/
inductive Move : Instr → State → State → Prop where
  | arm {s} (hm : s.mode = .idle) (hr : actRead s = false) :
      Move .idlePoll s { s with armed := true, inputs := afterActRead s.inputs }
  | begin {s} (hm : s.mode = .idle) (hr : actRead s = true) (ha : s.armed = true ∨ s.cfg.restartOnLevel = true) :
      Move .idlePoll s { s with mode := .starting, inputs := afterActRead s.inputs }
  | remain {s} (hm : s.mode = .idle) (hr : actRead s = true) (ha : ¬(s.armed = true ∨ s.cfg.restartOnLevel = true)) :
      Move .idlePoll s { s with inputs := afterActRead s.inputs }
  | start {s} (hm : s.mode = .starting) : Move .start s (startState s)
  | goOn {s} (hm : s.mode = .streaming) (hp : s.phase = .top) (hr : actRead s = true) :
      Move .topCheck s { s with phase := .select, inputs := afterActRead s.inputs }
  | stop {s} (hm : s.mode = .streaming) (hp : s.phase = .top) (hr : actRead s = false) :
      Move .topCheck s (stopState { s with inputs := afterActRead s.inputs })
  | fcSelect {s} (hm : s.mode = .streaming) (hp : s.phase = .select) :
      Move .fcSelect s (controlState (burstSizeFor (monRead s).occ) s)
  | fcRepoll {s} (hm : s.mode = .streaming) (hp : s.phase = .wait) : Move .fcRepoll s (controlState (repollSize s) s)
  | burst {s} (hm : s.mode = .streaming) (hp : s.phase = .burst) : Move .burst s (burstState s)
  | append {data s} (hm : s.mode = .streaming) (hp : feedPhase s = true) :
      Move (.append data) s { s with raw := appendBytes s.cfg.fill s.raw data, phase := phaseAfterData s }
  | scanNothing {i s} (hi : Scans i) (hm : s.mode = .streaming) (hp : s.phase = .align) :
      Move i s { s with phase := .compact }
  | scanFinds {i s k} (hi : Scans i) (hm : s.mode = .streaming) (hp : s.phase = .align) (hk : firstMarked s = some k) :
      Move i s { s with raw := { s.raw with read := s.raw.read + 8 * k }, aligned := true, phase := .decode }
  | decodeEmpty {i s} (hi : Decodes i) (hm : s.mode = .streaming) (hp : s.phase = .decode) (ha : s.aligned = true) :
      Move i s { s with phase := .compact }
  | decodeDefer {i s h l} (hi : Decodes i) (hm : s.mode = .streaming) (hp : s.phase = .decode) (ha : s.aligned = true)
      (hg : HeaderGood s h l) (hl : avail s.raw < frameSize l) : Move i s { cacheLayout h l s with phase := .compact }
  | decodeCopy {i s h l} (hi : Decodes i) (hm : s.mode = .streaming) (hp : s.phase = .decode) (ha : s.aligned = true)
      (hg : HeaderGood s h l) (hl : frameSize l ≤ avail s.raw) : Move i s (copyState h l s)
  | slot {c k w s} (hm : s.mode = .streaming) (hp : s.phase = .decode) :
      Move (.slot c k w) s (setChan s c
        { chan s c with mem := memWrite s.cfg.fill (chan s c).mem ((chan s c).head + 6 * k) (keptBytes w) })
  | compactRaw {s} (hm : s.mode = .streaming) (hp : s.phase = .compact) : Move .compactRaw s (compactRawState s)
  | drain {c n s} (hm : s.mode = .streaming) (hp : s.phase = .send) : Move (.drain c n) s (drainState c n s)
  | sendDone {s} (hm : s.mode = .streaming) (hp : s.phase = .send) : Move .sendDone s (sendDoneState s)
  | fault {i s cause info calls} (hi : CanFault i) (hm : s.mode = .streaming) :
      Move i s (takeFault cause info { s with out := calls ++ s.out })
  | faultExit {s} (hm : s.mode = .faulting) : Move .faultExit s (leaveFault s)
  | envAct {b s} : Move (.envAct b) s { s with act := b, actPrev := s.act }
  | envDiagClear {m s} : Move (.envDiagClear m) s { s with diag := clearBits s.diag m }

section
variable {i : Instr} {s t : State}

/-- A fault that no call of `Analyse` went before. -/
theorem Move.fault_nil {cause : Cause} {info : Nat} (hi : CanFault i) (hm : s.mode = .streaming) :
    Move i s (takeFault cause info s) := .fault (calls := []) hi hm

theorem move_idlePoll (hm : s.mode = .idle) : Move .idlePoll s (idlePollState s) := by
  unfold idlePollState
  split_ifs with hr ha
  · exact .arm hm hr
  · exact .begin hm (by simpa using hr) ha
  · exact .remain hm (by simpa using hr) ha

theorem move_topCheck (hm : s.mode = .streaming) (hp : s.phase = .top) : Move .topCheck s (topCheckState s) := by
  unfold topCheckState
  split_ifs with hr
  · exact .goOn hm hp hr
  · exact .stop hm hp (by simpa using hr)

theorem move_append (data : List Byte) (hm : s.mode = .streaming) (hp : feedPhase s = true) :
    Move (.append data) s (appendState data s) := by
  unfold appendState
  split_ifs
  · exact .fault_nil (by simp [CanFault]) hm
  · exact .append hm hp

theorem move_align (hi : Scans i) (hm : s.mode = .streaming) (hp : s.phase = .align) : Move i s (alignState s) := by
  rcases alignState_cases s with e | ⟨k, hk, e⟩ | e <;> rw [e]
  · exact .scanNothing hi hm hp
  · exact .scanFinds hi hm hp hk
  · exact .fault_nil hi.canFault hm

theorem move_decode (hi : Decodes i) (hm : s.mode = .streaming) (hp : s.phase = .decode) (ha : s.aligned = true) :
    Move i s (decodeState s) := by
  rcases decodeState_cases s with e | ⟨_, _, _, e⟩ | ⟨_, _, hg, hl, e⟩ | ⟨_, _, hg, hl, _, e⟩ <;> rw [e]
  · exact .decodeEmpty hi hm hp ha
  · exact .fault hi.canFault hm
  · exact .decodeDefer hi hm hp ha hg hl
  · exact .decodeCopy hi hm hp ha hg hl

theorem Effect.move (he : Effect i s t) : Move i s t := by
  cases he with
  | idlePoll hm => exact move_idlePoll hm
  | start hm => exact .start hm
  | topCheck hm hp => exact move_topCheck hm hp
  | fcSelect hm hp => exact .fcSelect hm hp
  | fcRepoll hm hp => exact .fcRepoll hm hp
  | burst hm hp => exact .burst hm hp
  | burstOverrun hm => exact .fault_nil (.inl rfl) hm
  | append hm hp => exact move_append _ hm hp
  | align hi hm hp => exact move_align hi hm hp
  | decode hi hm hp ha => exact move_decode hi hm hp ha
  | slot hm hp => exact .slot hm hp
  | compactRaw hm hp => exact .compactRaw hm hp
  | drain hm hp => exact .drain hm hp
  | sendDone hm hp => exact .sendDone hm hp
  | sendFail hm => exact .fault_nil (by simp [CanFault]) hm
  | faultEnter hm => exact .fault (by simp [CanFault]) hm
  | faultExit hm => exact .faultExit hm
  | envAct => exact .envAct
  | envDiagClear => exact .envDiagClear

/-- Everything an instruction can do, branch by branch. -/
theorem exec_move (h : exec i s = .next t) : Move i s t := (exec_effect h).move

/-- Everything a step can do, branch by branch. -/
theorem step_move (h : step s = .next t) :
    (∃ i s1, Untouched s s1 ∧ Move i s1 t) ∨
      ∃ m, t = { s with inputs := afterChoice s.inputs, diag := setOtherBits s.cfg s.diag m } := by
  rcases step_effect h with ⟨i, s1, hu, he⟩ | hw
  · exact .inl ⟨i, s1, hu, he.move⟩
  · exact .inr hw

end

/-! The control registers. -/

/-- `t` has the parameters, DIAG, GRACE_CNT and XFER of `s`, and as many channel buffers and sequence counters. -/
structure KeepsControl (s t : State) : Prop where
  cfg : t.cfg = s.cfg
  diag : t.diag = s.diag
  graceCnt : t.graceCnt = s.graceCnt
  xfer : t.xfer = s.xfer
  lengthCh : t.ch.length = s.ch.length
  lengthSeq : t.seq.length = s.seq.length

section
variable {i : Instr} {s t : State}

/-- Only START, the flow controller, a burst taken and ENV_DIAG_CLEAR write a control register (R29, R30, R35). -/
theorem Move.keepsControl_cases (hmv : Move i s t) :
    (KeepsControl s t ∧ i ≠ .start ∧ (i = .burst → t.mode = .faulting)) ∨
    (i = .start ∧ t = startState s) ∨
    ((i = .fcSelect ∨ i = .fcRepoll) ∧ ∃ x, t = controlState x s) ∨
    (i = .burst ∧ s.mode = .streaming ∧ t = burstState s) ∨
    ∃ m, i = .envDiagClear m ∧ t = { s with diag := clearBits s.diag m } := by
  cases hmv with
  | start => exact .inr (.inl ⟨rfl, rfl⟩)
  | fcSelect => exact .inr (.inr (.inl ⟨.inl rfl, _, rfl⟩))
  | fcRepoll => exact .inr (.inr (.inl ⟨.inr rfl, _, rfl⟩))
  | burst hm => exact .inr (.inr (.inr (.inl ⟨rfl, hm, rfl⟩)))
  | envDiagClear => exact .inr (.inr (.inr (.inr ⟨_, rfl, rfl⟩)))
  | fault hi => exact .inl ⟨by constructor <;> simp, hi.ne_start, fun _ => rfl⟩
  | scanNothing hi => exact .inl ⟨by constructor <;> rfl, hi.canFault.ne_start, fun e => absurd e hi.ne_burst⟩
  | scanFinds hi => exact .inl ⟨by constructor <;> rfl, hi.canFault.ne_start, fun e => absurd e hi.ne_burst⟩
  | decodeEmpty hi => exact .inl ⟨by constructor <;> rfl, hi.canFault.ne_start, fun e => absurd e hi.ne_burst⟩
  | decodeDefer hi => exact .inl ⟨by constructor <;> simp, hi.canFault.ne_start, fun e => absurd e hi.ne_burst⟩
  | decodeCopy hi => exact .inl ⟨by constructor <;> simp, hi.canFault.ne_start, fun e => absurd e hi.ne_burst⟩
  | _ => exact .inl ⟨by constructor <;> simp, by simp⟩

theorem Move.cfg (hmv : Move i s t) : t.cfg = s.cfg := by
  rcases hmv.keepsControl_cases with ⟨hk, -⟩ | ⟨-, rfl⟩ | ⟨-, _, rfl⟩ | ⟨-, -, rfl⟩ | ⟨_, -, rfl⟩
  · exact hk.cfg
  all_goals rfl

theorem Move.lengthCh (hmv : Move i s t) : t.ch.length = s.ch.length := by
  rcases hmv.keepsControl_cases with ⟨hk, -⟩ | ⟨-, rfl⟩ | ⟨-, _, rfl⟩ | ⟨-, -, rfl⟩ | ⟨_, -, rfl⟩
  · exact hk.lengthCh
  all_goals simp

theorem Move.lengthSeq (hmv : Move i s t) : t.seq.length = s.seq.length := by
  rcases hmv.keepsControl_cases with ⟨hk, -⟩ | ⟨-, rfl⟩ | ⟨-, _, rfl⟩ | ⟨-, -, rfl⟩ | ⟨_, -, rfl⟩
  · exact hk.lengthSeq
  all_goals simp

end

/-! The layout registers. -/

/-- `t` has the parameters, the cache and the layout of `s`. -/
structure KeepsLayout (s t : State) : Prop where
  cfg : t.cfg = s.cfg
  cacheValid : t.cacheValid = s.cacheValid
  codeCache : t.codeCache = s.codeCache
  flen : t.flen = s.flen
  cnt : t.cnt = s.cnt

section
variable {i : Instr} {s t : State}

theorem Untouched.keepsLayout (hu : Untouched s t) : KeepsLayout s t :=
  ⟨hu.cfg, hu.cacheValid, hu.codeCache, hu.flen, hu.cnt⟩

/-- Only START, which empties the cache, and DECODE, with the layout of a header that passed its tests (R170 step 2), write a
layout register (R27, R28). -/
theorem Move.keepsLayout_cases (hmv : Move i s t) :
    KeepsLayout s t ∨ t = startState s ∨ ∃ h l, HeaderGood s h l ∧ KeepsLayout (cacheLayout h l s) t := by
  cases hmv with
  | start => exact .inr (.inl rfl)
  | decodeDefer _ _ _ _ hg => exact .inr (.inr ⟨_, _, hg, by constructor <;> rfl⟩)
  | decodeCopy _ _ _ _ hg => exact .inr (.inr ⟨_, _, hg, by constructor <;> rfl⟩)
  | _ => exact .inl (by constructor <;> rfl)

end

/-- Settles O52: no move writes the parameters, and neither do fetching and the world outside. -/
theorem parametersNeverChange : Obligations.ParametersNeverChange := by
  unfold Obligations.ParametersNeverChange
  intro s t hst
  rcases step_move hst with ⟨i, s1, hu, hmv⟩ | ⟨m, rfl⟩
  · exact hmv.cfg.trans hu.cfg
  · rfl

end Sys2Proof.Machine
end

section
/-! SUPPORT. The cache is true (O55, R169): only START, which empties it, and DECODE, which writes the layout `Analyse` gives,
write it. -/

namespace Sys2Proof.Machine

variable {i : Instr} {s t : State}

theorem CacheOk.of_keepsLayout (h : CacheOk s) (hk : KeepsLayout s t) : CacheOk t := by
  simpa only [CacheOk, hk.cfg, hk.cacheValid, hk.codeCache, hk.flen, hk.cnt] using h

theorem CacheOk.cacheLayout {hd : Word8} {l : Layout} (h : CacheOk s) (hg : HeaderGood s hd l) :
    CacheOk (cacheLayout hd l s) := by
  obtain ⟨rfl, hvalid⟩ := layout_valid h hg
  intro _
  simpa using hvalid

theorem Move.keeps_cacheOk (hmv : Move i s t) (h : CacheOk s) : CacheOk t := by
  rcases hmv.keepsLayout_cases with hk | rfl | ⟨hd, l, hg, hk⟩
  · exact h.of_keepsLayout hk
  · exact fun hv => absurd hv (by simp)
  · exact (h.cacheLayout hg).of_keepsLayout hk

/-- Settles O55: by the moves that write the layout registers. -/
theorem stepKeepsTheCacheTrue : Obligations.StepKeepsTheCacheTrue := by
  unfold Obligations.StepKeepsTheCacheTrue
  intro s t h hst
  rcases step_move hst with ⟨i, s1, hu, hmv⟩ | ⟨m, rfl⟩
  · exact hmv.keeps_cacheOk (h.of_keepsLayout hu.keepsLayout)
  · exact h

end Sys2Proof.Machine
end

section
/-! SUPPORT. Canonical memories and the sizes (O54): a memory is changed by `memWrite` alone, which keeps the canonical form; lists
of buffers, counts and counters are only mapped over or replaced by one of N_CH entries. -/

namespace Sys2Proof.Machine

variable {i : Instr} {s t : State}

/-! Memories. -/

theorem memoriesOk_iff :
    MemoriesOk s ↔ Memory.wf s.cfg.fill s.raw.mem = true ∧ ∀ m ∈ s.ch.map Buffer.mem, Memory.wf s.cfg.fill m = true := by
  simp [MemoriesOk]

/-- The invariant speaks of the buffers' memories only, not of their cursors. -/
theorem MemoriesOk.of_eq (h : MemoriesOk s) (hcfg : t.cfg = s.cfg) (hraw : t.raw.mem = s.raw.mem)
    (hch : t.ch.map Buffer.mem = s.ch.map Buffer.mem) : MemoriesOk t := by
  rw [memoriesOk_iff] at h ⊢
  rwa [hcfg, hraw, hch]

theorem map_mem_flush (Bs : List Buffer) : (Bs.map flush).map Buffer.mem = Bs.map Buffer.mem := by
  simp [Function.comp_def]

theorem MemoriesOk.of_flush (h : MemoriesOk s) (hcfg : t.cfg = s.cfg) (hraw : t.raw = flush s.raw)
    (hch : t.ch = s.ch.map flush) : MemoriesOk t :=
  h.of_eq hcfg (by rw [hraw, flush_mem]) (by rw [hch, map_mem_flush])

theorem MemoriesOk.chan (h : MemoriesOk s) (c : Nat) : Memory.wf s.cfg.fill (chan s c).mem = true := by
  rcases lt_or_ge c s.ch.length with hc | hc
  · exact h.2 _ (chan_mem hc)
  · rw [chan_of_le hc]; rfl

theorem MemoriesOk.setChan {c : Nat} {B : Buffer} (h : MemoriesOk s) (hB : Memory.wf s.cfg.fill B.mem = true) :
    MemoriesOk (setChan s c B) := by
  refine ⟨h.1, fun D hD => ?_⟩
  rcases List.mem_or_eq_of_mem_set hD with hD | rfl
  · exact h.2 D hD
  · exact hB

theorem copyChannel_wf {l : Layout} {c : Nat} {B : Buffer} (h : Memory.wf s.cfg.fill B.mem = true) :
    Memory.wf s.cfg.fill (copyChannel s l c B).mem = true := by
  unfold copyChannel
  split
  · exact memWrite_wf h
  · exact h

theorem MemoriesOk.copyState {hd : Word8} {l : Layout} (h : MemoriesOk s) : MemoriesOk (copyState hd l s) := by
  refine ⟨by simpa using h.1, fun B hB => ?_⟩
  obtain ⟨c, hc, rfl⟩ := List.mem_mapIdx.1 (by simpa using hB)
  rw [copyState_cfg]
  exact copyChannel_wf (h.2 _ (List.getElem_mem hc))

theorem Move.keeps_memoriesOk (hmv : Move i s t) (h : MemoriesOk s) : MemoriesOk t := by
  cases hmv with
  | start => exact h.of_flush rfl rfl rfl
  | fault => exact h.of_flush rfl rfl rfl
  | burst => exact ⟨appendBytes_wf h.1, h.2⟩
  | append => exact ⟨appendBytes_wf h.1, h.2⟩
  | compactRaw => exact ⟨compact_wf h.1, h.2⟩
  | sendDone => exact ⟨h.1, List.forall_mem_map.2 fun B hB => compact_wf (h.2 B hB)⟩
  | slot => exact h.setChan (memWrite_wf (h.chan _))
  | @drain c n =>
    exact (h.setChan (c := c) (B := { chan s c with read := (chan s c).read + n }) (h.chan c)).of_eq rfl rfl rfl
  | decodeDefer => exact h.of_eq (by simp) (by simp) (by simp)
  | decodeCopy => exact h.copyState
  | _ => exact h.of_eq rfl rfl rfl

/-! Sizes. -/

/-- A header's layout has one count per channel, from the cache or from `Analyse` (R168). -/
theorem SizesOk.length_layoutFor (h : SizesOk s) (hd : Word8) : (layoutFor s hd).cnt.length = s.cfg.nCh := by
  obtain ⟨-, hcnt, -⟩ := h
  unfold layoutFor
  split
  · exact hcnt
  · exact analyse_length _ _

theorem Move.keeps_sizesOk (hmv : Move i s t) (h : SizesOk s) : SizesOk t := by
  obtain ⟨hch, hcnt, hseq⟩ := h
  refine ⟨by rw [hmv.lengthCh, hmv.cfg, hch], ?_, by rw [hmv.lengthSeq, hmv.cfg, hseq]⟩
  rcases hmv.keepsLayout_cases with hk | rfl | ⟨hd, l, ⟨_, _, _, rfl, _⟩, hk⟩
  · rw [hk.cnt, hk.cfg, hcnt]
  · exact hcnt
  · rw [hk.cnt, hk.cfg, cacheLayout_cnt, cacheLayout_cfg, SizesOk.length_layoutFor ⟨hch, hcnt, hseq⟩]

theorem Untouched.memoriesOk (hu : Untouched s t) (h : MemoriesOk s) : MemoriesOk t :=
  h.of_eq hu.cfg (by rw [hu.raw]) (by rw [hu.ch])

theorem Untouched.sizesOk (hu : Untouched s t) (h : SizesOk s) : SizesOk t := by
  simpa only [SizesOk, hu.cfg, hu.ch, hu.cnt, hu.seqLength] using h

/-- Settles O54: by the moves an instruction can make. -/
theorem stepKeepsMemories : Obligations.StepKeepsMemories := by
  unfold Obligations.StepKeepsMemories
  intro s t hM hS hst
  rcases step_move hst with ⟨i, s1, hu, hmv⟩ | ⟨m, rfl⟩
  · exact ⟨hmv.keeps_memoriesOk (hu.memoriesOk hM), hmv.keeps_sizesOk (hu.sizesOk hS)⟩
  · exact ⟨hM, hS⟩

end Sys2Proof.Machine
end

section
/-! SUPPORT. The lifecycle's edges (O50, R120): which value of MODE an instruction leaves, by the instruction and the MODE it
finds. -/

namespace Sys2Proof.Machine

/-- The table of R120: the MODE that instruction `i` leaves when it runs on `s`. -/
inductive ModeMove : Instr → State → Mode → Prop where
  | idlePoll {s} (hm : s.mode = .idle) :
      ModeMove .idlePoll s
        (if actRead s = true ∧ (s.armed = true ∨ s.cfg.restartOnLevel = true) then .starting else .idle)
  | start {s} (hm : s.mode = .starting) : ModeMove .start s .streaming
  | topCheck {s} (hm : s.mode = .streaming) (hp : s.phase = .top) :
      ModeMove .topCheck s (if actRead s = true then .streaming else .idle)
  | fault {i s} (hi : CanFault i) (hm : s.mode = .streaming) : ModeMove i s .faulting
  | faultExit {s} (hm : s.mode = .faulting) : ModeMove .faultExit s .idle
  | stay {i s} (hi : ¬MovesMode i) : ModeMove i s s.mode

section
variable {i : Instr} {s t : State} {m : Mode}

theorem ModeMove.of_eq (h : ModeMove i s m) (e : t.mode = m) : ModeMove i s t.mode := e ▸ h

theorem Move.modeMove (hmv : Move i s t) : ModeMove i s t.mode := by
  cases hmv with
  | arm hm hr => exact (ModeMove.idlePoll hm).of_eq (by simp [hm, hr])
  | begin hm hr ha => exact (ModeMove.idlePoll hm).of_eq (by simp [hr, ha])
  | remain hm hr ha => exact (ModeMove.idlePoll hm).of_eq (by simp [hm, ha])
  | start hm => exact .start hm
  | goOn hm hp hr => exact (ModeMove.topCheck hm hp).of_eq (by simp [hm, hr])
  | stop hm hp hr => exact (ModeMove.topCheck hm hp).of_eq (by simp [hr])
  | fault hi hm => exact .fault hi hm
  | faultExit hm => exact .faultExit hm
  | scanNothing hi => exact .stay hi.canFault.not_movesMode
  | scanFinds hi => exact .stay hi.canFault.not_movesMode
  | decodeEmpty hi => exact .stay hi.canFault.not_movesMode
  | decodeDefer hi => exact (ModeMove.stay hi.canFault.not_movesMode).of_eq (by simp)
  | decodeCopy hi => exact (ModeMove.stay hi.canFault.not_movesMode).of_eq (by simp)
  | _ => exact .stay (by simp [MovesMode])

/-- MODE is kept, or moves along an edge of the table. -/
theorem ModeMove.edge (h : ModeMove i s m) :
    m = s.mode ∨ (s.mode = .idle ∧ m = .starting) ∨ (s.mode = .starting ∧ m = .streaming) ∨
    (s.mode = .streaming ∧ s.phase = .top ∧ m = .idle) ∨ (s.mode = .streaming ∧ m = .faulting) ∨
    (s.mode = .faulting ∧ m = .idle) := by
  cases h with
  | idlePoll hm => split_ifs <;> simp [hm]
  | start hm => simp [hm]
  | topCheck hm hp => split_ifs <;> simp [hm, hp]
  | fault hi hm => simp [hm]
  | faultExit hm => simp [hm]
  | stay hi => exact .inl rfl

/-- Idle is left by IDLE_POLL reading ACT 1 only (D25). -/
theorem ModeMove.from_idle (h : ModeMove i s m) (hs : s.mode = .idle) :
    m = if i = .idlePoll ∧ actRead s = true ∧ (s.armed = true ∨ s.cfg.restartOnLevel = true) then .starting else .idle := by
  cases h with
  | idlePoll => simp
  | stay hi => rw [if_neg fun hc => hi (.inl hc.1), hs]
  | _ => exact absurd (hs.symm.trans ‹s.mode = _›) (by decide)

theorem ModeMove.from_starting (h : ModeMove i s m) (hs : s.mode = .starting) :
    m = if i = .start then .streaming else .starting := by
  cases h with
  | start => rfl
  | stay hi => rw [if_neg fun hc => hi (.inr (.inl hc)), hs]
  | _ => exact absurd (hs.symm.trans ‹s.mode = _›) (by decide)

theorem ModeMove.from_faulting (h : ModeMove i s m) (hs : s.mode = .faulting) :
    m = if i = .faultExit then .idle else .faulting := by
  cases h with
  | faultExit => rfl
  | stay hi => rw [if_neg fun hc => hi (.inr (.inr (.inr hc))), hs]
  | _ => exact absurd (hs.symm.trans ‹s.mode = _›) (by decide)

/-- Streaming is left by TOP_CHECK reading ACT 0, or for Faulting. -/
theorem ModeMove.from_streaming (h : ModeMove i s m) (hs : s.mode = .streaming) :
    (i = .topCheck → m = if actRead s = true then .streaming else .idle) ∧
      (i ≠ .topCheck → m = .streaming ∨ (m = .faulting ∧ CanFault i)) := by
  cases h with
  | topCheck => simp
  | fault hi => exact ⟨fun e => absurd (.inr (.inr (.inl e))) hi.not_movesMode, fun _ => .inr ⟨rfl, hi⟩⟩
  | stay hi => exact ⟨fun e => absurd (.inr (.inr (.inl e))) hi, fun _ => .inl hs⟩
  | _ => exact absurd (hs.symm.trans ‹s.mode = _›) (by decide)

end

/-- Settles O50: the table's rows, of a step and of an instruction by the MODE it finds. -/
theorem modeMovesAlongTheEdges : Obligations.ModeMovesAlongTheEdges := by
  unfold Obligations.ModeMovesAlongTheEdges
  refine ⟨fun s t hst => ?_, fun i s t h => ?_⟩
  · rcases step_move hst with ⟨i, s1, hu, hmv⟩ | ⟨m, rfl⟩
    · simpa only [hu.mode, hu.phase] using hmv.modeMove.edge
    · exact .inl rfl
  · have hmm := (exec_move h).modeMove
    exact ⟨hmm.from_idle, hmm.from_starting, hmm.from_streaming, hmm.from_faulting⟩

end Sys2Proof.Machine
end

section
/-! SUPPORT. DIAG and GRACE_CNT (O16, O17; R30, R35, R144, R149): of the four instructions that write a control register, which
writes which. -/

namespace Sys2Proof.Machine

/-- The alarm raises the block's bit exactly after the grace period on an over-threshold reading (R144). -/
theorem alarmed_cases (s : State) (st : FifoStatus) :
    (s.graceCnt = 0 ∧ st.thr = true ∧ alarmed s st = raiseAlarm s.cfg s.diag) ∨ alarmed s st = s.diag := by
  unfold alarmed
  split_ifs with h
  · exact .inl ⟨h.1, h.2, rfl⟩
  · exact .inr rfl

/-- DIAG is written by the flow controller's alarm and by ENV_DIAG_CLEAR only. -/
theorem Move.diag_cases {i : Instr} {s t : State} (hmv : Move i s t) :
    t.diag = s.diag ∨ (∃ m, i = .envDiagClear m) ∨
      ((i = .fcSelect ∨ i = .fcRepoll) ∧ s.graceCnt = 0 ∧ (monRead s).thr = true ∧ t.diag = raiseAlarm s.cfg s.diag) := by
  rcases hmv.keepsControl_cases with ⟨hk, -⟩ | ⟨-, rfl⟩ | ⟨hi, x, rfl⟩ | ⟨-, -, rfl⟩ | ⟨m, hi, -⟩
  · exact .inl hk.diag
  · exact .inl rfl
  · rcases alarmed_cases s (monRead s) with ⟨hgrace, hthr, e⟩ | e
    · exact .inr (.inr ⟨hi, hgrace, hthr, e⟩)
    · exact .inl e
  · exact .inl rfl
  · exact .inr (.inl ⟨m, hi⟩)

/-- Settles O16: the alarm adds its own bit, and nothing else but ENV_DIAG_CLEAR writes DIAG. -/
theorem diagOnlyGainsTheAlarmBit : Obligations.DiagOnlyGainsTheAlarmBit := by
  unfold Obligations.DiagOnlyGainsTheAlarmBit
  intro i s t h hclear
  rcases (exec_move h).diag_cases with e | ⟨m, hi⟩ | ⟨hi, hgrace, hthr, e⟩
  · exact ⟨fun k hk => e ▸ hk, fun hne => absurd e hne⟩
  · exact absurd hi (hclear m)
  · have hbit : ∀ k, t.diag.testBit k = (s.diag.testBit k || decide (k = s.cfg.diagBit)) :=
      fun k => by rw [e, raiseAlarm_bit]
    exact ⟨fun k hk => by rw [hbit, hk, Bool.true_or], fun _ => ⟨hi, hgrace, hthr, hbit⟩⟩

/-- Settles O17: GRACE_CNT is written by START and by a burst taken. -/
theorem graceCountsTheBursts : Obligations.GraceCountsTheBursts := by
  unfold Obligations.GraceCountsTheBursts
  intro i s t h
  rcases (exec_move h).keepsControl_cases with
    ⟨hk, hstart, hburst⟩ | ⟨rfl, rfl⟩ | ⟨rfl | rfl, x, rfl⟩ | ⟨rfl, hm, rfl⟩ | ⟨m, rfl, rfl⟩
  · have hnot : ¬(i = .burst ∧ t.mode = .streaming) := fun ⟨hi, hm⟩ => by simp [hburst hi] at hm
    rw [if_neg hstart, if_neg hnot, hk.graceCnt]
  · simp
  · simp
  · simp
  · simp [hm]
  · simp

end Sys2Proof.Machine
end

section
/-! SUPPORT. The sequencing invariants (O56), one after another over the moves: alignment (R26), compacted buffers (R47), the
lifecycle's flags (R31 to R34), the wait's size (R142), GRACE_CNT (R30) and DIAG (R35). -/

namespace Sys2Proof.Machine

variable {i : Instr} {s t : State}

/-! Alignment (R26, R126). -/

theorem AlignmentOk.of_eq (h : AlignmentOk s) (hm : t.mode = s.mode) (hp : t.phase = s.phase) (ha : t.aligned = s.aligned) :
    AlignmentOk t := by
  simpa only [AlignmentOk, hm, hp, ha] using h

theorem alignmentOk_of_mode (hm : t.mode ≠ .streaming) : AlignmentOk t := fun h => absurd h hm

theorem alignmentOk_of_phase (hd : t.phase ≠ .decode) (ha : t.phase ≠ .align) : AlignmentOk t :=
  fun _ => ⟨fun h => absurd h hd, fun h => absurd h ha⟩

/-- The phase after new data is chosen by ALIGNED. -/
theorem alignmentOk_of_phaseAfterData (hp : t.phase = phaseAfterData s) (ha : t.aligned = s.aligned) : AlignmentOk t := by
  intro _
  rw [hp, ha, phaseAfterData]
  cases s.aligned <;> simp

/-- The flow controller goes on to BURST when there is enough for the size, else to WAIT (R142, R143). -/
theorem controlState_phase_cases (x : BurstSize) (s : State) :
    ((controlState x s).phase = .burst ∧ x.bytes / 8 ≤ (monRead s).occ) ∨ (controlState x s).phase = .wait := by
  rw [controlState_phase]
  split_ifs with h
  · exact .inl ⟨rfl, enough_iff.1 h⟩
  · exact .inr rfl

theorem alignmentOk_controlState (x : BurstSize) (s : State) : AlignmentOk (controlState x s) := by
  rcases controlState_phase_cases x s with ⟨e, -⟩ | e <;>
    exact alignmentOk_of_phase (by rw [e]; decide) (by rw [e]; decide)

theorem Move.keeps_alignmentOk (hmv : Move i s t) (h : AlignmentOk s) : AlignmentOk t := by
  cases hmv with
  | arm hm => exact alignmentOk_of_mode (by simp [hm])
  | begin => exact alignmentOk_of_mode (by simp)
  | remain hm => exact alignmentOk_of_mode (by simp [hm])
  | stop => exact alignmentOk_of_mode (by simp)
  | fault => exact alignmentOk_of_mode (by simp)
  | faultExit => exact alignmentOk_of_mode (by simp)
  | burst => exact alignmentOk_of_phaseAfterData (s := s) rfl rfl
  | append => exact alignmentOk_of_phaseAfterData (s := s) rfl rfl
  | scanFinds => exact fun _ => by simp
  | decodeCopy _ _ hp ha => exact fun _ => by simp [hp, ha]
  | fcSelect => exact alignmentOk_controlState _ s
  | fcRepoll => exact alignmentOk_controlState _ s
  | slot => exact h.of_eq rfl rfl rfl
  | drain => exact h.of_eq rfl rfl rfl
  | envAct => exact h.of_eq rfl rfl rfl
  | envDiagClear => exact h.of_eq rfl rfl rfl
  | _ => exact alignmentOk_of_phase (by simp) (by simp)

/-! Compacted buffers (R47). -/

theorem CompactedOk.of_eq (h : CompactedOk s) (hm : t.mode = s.mode) (hp : t.phase = s.phase) (hraw : t.raw = s.raw)
    (hch : t.ch = s.ch) : CompactedOk t := by
  simpa only [CompactedOk, hm, hp, hraw, hch] using h

theorem compactedOk_of_mode (hm : t.mode ≠ .streaming) : CompactedOk t := fun h => absurd h hm

/-- Every read cursor 0. -/
theorem compactedOk_of_read (hraw : t.raw.read = 0) (hch : ∀ B ∈ t.ch, B.read = 0) : CompactedOk t :=
  fun _ => ⟨fun _ => hraw, fun _ => hch⟩

/-- In phases ALIGN, DECODE and COMPACT the cursors are free. -/
theorem compactedOk_of_phase (hp : t.phase = .align ∨ t.phase = .decode ∨ t.phase = .compact) : CompactedOk t := by
  intro _
  rcases hp with e | e | e <;> simp [e]

/-- In phase SEND RAW's read cursor is 0, the channels' are free. -/
theorem compactedOk_of_send (hp : t.phase = .send) (hraw : t.raw.read = 0) : CompactedOk t := by
  intro _
  simp [hp, hraw]

theorem phaseAfterData_cases (s : State) : phaseAfterData s = .align ∨ phaseAfterData s = .decode := by
  unfold phaseAfterData
  split
  · exact .inr rfl
  · exact .inl rfl

theorem compactedOk_of_phaseAfterData (hp : t.phase = phaseAfterData s) : CompactedOk t :=
  compactedOk_of_phase (by rcases phaseAfterData_cases s with e | e <;> simp [hp, e])

/-- From TOP to BURST every read cursor is 0, and stays 0 where the cursors stay. -/
theorem CompactedOk.of_feed (h : CompactedOk s) (hm : s.mode = .streaming)
    (hp : s.phase = .top ∨ s.phase = .select ∨ s.phase = .wait ∨ s.phase = .burst) (hraw : t.raw = s.raw)
    (hch : t.ch = s.ch) : CompactedOk t :=
  compactedOk_of_read (hraw ▸ (h hm).1 (.inr hp)) (hch ▸ (h hm).2 hp)

theorem Move.keeps_compactedOk (hmv : Move i s t) (h : CompactedOk s) : CompactedOk t := by
  cases hmv with
  | arm hm => exact compactedOk_of_mode (by simp [hm])
  | begin => exact compactedOk_of_mode (by simp)
  | remain hm => exact compactedOk_of_mode (by simp [hm])
  | stop => exact compactedOk_of_mode (by simp)
  | fault => exact compactedOk_of_mode (by simp)
  | faultExit => exact compactedOk_of_mode (by simp)
  | start => exact compactedOk_of_read rfl (by simp)
  | goOn hm hp => exact h.of_feed hm (.inl hp) rfl rfl
  | fcSelect hm hp => exact h.of_feed hm (.inr (.inl hp)) rfl rfl
  | fcRepoll hm hp => exact h.of_feed hm (.inr (.inr (.inl hp))) rfl rfl
  | burst => exact compactedOk_of_phaseAfterData (s := s) rfl
  | append => exact compactedOk_of_phaseAfterData (s := s) rfl
  | compactRaw => exact compactedOk_of_send rfl (compact_read _)
  | drain hm hp => exact compactedOk_of_send hp ((h hm).1 (.inl hp))
  | sendDone hm hp => exact compactedOk_of_read ((h hm).1 (.inl hp)) (by simp)
  | decodeCopy _ _ hp => exact compactedOk_of_phase (by simp [hp])
  | slot _ hp => exact compactedOk_of_phase (by simp [hp])
  | envAct => exact h.of_eq rfl rfl rfl rfl
  | envDiagClear => exact h.of_eq rfl rfl rfl rfl
  | _ => exact compactedOk_of_phase (by simp)

/-! The lifecycle (R31, R33, R34, R230). -/

theorem LifecycleOk.of_eq (h : LifecycleOk s) (hm : t.mode = s.mode) (hs : t.streamEn = s.streamEn) (ha : t.armed = s.armed)
    (hc : t.faultCause = s.faultCause) (hraw : t.raw = s.raw) (hch : t.ch = s.ch) : LifecycleOk t := by
  simpa only [LifecycleOk, hm, hs, ha, hc, hraw, hch] using h

/-- In Idle and Starting only STREAM_EN is bound. -/
theorem lifecycleOk_of_outside (hm : t.mode = .idle ∨ t.mode = .starting) (hs : t.streamEn = false) : LifecycleOk t := by
  rcases hm with e | e <;> simp [LifecycleOk, e, hs]

theorem lifecycleOk_of_streaming (hm : t.mode = .streaming) (hs : t.streamEn = true) (ha : t.armed = false) :
    LifecycleOk t := by
  simp [LifecycleOk, hm, hs, ha]

/-- Within Streaming the buffers are free. -/
theorem LifecycleOk.of_streaming (h : LifecycleOk s) (hs : s.mode = .streaming) (hm : t.mode = s.mode)
    (hen : t.streamEn = s.streamEn) (ha : t.armed = s.armed) : LifecycleOk t := by
  obtain ⟨hstream, harmed, -⟩ := h
  exact lifecycleOk_of_streaming (hm.trans hs) (hen.trans (hstream.2 hs)) (ha.trans (harmed (.inl hs)))

theorem LifecycleOk.streamEn_of_not (h : LifecycleOk s) (hm : s.mode ≠ .streaming) : s.streamEn = false := by
  simpa [hm] using h.1

theorem LifecycleOk.takeFault (h : LifecycleOk s) (hm : s.mode = .streaming) (cause : Cause) (info : Nat)
    (calls : List Event) : LifecycleOk (takeFault cause info { s with out := calls ++ s.out }) := by
  obtain ⟨-, harmed, -⟩ := h
  simp [LifecycleOk, harmed (.inl hm)]

theorem Move.keeps_lifecycleOk (hmv : Move i s t) (h : LifecycleOk s) : LifecycleOk t := by
  cases hmv with
  | arm hm => exact lifecycleOk_of_outside (.inl hm) (h.streamEn_of_not (by simp [hm]))
  | begin hm => exact lifecycleOk_of_outside (.inr rfl) (h.streamEn_of_not (by simp [hm]))
  | remain hm => exact lifecycleOk_of_outside (.inl hm) (h.streamEn_of_not (by simp [hm]))
  | start => exact lifecycleOk_of_streaming rfl rfl rfl
  | stop => exact lifecycleOk_of_outside (.inl rfl) rfl
  | fault _ hm => exact h.takeFault hm _ _ _
  | faultExit hm => exact lifecycleOk_of_outside (.inl rfl) (h.streamEn_of_not (by simp [hm]))
  | envAct => exact h.of_eq rfl rfl rfl rfl rfl rfl
  | envDiagClear => exact h.of_eq rfl rfl rfl rfl rfl rfl
  | _ => exact h.of_streaming ‹s.mode = .streaming› (by simp) (by simp) (by simp)

/-! The wait (R142). -/

theorem WaitOk.of_eq (h : WaitOk s) (hm : t.mode = s.mode) (hp : t.phase = s.phase) (hx : t.xfer = s.xfer) : WaitOk t := by
  simpa only [WaitOk, hm, hp, hx] using h

theorem waitOk_of_mode (hm : t.mode ≠ .streaming) : WaitOk t := fun h => absurd h hm

theorem waitOk_of_phase (hp : t.phase ≠ .wait) : WaitOk t := fun _ h => absurd h hp

/-- A size chosen for an occupancy that does not hold it is the smallest. -/
theorem burstSizeFor_of_not_enough {occ : Nat} (h : ¬enough occ (burstSizeFor occ) = true) : burstSizeFor occ = .s0 := by
  have hcases := bytes_burstSizeFor_cases occ
  rw [enough_iff] at h
  unfold burstSizeFor
  rw [if_neg (by omega), if_neg (by omega), if_neg (by omega)]

/-- The flow controller waits only with the smallest size, if a size it keeps is the smallest. -/
theorem waitOk_controlState {x : BurstSize} (hx : x = burstSizeFor (monRead s).occ ∨ x = .s0) :
    WaitOk (controlState x s) := by
  intro _ hp
  rw [controlState_phase] at hp
  split_ifs at hp with henough
  rcases hx with rfl | rfl
  · exact burstSizeFor_of_not_enough henough
  · rfl

theorem Move.keeps_waitOk (hmv : Move i s t) (h : WaitOk s) : WaitOk t := by
  cases hmv with
  | arm hm => exact waitOk_of_mode (by simp [hm])
  | begin => exact waitOk_of_mode (by simp)
  | remain hm => exact waitOk_of_mode (by simp [hm])
  | stop => exact waitOk_of_mode (by simp)
  | fault => exact waitOk_of_mode (by simp)
  | faultExit => exact waitOk_of_mode (by simp)
  | fcSelect => exact waitOk_controlState (.inl rfl)
  | fcRepoll hm hp =>
    refine waitOk_controlState ?_
    unfold repollSize
    split
    · exact .inl rfl
    · exact .inr (h hm hp)
  | burst => exact waitOk_of_phase (by rcases phaseAfterData_cases s with e | e <;> simp [e])
  | append => exact waitOk_of_phase (by rcases phaseAfterData_cases s with e | e <;> simp [e])
  | decodeCopy _ _ hp => exact waitOk_of_phase (by simp [hp])
  | slot => exact h.of_eq rfl rfl rfl
  | drain => exact h.of_eq rfl rfl rfl
  | envAct => exact h.of_eq rfl rfl rfl
  | envDiagClear => exact h.of_eq rfl rfl rfl
  | _ => exact waitOk_of_phase (by simp)

/-! GRACE_CNT and DIAG (R30, R35). -/

theorem Move.keeps_graceOk (hmv : Move i s t) (h : GraceOk s) : GraceOk t := by
  rcases hmv.keepsControl_cases with ⟨hk, -⟩ | ⟨-, rfl⟩ | ⟨-, x, rfl⟩ | ⟨-, -, rfl⟩ | ⟨m, -, rfl⟩
  · simpa only [GraceOk, hk.cfg, hk.graceCnt] using h
  · exact le_rfl
  · exact h
  · exact (Nat.sub_le _ _).trans h
  · exact h

theorem clearBits_lt {d m w : Nat} (h : d < 2 ^ w) : clearBits d m < 2 ^ w :=
  Nat.xor_lt_two_pow h (Nat.and_le_left.trans_lt h)

theorem raiseAlarm_lt {p : Params} {d : Nat} (h : d < 2 ^ p.diagWidth) : raiseAlarm p d < 2 ^ p.diagWidth := by
  refine Nat.or_lt_two_pow h ?_
  rw [Nat.one_shiftLeft, Params.diagWidth, Nat.add_assoc]
  exact Nat.pow_lt_pow_right (by decide) (by omega)

theorem setOtherBits_lt {p : Params} {d m : Nat} (h : d < 2 ^ p.diagWidth) : setOtherBits p d m < 2 ^ p.diagWidth :=
  Nat.or_lt_two_pow h (clearBits_lt (Nat.mod_lt _ (Nat.two_pow_pos _)))

theorem Move.keeps_diagOk (hmv : Move i s t) (h : DiagOk s) : DiagOk t := by
  rw [DiagOk, hmv.cfg]
  rcases hmv.keepsControl_cases with ⟨hk, -⟩ | ⟨-, rfl⟩ | ⟨-, x, rfl⟩ | ⟨-, -, rfl⟩ | ⟨m, -, rfl⟩
  · rw [hk.diag]; exact h
  · exact h
  · rcases alarmed_cases s (monRead s) with ⟨-, -, e⟩ | e
    · rw [controlState_diag, e]; exact raiseAlarm_lt h
    · rw [controlState_diag, e]; exact h
  · exact h
  · exact clearBits_lt h

/-! All of them. -/

theorem Move.keeps_sequencingOk (hmv : Move i s t) (h : SequencingOk s) : SequencingOk t := by
  obtain ⟨halign, hcompact, hlife, hwait, hgrace, hdiag⟩ := h
  exact ⟨hmv.keeps_alignmentOk halign, hmv.keeps_compactedOk hcompact, hmv.keeps_lifecycleOk hlife,
    hmv.keeps_waitOk hwait, hmv.keeps_graceOk hgrace, hmv.keeps_diagOk hdiag⟩

theorem Untouched.sequencingOk (hu : Untouched s t) (h : SequencingOk s) : SequencingOk t := by
  simpa only [SequencingOk, AlignmentOk, CompactedOk, LifecycleOk, WaitOk, GraceOk, DiagOk, hu.raw, hu.ch, hu.aligned, hu.xfer,
    hu.graceCnt, hu.mode, hu.phase, hu.faultCause, hu.armed, hu.streamEn, hu.diag, hu.cfg] using h

/-- The world outside writes DIAG alone. -/
theorem SequencingOk.world (h : SequencingOk s) (m : Nat) :
    SequencingOk { s with inputs := afterChoice s.inputs, diag := setOtherBits s.cfg s.diag m } := by
  obtain ⟨halign, hcompact, hlife, hwait, hgrace, hdiag⟩ := h
  exact ⟨halign, hcompact, hlife, hwait, hgrace, setOtherBits_lt hdiag⟩

/-- Settles O56: each of the six invariants over the moves, and DIAG over the world's write. -/
theorem stepKeepsTheSequence : Obligations.StepKeepsTheSequence := by
  unfold Obligations.StepKeepsTheSequence
  intro s t h hst
  rcases step_move hst with ⟨i, s1, hu, hmv⟩ | ⟨m, rfl⟩
  · exact hmv.keeps_sequencingOk (hu.sequencingOk h)
  · exact h.world m

end Sys2Proof.Machine
end

section
/-! SUPPORT. No access outside an arena (O57, R63): the stop `outsideArena` is raised by five tests, none of which can hold with the
cursors in order and a true cache. -/

namespace Sys2Proof.Machine

variable {s s1 : State} {r : Result}

theorem insideArenas_next (t : State) : InsideArenas (.next t) := by simp [InsideArenas]
theorem insideArenas_refused (e : Refusal) : InsideArenas (.refused e) := by simp [InsideArenas]
theorem insideArenas_deviceStuck : InsideArenas (.fault .deviceStuck) := by simp [InsideArenas]

theorem InsideArenas.whenPhase {ph : Phase} (h : InsideArenas r) : InsideArenas (whenPhase ph s r) := by
  unfold Machine.whenPhase
  split
  · exact h
  · exact insideArenas_refused _

theorem InsideArenas.whenMode {m : Mode} (h : InsideArenas r) : InsideArenas (whenMode m s r) := by
  unfold Machine.whenMode
  split
  · exact h
  · exact insideArenas_refused _

/-- FAULT_ENTER never stops: its outcome is a fault's next state or a refusal. -/
theorem insideArenas_faultOutcome (cause : Cause) (info : Nat) (r : Result) : InsideArenas (faultOutcome cause info r) := by
  unfold faultOutcome
  split
  · split
    · exact insideArenas_next _
    · exact insideArenas_refused _
  · exact insideArenas_refused _
  · exact insideArenas_refused _

theorem CursorsOk.chan (h : CursorsOk s) (c : Nat) : CursorsInOrder s.cfg.chCap (chan s c) := by
  rcases lt_or_ge c s.ch.length with hc | hc
  · exact h.2 _ (chan_mem hc)
  · rw [chan_of_le hc]
    exact ⟨le_rfl, Nat.zero_le _⟩

theorem CursorsOk.any_outside (h : CursorsOk s) : s.ch.any (outside s.cfg.chCap) = false :=
  List.any_eq_false.2 fun B hB => by simp [outside_of_inOrder (h.2 B hB)]

/-- A frame that is complete and whose layout fills it lies among RAW's unread bytes. -/
theorem payload_le_rawCap {l : Layout} (hc : CursorsInOrder s.cfg.rawCap s.raw) (hl : frameSize l ≤ avail s.raw)
    (hv : validLayout l = true) : s.raw.read + 8 + 8 * total l ≤ s.cfg.rawCap := by
  obtain ⟨hread, hhead⟩ := hc
  have htotal : total l = l.flen := by simpa [validLayout] using hv
  simp only [frameSize, avail] at hl
  omega

/-- With a true cache the layout COPY uses fills its frame (R169), so the payload is inside the arena. -/
theorem payloadOutside_of_cacheOk (hc : CursorsInOrder s.cfg.rawCap s.raw) (hK : CacheOk s) : payloadOutside s = false := by
  unfold payloadOutside
  split
  case h_1 h l hv =>
    obtain ⟨hg, hl, -⟩ := verdict_copy_iff.1 hv
    have hle := payload_le_rawCap hc hl (layout_valid hK hg).2
    simpa using hle
  all_goals rfl

theorem runAlign_of (hc : CursorsInOrder s.cfg.rawCap s.raw) : runAlign s = .next (alignState s) :=
  runAlign_eq_next.2 ⟨outside_of_inOrder hc, rfl⟩

theorem insideArenas_runAlign (hC : CursorsOk s) : InsideArenas (runAlign s) := by
  rw [runAlign_of hC.1]
  exact insideArenas_next _

theorem insideArenas_runDecode (hC : CursorsOk s) (hK : CacheOk s) : InsideArenas (runDecode s) := by
  rw [runDecode_of hC.1 (payloadOutside_of_cacheOk hC.1 hK)]
  exact insideArenas_next _

theorem insideArenas_runAtCursor (w : Word8) (hC : CursorsOk s) (hK : CacheOk s) : InsideArenas (runAtCursor w s) := by
  unfold runAtCursor
  split
  · split
    case h_1 => exact insideArenas_runAlign hC
    case h_2 =>
      split
      · exact insideArenas_runDecode hC hK
      · exact insideArenas_refused _
    all_goals exact insideArenas_refused _
  · exact insideArenas_refused _

theorem insideArenas_execSlot (c k : Nat) (w : Word8) (hC : CursorsOk s) (hK : CacheOk s) :
    InsideArenas (execSlot c k w s) := by
  have hin : ¬(outside s.cfg.rawCap s.raw = true ∨ payloadOutside s = true) := by
    simp [outside_of_inOrder hC.1, payloadOutside_of_cacheOk hC.1 hK]
  unfold execSlot
  split
  · exact insideArenas_refused _
  · refine InsideArenas.whenPhase ?_
    split
    case h_1 =>
      split
      · exact insideArenas_next _
      · exact insideArenas_refused _
    all_goals exact insideArenas_refused _

theorem insideArenas_execBurst (s : State) : InsideArenas (execBurst s) := by
  refine InsideArenas.whenPhase ?_
  split
  · exact insideArenas_next _
  · split
    · exact insideArenas_next _
    · exact insideArenas_refused _
  · split
    · exact insideArenas_next _
    · exact insideArenas_deviceStuck

theorem insideArenas_exec (i : Instr) (hC : CursorsOk s) (hK : CacheOk s) : InsideArenas (exec i s) := by
  cases i with
  | idlePoll => exact (insideArenas_next _).whenMode
  | start => exact (insideArenas_next _).whenMode
  | faultExit => exact (insideArenas_next _).whenMode
  | topCheck => exact (insideArenas_next _).whenPhase
  | fcSelect => exact (insideArenas_next _).whenPhase
  | fcRepoll => exact (insideArenas_next _).whenPhase
  | envAct => exact insideArenas_next _
  | envDiagClear => exact insideArenas_next _
  | burst => exact insideArenas_execBurst s
  | append ds =>
    simp only [exec, execAppend]
    split
    · exact insideArenas_next _
    · exact insideArenas_refused _
  | align => exact (insideArenas_runAlign hC).whenPhase
  | decode =>
    refine InsideArenas.whenPhase ?_
    split
    · exact insideArenas_runDecode hC hK
    · exact insideArenas_refused _
  | hdr w =>
    simp only [exec, execHdr]
    split
    · exact insideArenas_runAtCursor w hC hK
    · exact insideArenas_refused _
  | nonhdr w =>
    simp only [exec, execNonhdr]
    split
    · exact insideArenas_runAtCursor w hC hK
    · exact insideArenas_refused _
  | frame h ws =>
    simp only [exec, execFrame]
    split
    · exact insideArenas_refused _
    · refine InsideArenas.whenPhase ?_
      split
      · exact insideArenas_runDecode hC hK
      · exact insideArenas_refused _
  | slot c k w => exact insideArenas_execSlot c k w hC hK
  | compactRaw =>
    refine InsideArenas.whenPhase ?_
    simp [outside_of_inOrder hC.1, insideArenas_next]
  | drain c n =>
    simp only [exec, execDrain]
    split
    · refine InsideArenas.whenPhase ?_
      split
      · simp [outside_of_inOrder (hC.chan c), insideArenas_next]
      · exact insideArenas_refused _
    · exact insideArenas_refused _
  | sendDone =>
    refine InsideArenas.whenPhase ?_
    simp [hC.any_outside, insideArenas_next]
  | sendFail c =>
    simp only [exec, execSendFail]
    split
    · exact (insideArenas_next _).whenPhase
    · exact insideArenas_refused _
  | faultEnter cause info =>
    simp only [exec, execFaultEnter]
    split
    · exact insideArenas_faultOutcome _ _ _
    · exact insideArenas_refused _

theorem Untouched.cursorsOk (hu : Untouched s s1) (h : CursorsOk s) : CursorsOk s1 := by
  simpa only [CursorsOk, hu.cfg, hu.raw, hu.ch] using h

/-- Settles O57: what fetch finds runs on the same buffers and the same cache. -/
theorem stepStaysInsideTheArenas : Obligations.StepStaysInsideTheArenas := by
  unfold Obligations.StepStaysInsideTheArenas
  intro s hC hK
  unfold step
  split
  · rename_i i s1 hf
    have hu := fetch_run hf
    exact insideArenas_exec i (hu.cursorsOk hC) (hK.of_keepsLayout hu.keepsLayout)
  · exact insideArenas_next _
  · exact insideArenas_refused _

end Sys2Proof.Machine
end

section
/-! SUPPORT. What stands at the decode cursor (O7, R98): in phase DECODE the word there, or the frame, runs the decoder; in phase
ALIGN the word runs the scan (log 19). And each verdict's run of DECODE. -/

namespace Sys2Proof.Machine

variable {s : State}

theorem runAtCursor_decode (hm : s.mode = .streaming) (hp : s.phase = .decode) (h8 : 8 ≤ avail s.raw) :
    runAtCursor (headerAt s) s = exec .decode s := by
  rw [runAtCursor, if_pos ⟨hm, h8, rfl⟩]
  simp [exec, execDecode, whenPhase_of hm hp, hp]

theorem runAtCursor_align (hm : s.mode = .streaming) (hp : s.phase = .align) (h8 : 8 ≤ avail s.raw) :
    runAtCursor (headerAt s) s = exec .align s := by
  rw [runAtCursor, if_pos ⟨hm, h8, rfl⟩]
  simp [exec, execAlign, whenPhase_of hm hp, hp]

theorem exec_hdr_of_marker {w : Word8} (h : w.b7 = s.cfg.marker) : exec (.hdr w) s = runAtCursor w s := if_pos h

theorem exec_nonhdr_of_not_marker {w : Word8} (h : w.b7 ≠ s.cfg.marker) : exec (.nonhdr w) s = runAtCursor w s := if_pos h

theorem exec_frame_eq_decode {ws : List Word8} (hm : s.mode = .streaming) (hp : s.phase = .decode)
    (hwf : WellFormed s.cfg (.frame (headerAt s) ws) = true) (hlen : (ws.length + 1) * 8 ≤ avail s.raw)
    (hws : wordsAt s (s.raw.read + 8) ws.length = ws) : exec (.frame (headerAt s) ws) s = exec .decode s := by
  have hwords : wordsAt s s.raw.read (ws.length + 1) = headerAt s :: ws := congrArg (headerAt s :: ·) hws
  simp [exec, execFrame, execDecode, whenPhase_of hm hp, hwf, hlen, hwords]

/-- Settles O7: the word and the frame at the cursor run the decoder. -/
theorem decodeRunsTheWordAtTheCursor : Obligations.DecodeRunsTheWordAtTheCursor := by
  unfold Obligations.DecodeRunsTheWordAtTheCursor
  intro s hm hp h8
  have hcur := (runAtCursor_decode hm hp h8).symm
  exact ⟨fun h => hcur.trans (exec_hdr_of_marker h).symm, fun h => hcur.trans (exec_nonhdr_of_not_marker h).symm,
    fun ws hwf hlen hws => (exec_frame_eq_decode hm hp hwf hlen hws).symm⟩

/-! One run of DECODE, by its verdict. -/

/-- DECODE is enabled, on a RAW whose cursors are in order (R26, R45, R170). -/
structure DecodeEnabled (s : State) : Prop where
  mode : s.mode = .streaming
  phase : s.phase = .decode
  aligned : s.aligned = true
  cursors : CursorsInOrder s.cfg.rawCap s.raw

/-- Only COPY reads a payload. -/
theorem payloadOutside_of_verdict_ne_copy (hv : ∀ h l, verdict s ≠ .copy h l) : payloadOutside s = false := by
  unfold payloadOutside
  split
  case h_1 h l e => exact absurd e (hv h l)
  all_goals rfl

theorem payloadOutside_of_verdict_copy {h : Word8} {l : Layout} (hv : verdict s = .copy h l)
    (hc : CursorsInOrder s.cfg.rawCap s.raw) (hvalid : validLayout l = true) : payloadOutside s = false := by
  obtain ⟨-, hl, -⟩ := verdict_copy_iff.1 hv
  have hle := payload_le_rawCap hc hl hvalid
  simpa [payloadOutside, hv] using hle

theorem DecodeEnabled.exec_of_ne_copy (he : DecodeEnabled s) (hv : ∀ h l, verdict s ≠ .copy h l) :
    exec .decode s = .next (decodeState s) :=
  execDecode_of he.mode he.phase he.aligned he.cursors (payloadOutside_of_verdict_ne_copy hv)

theorem DecodeEnabled.exec_copy {h : Word8} {l : Layout} (he : DecodeEnabled s) (hv : verdict s = .copy h l)
    (hvalid : validLayout l = true) : exec .decode s = .next (copyState h l s) := by
  rw [execDecode_of he.mode he.phase he.aligned he.cursors (payloadOutside_of_verdict_copy hv he.cursors hvalid),
    decodeState, hv]

theorem DecodeEnabled.exec_desync (he : DecodeEnabled s) (hv : verdict s = .desync) :
    exec .decode s = .next (takeFault .desync 0 s) := by
  rw [he.exec_of_ne_copy (by simp [hv]), decodeState, hv]

theorem DecodeEnabled.exec_badLayout {h : Word8} (he : DecodeEnabled s) (hv : verdict s = .badLayout h) :
    exec .decode s = .next (takeFault .badLayout 0 (noteAnalyse h s)) := by
  rw [he.exec_of_ne_copy (by simp [hv]), decodeState, hv]

theorem DecodeEnabled.exec_defer {h : Word8} {l : Layout} (he : DecodeEnabled s) (hv : verdict s = .defer h l) :
    exec .decode s = .next { cacheLayout h l s with phase := .compact } := by
  rw [he.exec_of_ne_copy (by simp [hv]), decodeState, hv]

theorem DecodeEnabled.exec_overrun {h : Word8} {c : Nat} (he : DecodeEnabled s) (hv : verdict s = .overrun h c) :
    exec .decode s = .next (takeFault .chOverrun c (noteAnalyse h s)) := by
  rw [he.exec_of_ne_copy (by simp [hv]), decodeState, hv]

/-! Layouts. -/

theorem validLayout_iff {l : Layout} : validLayout l = true ↔ l.cnt.sum = l.flen := by
  rw [validLayout, decide_eq_true_eq, total]

theorem cacheHit_iff {h : Word8} : cacheHit s h = true ↔ s.cacheValid = true ∧ s.codeCache = h := by
  simp [cacheHit]

theorem cacheHit_eq_false {h : Word8} (hmiss : s.cacheValid = true → h ≠ s.codeCache) : cacheHit s h = false := by
  rw [← Bool.not_eq_true, cacheHit_iff]
  exact fun ⟨hvalid, hcode⟩ => hmiss hvalid hcode.symm

theorem layoutFor_of_miss {h : Word8} (hmiss : cacheHit s h = false) : layoutFor s h = s.cfg.analyse h := by
  simp [layoutFor, hmiss]

theorem layoutFor_of_hit {h : Word8} (hhit : cacheHit s h = true) : layoutFor s h = { flen := s.flen, cnt := s.cnt } := by
  simp [layoutFor, hhit]

/-- With a true cache it does not matter whether the layout is cached (R169). -/
theorem layoutFor_of_cacheOk (hK : CacheOk s) (h : Word8) : layoutFor s h = s.cfg.analyse h := by
  cases hhit : cacheHit s h with
  | false => exact layoutFor_of_miss hhit
  | true =>
    obtain ⟨hvalid, rfl⟩ := cacheHit_iff.1 hhit
    rw [layoutFor_of_hit hhit, (hK hvalid).1]

/-- A marked header of a valid layout passes DECODE's tests. -/
theorem headerGood_of {l : Layout} (h8 : 8 ≤ avail s.raw) (hmark : (headerAt s).b7 = s.cfg.marker)
    (hl : l = layoutFor s (headerAt s)) (hsum : l.cnt.sum = l.flen) : HeaderGood s (headerAt s) l :=
  ⟨h8, rfl, hmark, hl, .inr (validLayout_iff.2 hsum)⟩

end Sys2Proof.Machine
end

section
/-! SUPPORT. Whole frames decode in order (O40, R177): one good frame at the front of the residue is one COPY, which keeps the
invariants, takes the frame from RAW's front and puts each channel's samples at its end; then induction over the frames. -/

namespace Sys2Proof.Machine

variable {s : State} {f : Word8 × List Word8} {rest : List Byte}

/-! The frame at the cursor. -/

theorem Word8.bytes_injective : Function.Injective Word8.bytes := by
  intro v w h
  simp only [Word8.bytes, List.cons.injEq, and_true] at h
  cases v
  cases w
  simpa [Word8.mk.injEq] using h

@[simp] theorem length_frameBytes (f : Word8 × List Word8) : (frameBytes f).length = (f.2.length + 1) * 8 := by
  simp [frameBytes, Word8.bytes, List.length_flatMap]
  omega

/-- A residue that begins with a word has it at the cursor. -/
theorem headerAt_of_pending {w : Word8} (hp : pending s.cfg.fill s.raw = w.bytes ++ rest) : headerAt s = w := by
  have h8 : 8 ≤ avail s.raw := by
    have hlen := congrArg List.length hp
    rw [length_pending, List.length_append] at hlen
    simp [Word8.bytes] at hlen
    omega
  rw [pending_advance h8, ← memWord_bytes] at hp
  exact Word8.bytes_injective (List.append_inj_left hp rfl)

theorem frameSize_of_pending {p : Params} (hp : pending s.cfg.fill s.raw = frameBytes f ++ rest) (hg : GoodFrame p f) :
    frameSize (p.analyse f.1) + rest.length = avail s.raw := by
  obtain ⟨-, -, hlen⟩ := hg
  have h := congrArg List.length hp
  rw [length_pending, List.length_append, length_frameBytes, hlen] at h
  exact h.symm

/-- COPY takes the frame from RAW's front. -/
theorem pending_raw_copyState (hp : pending s.cfg.fill s.raw = frameBytes f ++ rest) (hg : GoodFrame s.cfg f) :
    pending s.cfg.fill (copyState f.1 (s.cfg.analyse f.1) s).raw = rest := by
  have hsize := frameSize_of_pending hp hg
  obtain ⟨-, -, hlen⟩ := hg
  have hfs : frameSize (s.cfg.analyse f.1) = (frameBytes f).length := by rw [length_frameBytes, hlen, frameSize]
  rw [copyState_raw, pending_drop (by omega), hp, hfs, List.drop_left]

/-! The invariant of the induction. -/

/-- DECODE is enabled, and the invariants its outcome rests on hold. -/
structure Decoding (s : State) : Prop where
  mode : s.mode = .streaming
  phase : s.phase = .decode
  aligned : s.aligned = true
  cursors : CursorsOk s
  memories : MemoriesOk s
  sizes : SizesOk s
  cache : CacheOk s

theorem Decoding.enabled (hd : Decoding s) : DecodeEnabled s := ⟨hd.mode, hd.phase, hd.aligned, hd.cursors.1⟩

/-- There is room in every channel for the samples of a frame with header `h`. -/
def RoomFor (s : State) (h : Word8) : Prop :=
  ∀ c < s.cfg.nCh, (chan s c).head + 6 * cntOf (s.cfg.analyse h) c ≤ s.cfg.chCap

/-- A channel after COPY has its samples behind its earlier bytes. -/
theorem chan_copyState_eq_appendBytes {h : Word8} {l : Layout} {c : Nat} (hc : c < s.cfg.nCh) (hS : SizesOk s) :
    chan (copyState h l s) c = appendBytes s.cfg.fill (chan s c) (channelBytes s l c) := by
  rw [chan_copyState hc hS, appendBytes, length_channelBytes]

section
variable (hd : Decoding s) (hp : pending s.cfg.fill s.raw = frameBytes f ++ rest) (hg : GoodFrame s.cfg f)
include hd hp hg

theorem Decoding.headerGood : HeaderGood s f.1 (s.cfg.analyse f.1) := by
  have hsize := frameSize_of_pending hp hg
  obtain ⟨hmark, hvalid, -⟩ := hg
  have hhead : headerAt s = f.1 := headerAt_of_pending (by rw [hp, frameBytes, List.append_assoc])
  have h8 : 8 ≤ avail s.raw := by
    rw [frameSize] at hsize
    omega
  exact ⟨h8, hhead.symm, hmark, (layoutFor_of_cacheOk hd.cache _).symm, .inr hvalid⟩

/-- One good frame with room is one COPY. -/
theorem Decoding.exec_goodFrame (hroom : RoomFor s f.1) :
    exec .decode s = .next (copyState f.1 (s.cfg.analyse f.1) s) ∧ Decoding (copyState f.1 (s.cfg.analyse f.1) s) := by
  have hhg := hd.headerGood hp hg
  have hsize : frameSize (s.cfg.analyse f.1) ≤ avail s.raw := Nat.le.intro (frameSize_of_pending hp hg)
  have hfirst := firstOverrun_eq_none_iff.2 hroom
  have hv : verdict s = .copy f.1 (s.cfg.analyse f.1) := verdict_copy_iff.2 ⟨hhg, hsize, hfirst⟩
  obtain ⟨hC, hM, hS, hK⟩ := copy_keeps hd.cursors hd.memories hd.sizes hd.cache hhg hsize hfirst
  obtain ⟨-, hvalid, -⟩ := hg
  exact ⟨hd.enabled.exec_copy hv hvalid, by simp [hd.mode], by simp [hd.phase], by simp [hd.aligned], hC, hM, hS, hK⟩

theorem Decoding.pending_chan_copy {c : Nat} (hc : c < s.cfg.nCh) :
    pending s.cfg.fill (chan (copyState f.1 (s.cfg.analyse f.1) s) c) =
      pending s.cfg.fill (chan s c) ++ samplesOf (s.cfg.analyse f.1) f.2 c := by
  obtain ⟨-, hvalid, hlen⟩ := hg
  rw [chan_copyState_eq_appendBytes hc hd.sizes, pending_appendBytes (hd.memories.chan c) (hd.cursors.chan c).1,
    channelBytes_eq_samplesOf (h := f.1) (ws := f.2) hp hlen hvalid]

end

/-- As many DECODEs as there are good frames at the front of the residue. -/
theorem decodeMany_goodFrames (fs : List (Word8 × List Word8)) (s : State) (hd : Decoding s)
    (hp : pending s.cfg.fill s.raw = fs.flatMap frameBytes ++ rest) (hg : ∀ f ∈ fs, GoodFrame s.cfg f)
    (hroom : ∀ c < s.cfg.nCh, (chan s c).head + 6 * (fs.map fun f => cntOf (s.cfg.analyse f.1) c).sum ≤ s.cfg.chCap) :
    ∃ t, decodeMany fs.length s = .next t ∧ t.mode = .streaming ∧ t.phase = .decode ∧ pending s.cfg.fill t.raw = rest ∧
      ∀ c < s.cfg.nCh, pending s.cfg.fill (chan t c) =
        pending s.cfg.fill (chan s c) ++ fs.flatMap fun f => samplesOf (s.cfg.analyse f.1) f.2 c := by
  induction fs generalizing s with
  | nil => exact ⟨s, rfl, hd.mode, hd.phase, by simpa using hp, fun c _ => by simp⟩
  | cons f fs ih =>
    rw [List.flatMap_cons, List.append_assoc] at hp
    obtain ⟨hgf, hgfs⟩ := List.forall_mem_cons.1 hg
    simp only [List.map_cons, List.sum_cons] at hroom
    have hroomf : RoomFor s f.1 := fun c hc => by have := hroom c hc; omega
    obtain ⟨hexec, hd'⟩ := hd.exec_goodFrame hp hgf hroomf
    have hroomfs : ∀ c < s.cfg.nCh, (chan (copyState f.1 (s.cfg.analyse f.1) s) c).head +
        6 * (fs.map fun f => cntOf (s.cfg.analyse f.1) c).sum ≤ s.cfg.chCap := by
      intro c hc
      have := hroom c hc
      rw [chan_copyState hc hd.sizes]
      dsimp only
      omega
    obtain ⟨t, hmany, hm, hph, hrest, hch⟩ := ih (copyState f.1 (s.cfg.analyse f.1) s) hd'
      (by rw [copyState_cfg]; exact pending_raw_copyState hp hgf) (by rwa [copyState_cfg]) (by rwa [copyState_cfg])
    rw [copyState_cfg] at hrest hch
    refine ⟨t, by simpa [decodeMany, hexec] using hmany, hm, hph, hrest, fun c hc => ?_⟩
    rw [hch c hc, hd.pending_chan_copy hp hgf hc, List.flatMap_cons, List.append_assoc]

/-- Settles O40: by induction over the frames, each of them one COPY. -/
theorem framesDecodeInOrder : Obligations.FramesDecodeInOrder := by
  unfold Obligations.FramesDecodeInOrder
  intro fs rest s hm hph ha hC hM hS hK hp hg hroom
  exact decodeMany_goodFrames fs s ⟨hm, hph, ha, hC, hM, hS, hK⟩ hp hg hroom

end Sys2Proof.Machine
end

section
/-! SUPPORT. FC_SELECT and FC_REPOLL (O13 to O15; R142 to R147): the state they share, in the spec's own terms. -/

namespace Sys2Proof.Machine

variable {s : State}

theorem enough_burstSizeFor_iff {occ : Nat} : enough occ (burstSizeFor occ) = true ↔ 512 ≤ occ := by
  have h := bytes_burstSizeFor_cases occ
  rw [enough_iff]
  omega

theorem enough_iff_bytes_le {occ : Nat} {x : BurstSize} : enough occ x = true ↔ x.bytes ≤ 8 * occ := by
  have h := Nat.mul_div_cancel' x.eight_dvd_bytes
  rw [enough_iff]
  omega

theorem raiseAlarm_eq (p : Params) (d : Nat) : raiseAlarm p d = d ||| 2 ^ p.diagBit := by
  rw [raiseAlarm, Nat.one_shiftLeft]

theorem exec_fcSelect_of (hm : s.mode = .streaming) (hp : s.phase = .select) :
    exec .fcSelect s = .next (controlState (burstSizeFor (monRead s).occ) s) := whenPhase_of hm hp

theorem exec_fcRepoll_of (hm : s.mode = .streaming) (hp : s.phase = .wait) :
    exec .fcRepoll s = .next (controlState (repollSize s) s) := whenPhase_of hm hp

/-- Settles O13: the shared state, where enough for the chosen size is at least 512 words. -/
theorem fcSelectChoosesTheBurst : Obligations.FcSelectChoosesTheBurst := by
  unfold Obligations.FcSelectChoosesTheBurst
  intro s hm hp
  rw [exec_fcSelect_of hm hp]
  simp only [controlState, alarmed, enough_burstSizeFor_iff, raiseAlarm_eq]

/-- Settles O14: the shared state, where enough for a size is that many bytes. -/
theorem fcRepollWaitsForTheBurst : Obligations.FcRepollWaitsForTheBurst := by
  unfold Obligations.FcRepollWaitsForTheBurst
  rintro s x hm hp rfl
  rw [exec_fcRepoll_of hm hp]
  simp only [controlState, alarmed, enough_iff_bytes_le, raiseAlarm_eq, repollSize]

/-! The overflow and underflow flags (R145). -/

/-- `s'` is `s` with another next status of the same occupancy and over-threshold flag. -/
structure StatusDiffers (s s' : State) : Prop where
  state : s' = { s with inputs := s'.inputs }
  occ : (monRead s').occ = (monRead s).occ
  thr : (monRead s').thr = (monRead s).thr
  after : afterMonRead s'.inputs = afterMonRead s.inputs

section
variable {s' : State} (h : StatusDiffers s s')
include h

theorem StatusDiffers.controlState (x : BurstSize) : controlState x s' = controlState x s := by
  obtain ⟨hstate, hocc, hthr, hafter⟩ := h
  simp only [Machine.controlState, alarmed, hocc, hthr, hafter]
  rw [hstate]

theorem StatusDiffers.repollSize : repollSize s' = repollSize s := by
  obtain ⟨hstate, hocc, -, -⟩ := h
  simp only [Machine.repollSize, hocc]
  rw [hstate]

theorem StatusDiffers.whenPhase (ph : Phase) (r : Result) : whenPhase ph s' r = whenPhase ph s r := by
  rw [h.state]
  rfl

end

/-- Settles O15: neither operation looks at the two flags, and the status that held them is taken. -/
theorem overflowFlagsHaveNoEffect : Obligations.OverflowFlagsHaveNoEffect := by
  unfold Obligations.OverflowFlagsHaveNoEffect
  rintro s s' st st' rest hocc hthr hmon rfl
  have h : StatusDiffers s { s with inputs := { s.inputs with mon := st' :: rest } } :=
    ⟨rfl, by simp [monRead, hmon, hocc], by simp [monRead, hmon, hthr], by simp [afterMonRead, hmon]⟩
  refine ⟨?_, ?_⟩
  · simp only [exec, execFcSelect, h.whenPhase, h.occ, h.controlState]
  · simp only [exec, execFcRepoll, h.whenPhase, h.repollSize, h.controlState]

end Sys2Proof.Machine
end

section
/-! SUPPORT. Into BURST and out of WAIT (O18, O19; R129, R148, R276): by the moves and by the phase each effect needs. -/

namespace Sys2Proof.Machine

variable {i : Instr} {s t : State}

/-- Into PHASE BURST: by the flow controller with enough, or by staying there. -/
theorem Move.into_burst (hmv : Move i s t) (hm : t.mode = .streaming) (hp : t.phase = .burst) :
    ((i = .fcSelect ∨ i = .fcRepoll) ∧ t.xfer.bytes / 8 ≤ (monRead s).occ) ∨
      (s.mode = .streaming ∧ s.phase = .burst ∧ t.xfer = s.xfer) := by
  have hflow : ∀ x, (controlState x s).phase = .burst → (controlState x s).xfer.bytes / 8 ≤ (monRead s).occ := by
    intro x hx
    rcases controlState_phase_cases x s with ⟨-, henough⟩ | e
    · exact henough
    · exact absurd (hx.symm.trans e) (by decide)
  have hdata : phaseAfterData s ≠ .burst := by rcases phaseAfterData_cases s with e | e <;> rw [e] <;> decide
  cases hmv with
  | fcSelect => exact .inl ⟨.inl rfl, hflow _ hp⟩
  | fcRepoll => exact .inl ⟨.inr rfl, hflow _ hp⟩
  | burst => exact absurd hp hdata
  | append => exact absurd hp hdata
  | slot => exact .inr ⟨hm, hp, rfl⟩
  | drain => exact .inr ⟨hm, hp, rfl⟩
  | envAct => exact .inr ⟨hm, hp, rfl⟩
  | envDiagClear => exact .inr ⟨hm, hp, rfl⟩
  | _ => simp_all

/-- Settles O18: by the moves that end in PHASE BURST. -/
theorem underflowGuard : Obligations.UnderflowGuard := by
  unfold Obligations.UnderflowGuard
  exact fun i s t h hm hp => (exec_move h).into_burst hm hp

/-! Out of WAIT. -/

/-- No operation raises a fault in phase WAIT, so FAULT_ENTER does not happen there (log 17). -/
theorem phase_of_raiser {cause : Cause} {info : Nat} (h : raiser cause info s = .next t) :
    s.phase = .align ∨ s.phase = .decode ∨ s.phase = .send ∨ s.phase = .burst := by
  cases cause with
  | alignFail => exact .inl (whenPhase_eq_next.1 h).1.2
  | desync => exact .inr (.inl (whenPhase_eq_next.1 h).1.2)
  | badLayout => exact .inr (.inl (whenPhase_eq_next.1 h).1.2)
  | chOverrun => exact .inr (.inl (whenPhase_eq_next.1 h).1.2)
  | rawOverrun => exact .inr (.inr (.inr (whenPhase_eq_next.1 h).1.2))
  | sendFail =>
    simp only [raiser, execSendFail] at h
    split at h
    · exact .inr (.inr (.inl (whenPhase_eq_next.1 h).1.2))
    · cases h

/-- What runs in phase WAIT: FC_REPOLL and the external writes. -/
theorem exec_in_wait (hm : s.mode = .streaming) (hp : s.phase = .wait) (h : exec i s = .next t) :
    (i = .fcRepoll ∧ t = controlState (repollSize s) s) ∨ (t.mode = s.mode ∧ t.phase = s.phase) := by
  cases exec_effect h with
  | fcRepoll => exact .inl ⟨rfl, rfl⟩
  | envAct => exact .inr ⟨rfl, rfl⟩
  | envDiagClear => exact .inr ⟨rfl, rfl⟩
  | append _ hfeed => simp [feedPhase, hp] at hfeed
  | faultEnter =>
    obtain ⟨-, hraise, -⟩ := execFaultEnter_eq_next.1 h
    have hphase := phase_of_raiser hraise
    simp [hp] at hphase
  | idlePoll hm' => exact absurd (hm.symm.trans hm') (by decide)
  | start hm' => exact absurd (hm.symm.trans hm') (by decide)
  | faultExit hm' => exact absurd (hm.symm.trans hm') (by decide)
  | _ => exact absurd (hp.symm.trans ‹s.phase = _›) (by decide)

theorem exec_leaves_wait (hm : s.mode = .streaming) (hp : s.phase = .wait) (h : exec i s = .next t) :
    t.mode = .streaming ∧
      (t.phase = .wait ∨ (i = .fcRepoll ∧ t.phase = .burst ∧ t.xfer.bytes / 8 ≤ (monRead s).occ)) := by
  rcases exec_in_wait hm hp h with ⟨hi, rfl⟩ | ⟨hm', hp'⟩
  · refine ⟨hm, ?_⟩
    rcases controlState_phase_cases (repollSize s) s with ⟨e, henough⟩ | e
    · exact .inr ⟨hi, e, henough⟩
    · exact .inl e
  · exact ⟨hm'.trans hm, .inl (hp'.trans hp)⟩

/-- Outside phase SEND a step's instruction finds the inputs as they were, or past the environment's choice (log 9). -/
theorem fetch_run_inputs {s1 : State} (hp : s.phase ≠ .send) (hf : fetch s = .run i s1) :
    s1.inputs = (if s.agenda = [] then { s with inputs := afterChoice s.inputs } else s).inputs := by
  unfold fetch at hf
  split at hf
  · rename_i hnil
    rw [if_pos hnil]
    unfold unscripted blockMove at hf
    split at hf <;> simp [hp] at hf <;> simp [← hf.2]
  · rename_i hcons
    split at hf <;> cases hf
    simp [hcons]

/-- A status read depends on the inputs and the parameters only. -/
theorem monRead_congr {s1 : State} (hi : s1.inputs = s.inputs) (hc : s1.cfg = s.cfg) : monRead s1 = monRead s := by
  simp only [monRead, hi, hc]

/-- Settles O19: in WAIT only FC_REPOLL and the external writes run, for a step as for an instruction. -/
theorem waitEndsOnlyWithEnough : Obligations.WaitEndsOnlyWithEnough := by
  unfold Obligations.WaitEndsOnlyWithEnough
  refine ⟨fun i s t hm hp h => exec_leaves_wait hm hp h, fun s t hm hp h => ?_⟩
  unfold step at h
  split at h
  · rename_i i s1 hf
    have hu := fetch_run hf
    have hmon := monRead_congr (fetch_run_inputs (by simp [hp]) hf) (by split_ifs <;> exact hu.cfg)
    obtain ⟨hmode, hwait | ⟨-, hburst⟩⟩ := exec_leaves_wait (hu.mode.trans hm) (hu.phase.trans hp) h
    · exact ⟨hmode, .inl hwait⟩
    · exact ⟨hmode, .inr (hmon ▸ hburst)⟩
  · rename_i s1 hf
    cases h
    obtain ⟨m, rfl⟩ := fetch_world hf
    exact ⟨hm, .inl hp⟩
  · cases h

end Sys2Proof.Machine
end

section
/-! SUPPORT. ALIGNED (O29, R26): set by the scan onto a marked word, cleared by START, needed by DECODE. -/

namespace Sys2Proof.Machine

variable {i : Instr} {s t : State}

/-- Only START and a scan that finds a marker write ALIGNED. -/
theorem Move.aligned_cases (hmv : Move i s t) :
    t.aligned = s.aligned ∨ (i = .start ∧ t.aligned = false) ∨
      ∃ k, Scans i ∧ s.mode = .streaming ∧ s.phase = .align ∧ firstMarked s = some k ∧
        t = { s with raw := { s.raw with read := s.raw.read + 8 * k }, aligned := true, phase := .decode } := by
  cases hmv with
  | start => exact .inr (.inl ⟨rfl, rfl⟩)
  | scanFinds hi hm hp hk => exact .inr (.inr ⟨_, hi, hm, hp, hk, rfl⟩)
  | decodeDefer => exact .inl (by simp)
  | decodeCopy => exact .inl (by simp)
  | _ => exact .inl rfl

/-- Settles O29: by what writes ALIGNED, and by what DECODE asks for. -/
theorem alignedIsEarned : Obligations.AlignedIsEarned := by
  unfold Obligations.AlignedIsEarned
  intro i s t h
  have hdecode : i = .decode → s.aligned = true := by
    rintro rfl
    obtain ⟨-, -, ha, -⟩ := execDecode_next h
    exact ha
  rcases (exec_move h).aligned_cases with e | ⟨hi, hclear⟩ | ⟨k, hi, hm, hp, hk, rfl⟩
  · exact ⟨fun h0 h1 => by simp [e, h0] at h1, fun h1 h0 => by simp [e, h1] at h0, hdecode⟩
  · exact ⟨fun _ h1 => by simp [hclear] at h1, fun _ _ => hi, hdecode⟩
  · obtain ⟨-, hmarked, -⟩ := firstMarked_eq_some_iff.1 hk
    have hbound := firstMarked_bound hk
    refine ⟨fun _ _ => ⟨hm, hp, hi, ?_, of_decide_eq_true hmarked⟩, fun _ h0 => by simp at h0, hdecode⟩
    simp only [avail] at hbound ⊢
    omega

end Sys2Proof.Machine
end

section
/-! SUPPORT. New data in RAW (O20 to O22; R190 to R192, R224): the bytes appended and the bytes kept, for BURST and for APPEND; the
overrun; the device's other answers. -/

namespace Sys2Proof.Machine

variable {s : State}

/-! The bytes of an append. -/

theorem memGet_appendBytes_of_getElem? {fill : Byte} {B : Buffer} {data : List Byte} {j : Nat} {b : Byte}
    (hw : Memory.wf fill B.mem = true) (hj : data[j]? = some b) :
    memGet fill (appendBytes fill B data).mem (B.head + j) = b := by
  obtain ⟨hlt, rfl⟩ := List.getElem?_eq_some_iff.1 hj
  exact memGet_memWrite_of_lt hw hlt

theorem memGet_appendBytes_of_not {fill : Byte} {B : Buffer} {data : List Byte} {a : Nat}
    (hw : Memory.wf fill B.mem = true) (ha : a < B.head ∨ B.head + data.length ≤ a) :
    memGet fill (appendBytes fill B data).mem a = memGet fill B.mem a := memGet_memWrite_of_not hw ha

/-- The device's bytes come first, as long as there are any (R192). -/
theorem getElem?_devRead {i : Inputs} {n j : Nat} {b : Byte} (hj : j < n) (hb : i.bytes[j]? = some b) :
    (devRead i n)[j]? = some b := by
  obtain ⟨hlt, -⟩ := List.getElem?_eq_some_iff.1 hb
  rw [devRead, List.getElem?_take_of_lt hj, List.getElem?_append_left hlt, hb]

/-! BURST. -/

theorem rawOverruns_iff {n : Nat} : rawOverruns s n = true ↔ s.cfg.rawCap < s.raw.head + n := by
  simp [rawOverruns]

/-- The capacity is tested before the device is asked (R190, D11). -/
theorem exec_burst_of_overrun (hm : s.mode = .streaming) (hp : s.phase = .burst)
    (hr : s.cfg.rawCap < s.raw.head + s.xfer.bytes) : exec .burst s = .next (takeFault .rawOverrun 0 s) := by
  have hover := rawOverruns_iff.2 hr
  simp only [exec, execBurst, whenPhase_of hm hp, hover, if_true]
  split <;> rfl

theorem exec_burst_of_complete (hm : s.mode = .streaming) (hp : s.phase = .burst)
    (hr : s.raw.head + s.xfer.bytes ≤ s.cfg.rawCap) (hd : devAnswer s.inputs = .complete) :
    exec .burst s = .next (burstState s) := by
  simp [exec, execBurst, whenPhase_of hm hp, rawOverruns_eq_false_iff.2 hr, hd]

/-- Settles O20: the append of the device's bytes, and the fields that BURST writes. -/
theorem burstAppendsTheDeliveredBytes : Obligations.BurstAppendsTheDeliveredBytes := by
  unfold Obligations.BurstAppendsTheDeliveredBytes
  intro s hm hp hr hd hw
  refine ⟨burstState s, exec_burst_of_complete hm hp hr hd, ?_, fun j b hj hb => ?_, fun a ha => ?_⟩
  · simp [burstState, phaseAfterData, afterDevRead, appendBytes, length_devRead]
  · exact memGet_appendBytes_of_getElem? hw (getElem?_devRead hj hb)
  · exact memGet_appendBytes_of_not hw (by rwa [length_devRead])

/-- Settles O21: the overrun whatever the device answers; on a burst that fits, the device's two other answers. -/
theorem burstOverrunAndStops : Obligations.BurstOverrunAndStops := by
  unfold Obligations.BurstOverrunAndStops
  intro s hm hp
  refine ⟨fun hr => ⟨_, exec_burst_of_overrun hm hp hr, takeFault_entered _ _ _⟩, fun hr => ⟨fun hd => ?_, fun hd => ?_⟩⟩
  all_goals simp [exec, execBurst, whenPhase_of hm hp, rawOverruns_eq_false_iff.2 hr, hd]

/-! APPEND. -/

theorem feedPhase_iff : feedPhase s = true ↔ s.phase = .top ∨ s.phase = .select ∨ s.phase = .burst := by
  simp [feedPhase, or_assoc]

theorem exec_append_of (data : List Byte) (hm : s.mode = .streaming)
    (hp : s.phase = .top ∨ s.phase = .select ∨ s.phase = .burst) :
    exec (.append data) s = .next (appendState data s) := if_pos ⟨hm, feedPhase_iff.2 hp⟩

theorem appendState_of_overrun {data : List Byte} (hr : s.cfg.rawCap < s.raw.head + data.length) :
    appendState data s = takeFault .rawOverrun 0 s := if_pos (rawOverruns_iff.2 hr)

theorem appendState_of_fits {data : List Byte} (hr : s.raw.head + data.length ≤ s.cfg.rawCap) :
    appendState data s = { s with raw := appendBytes s.cfg.fill s.raw data, phase := phaseAfterData s } := by
  rw [appendState, rawOverruns_eq_false_iff.2 hr, if_neg (by decide)]

/-- Settles O22: APPEND where it fits, where it does not, and where it is not enabled. -/
theorem appendFeedsTheDecoder : Obligations.AppendFeedsTheDecoder := by
  unfold Obligations.AppendFeedsTheDecoder
  intro s data
  refine ⟨fun hm hp => ⟨fun hr hw => ?_, fun hr => ?_⟩, fun hno => ?_⟩
  · refine ⟨_, (exec_append_of data hm hp).trans (by rw [appendState_of_fits hr]), rfl, fun j b hj => ?_, fun a ha => ?_⟩
    · exact memGet_appendBytes_of_getElem? hw hj
    · exact memGet_appendBytes_of_not hw ha
  · exact ⟨_, (exec_append_of data hm hp).trans (by rw [appendState_of_overrun hr]), takeFault_entered _ _ _⟩
  · exact if_neg fun ⟨hm, hfeed⟩ => hno ⟨hm, feedPhase_iff.1 hfeed⟩

end Sys2Proof.Machine
end

section
/-! SUPPORT. RAW as a queue of bytes (O24, O25; R196, R197): what each move does to the unread bytes. -/

namespace Sys2Proof.Machine

/-- Settles O24: with the cursors in order COMPACT_RAW has no access outside the arena to stop at. -/
theorem compactRawCompactsRaw : Obligations.CompactRawCompactsRaw := by
  unfold Obligations.CompactRawCompactsRaw
  intro s hm hp hc
  simp [exec, execCompactRaw, whenPhase_of hm hp, outside_of_inOrder hc, compactRawState]

/-- What a read cursor has passed is what was unread and no longer is. -/
theorem pending_advance_eq_drop {fill : Byte} {B : Buffer} {n : Nat} (h : n ≤ avail B) :
    pending fill { B with read := B.read + n } = (pending fill B).drop (avail B - avail { B with read := B.read + n }) := by
  have hn : avail B - avail { B with read := B.read + n } = n := by
    simp only [avail] at h ⊢
    omega
  rw [pending_drop h, hn]

/-- Settles O25: the moves that write RAW append to it, pass bytes at its front, compact it or empty it. -/
theorem rawIsAQueueOfBytes : Obligations.RawIsAQueueOfBytes := by
  unfold Obligations.RawIsAQueueOfBytes
  rintro i s t h ⟨hw, -⟩ ⟨⟨hc, -⟩, -⟩
  cases exec_move h with
  | start => simp [pending_flush]
  | fault hi hm => rw [if_neg hi.ne_start, if_pos ⟨rfl, by simp [hm]⟩]; rfl
  | burst hm => simp [hm, pending_appendBytes hw hc]
  | append hm => simp [hm, pending_appendBytes hw hc]
  | compactRaw hm => simp [hm, pending_compact hw]
  | scanNothing hi hm => rcases hi with rfl | ⟨w, rfl⟩ | ⟨w, rfl⟩ <;> simp [hm]
  | scanFinds hi hm _ hk =>
    have hbound := firstMarked_bound hk
    have hdrop := pending_advance_eq_drop (fill := s.cfg.fill) (Nat.le_of_add_right_le hbound)
    rcases hi with rfl | ⟨w, rfl⟩ | ⟨w, rfl⟩ <;> simp [hm, hdrop]
  | decodeEmpty hi hm => rcases hi with rfl | ⟨w, rfl⟩ | ⟨w, rfl⟩ | ⟨hd, ws, rfl⟩ <;> simp [hm]
  | decodeDefer hi hm => rcases hi with rfl | ⟨w, rfl⟩ | ⟨w, rfl⟩ | ⟨hd, ws, rfl⟩ <;> simp [hm]
  | decodeCopy hi hm _ _ _ hl =>
    have hdrop := pending_advance_eq_drop (fill := s.cfg.fill) hl
    rcases hi with rfl | ⟨w, rfl⟩ | ⟨w, rfl⟩ | ⟨hd, ws, rfl⟩ <;> simp [hm, hdrop]
  | _ => simp [*]

end Sys2Proof.Machine
end

section
/-! SUPPORT. ALIGN (O26 to O28; R162, R221): the first marked stride of the window, none marked, and nothing to scan. -/

namespace Sys2Proof.Machine

variable {s : State}

/-- The strides that ALIGN scans: complete, and fewer than ALIGN_LIMIT before them. -/
theorem lt_alignWindow_iff {i : Nat} :
    i < alignWindow s ↔ 8 * i + 8 ≤ avail s.raw ∧ ∀ m, s.cfg.alignLimit = some m → i < m := by
  unfold alignWindow
  split
  · rename_i hnone
    simp only [hnone, reduceCtorEq, false_implies, implies_true, and_true]
    omega
  · rename_i m hsome
    simp only [hsome, Option.some.injEq, forall_eq', lt_min_iff]
    omega

theorem strideMarked_iff {i : Nat} :
    strideMarked s i = true ↔ memGet s.cfg.fill s.raw.mem (s.raw.read + 8 * i + 7) = s.cfg.marker := by
  simp [strideMarked]

theorem strideMarked_eq_false_iff {i : Nat} :
    strideMarked s i = false ↔ memGet s.cfg.fill s.raw.mem (s.raw.read + 8 * i + 7) ≠ s.cfg.marker := by
  simp [strideMarked]

theorem alignState_of_firstMarked {k : Nat} (h : firstMarked s = some k) :
    alignState s = { s with raw := { s.raw with read := s.raw.read + 8 * k }, aligned := true, phase := .decode } := by
  obtain ⟨hk, -⟩ := firstMarked_eq_some_iff.1 h
  rw [alignState, if_neg (Nat.ne_of_gt (Nat.zero_lt_of_lt hk)), h]

theorem alignState_of_none_marked (h0 : 0 < alignWindow s) (h : firstMarked s = none) :
    alignState s = takeFault .alignFail 0 s := by
  rw [alignState, if_neg (Nat.ne_of_gt h0), h]

theorem exec_align_of (hm : s.mode = .streaming) (hp : s.phase = .align) (hc : CursorsInOrder s.cfg.rawCap s.raw) :
    exec .align s = .next (alignState s) := (whenPhase_of hm hp).trans (runAlign_of hc)

/-- The word at the cursor runs the scan that ALIGN runs (log 19). -/
theorem exec_hdr_eq_align (hm : s.mode = .streaming) (hp : s.phase = .align) (h8 : 8 ≤ avail s.raw)
    (hmark : (headerAt s).b7 = s.cfg.marker) : exec (.hdr (headerAt s)) s = exec .align s :=
  (exec_hdr_of_marker hmark).trans (runAtCursor_align hm hp h8)

theorem exec_nonhdr_eq_align (hm : s.mode = .streaming) (hp : s.phase = .align) (h8 : 8 ≤ avail s.raw)
    (hmark : (headerAt s).b7 ≠ s.cfg.marker) : exec (.nonhdr (headerAt s)) s = exec .align s :=
  (exec_nonhdr_of_not_marker hmark).trans (runAtCursor_align hm hp h8)

/-- Settles O26: the stride is the first marked one of the window, and the word at the cursor is marked exactly when it is
stride 0. -/
theorem alignFindsTheFirstMarkedStride : Obligations.AlignFindsTheFirstMarkedStride := by
  unfold Obligations.AlignFindsTheFirstMarkedStride
  rintro s t k hm hp hc hk hlimit hmark hbefore rfl
  have hfirst : firstMarked s = some k := firstMarked_eq_some_iff.2
    ⟨lt_alignWindow_iff.2 ⟨hk, hlimit⟩, strideMarked_iff.2 hmark, fun i hi => strideMarked_eq_false_iff.2 (hbefore i hi)⟩
  have halign := (exec_align_of hm hp hc).trans (congrArg _ (alignState_of_firstMarked hfirst))
  have h8 : 8 ≤ avail s.raw := by omega
  refine ⟨halign, ?_, fun hpos => ?_⟩
  · rintro rfl
    exact (exec_hdr_eq_align hm hp h8 hmark).trans halign
  · exact (exec_nonhdr_eq_align hm hp h8 (hbefore 0 hpos)).trans halign

/-- Settles O27: the window has a stride and none is marked, stride 0, the word at the cursor, among them. -/
theorem alignFailsWithoutAMarker : Obligations.AlignFailsWithoutAMarker := by
  unfold Obligations.AlignFailsWithoutAMarker
  intro s hm hp hc h8 hlimit hnone
  have hfirst : firstMarked s = none := firstMarked_eq_none_iff.2 fun i hi => by
    obtain ⟨hcomplete, hlt⟩ := lt_alignWindow_iff.1 hi
    exact strideMarked_eq_false_iff.2 (hnone i hcomplete hlt)
  have hpos : ∀ m, s.cfg.alignLimit = some m → 0 < m := fun m hsome =>
    Nat.pos_of_ne_zero fun h0 => hlimit (h0 ▸ hsome)
  have h0 : 0 < alignWindow s := lt_alignWindow_iff.2 ⟨h8, hpos⟩
  have halign := (exec_align_of hm hp hc).trans (congrArg _ (alignState_of_none_marked h0 hfirst))
  exact ⟨_, halign, takeFault_entered _ _ _, (exec_nonhdr_eq_align hm hp h8 (hnone 0 h8 hpos)).trans halign⟩

/-- Settles O28: the window is empty. -/
theorem alignPostponesWithoutAStride : Obligations.AlignPostponesWithoutAStride := by
  unfold Obligations.AlignPostponesWithoutAStride
  intro s hm hp hc hempty
  have h0 : alignWindow s = 0 := by
    by_contra hne
    obtain ⟨hcomplete, hlt⟩ := lt_alignWindow_iff.1 (Nat.pos_of_ne_zero hne)
    rcases hempty with h8 | hlimit
    · omega
    · exact absurd (hlt 0 hlimit) (lt_irrefl 0)
  rw [exec_align_of hm hp hc, alignState, if_pos h0]

end Sys2Proof.Machine
end

section
/-! SUPPORT. DECODE's outcomes but COPY (O31 to O34; R172, R222 to R225): the verdict, and the state it leaves in the spec's own
terms. -/

namespace Sys2Proof.Machine

variable {s : State}

/-! The calls of `Analyse` (R169). -/

theorem noteAnalyse_of_hit {h : Word8} (hhit : cacheHit s h = true) : noteAnalyse h s = s := if_pos hhit

theorem noteAnalyse_of_miss {h : Word8} (hmiss : cacheHit s h = false) :
    noteAnalyse h s = { s with out := .analyse h :: s.out } := by
  rw [noteAnalyse, hmiss, if_neg (by decide)]

theorem noteAnalyse_out (h : Word8) (s : State) :
    (noteAnalyse h s).out = if cacheHit s h = true then s.out else .analyse h :: s.out := by
  unfold noteAnalyse
  split <;> rfl

/-- A faulting DECODE has called `Analyse` unless the header was in the cache (log 15). -/
theorem takeFault_noteAnalyse_entered (cause : Cause) (info : Nat) (h : Word8) (s : State) :
    FaultEntered cause info (if cacheHit s h = true then [] else [.analyse h]) s (takeFault cause info (noteAnalyse h s)) := by
  cases hhit : cacheHit s h with
  | true => rw [noteAnalyse_of_hit hhit]; rfl
  | false => rw [noteAnalyse_of_miss hhit]; rfl

/-- What is in the cache already is not changed by caching it. -/
theorem cacheLayout_of_hit {h : Word8} (hhit : cacheHit s h = true) :
    cacheLayout h { flen := s.flen, cnt := s.cnt } s = s := by
  obtain ⟨hvalid, rfl⟩ := cacheHit_iff.1 hhit
  rw [cacheLayout, noteAnalyse_of_hit hhit, ← hvalid]

/-! The outcomes. -/

/-- The word at the cursor runs the decoder (log 19). -/
theorem exec_nonhdr_eq_decode (hm : s.mode = .streaming) (hp : s.phase = .decode) (h8 : 8 ≤ avail s.raw)
    (hmark : (headerAt s).b7 ≠ s.cfg.marker) : exec (.nonhdr (headerAt s)) s = exec .decode s :=
  (exec_nonhdr_of_not_marker hmark).trans (runAtCursor_decode hm hp h8)

theorem exec_hdr_eq_decode (hm : s.mode = .streaming) (hp : s.phase = .decode) (h8 : 8 ≤ avail s.raw)
    (hmark : (headerAt s).b7 = s.cfg.marker) : exec (.hdr (headerAt s)) s = exec .decode s :=
  (exec_hdr_of_marker hmark).trans (runAtCursor_decode hm hp h8)

/-- Settles O31: the verdict DESYNC, whose fault no call of `Analyse` goes before. -/
theorem decodeDesyncFaults : Obligations.DecodeDesyncFaults := by
  unfold Obligations.DecodeDesyncFaults
  intro s hm hp ha hc h8 hmark
  have hexec := DecodeEnabled.exec_desync ⟨hm, hp, ha, hc⟩ (verdict_desync_iff.2 ⟨h8, hmark⟩)
  exact ⟨_, hexec, takeFault_entered _ _ _, (exec_nonhdr_eq_decode hm hp h8 hmark).trans hexec⟩

theorem verdict_badLayout_of (h8 : 8 ≤ avail s.raw) (hmark : (headerAt s).b7 = s.cfg.marker)
    (hmiss : cacheHit s (headerAt s) = false)
    (hsum : (s.cfg.analyse (headerAt s)).cnt.sum ≠ (s.cfg.analyse (headerAt s)).flen) :
    verdict s = .badLayout (headerAt s) := by
  refine verdict_badLayout_iff.2 ⟨h8, hmark, hmiss, ?_, rfl⟩
  rw [layoutFor_of_miss hmiss, ← Bool.not_eq_true, validLayout_iff]
  exact hsum

/-- Settles O32: the verdict BAD_LAYOUT, whose header was analysed. -/
theorem decodeBadLayoutFaults : Obligations.DecodeBadLayoutFaults := by
  unfold Obligations.DecodeBadLayoutFaults
  intro s hm hp ha hc h8 hmark hcache hsum
  have hmiss := cacheHit_eq_false hcache
  have hexec := DecodeEnabled.exec_badLayout ⟨hm, hp, ha, hc⟩ (verdict_badLayout_of h8 hmark hmiss hsum)
  have hentered := takeFault_noteAnalyse_entered .badLayout 0 (headerAt s) s
  rw [hmiss] at hentered
  exact ⟨_, hexec, hentered⟩

/-- Settles O33: the verdict DEFER, on a hit and on a miss. -/
theorem decodeDefersAPartialFrame : Obligations.DecodeDefersAPartialFrame := by
  unfold Obligations.DecodeDefersAPartialFrame
  intro s hm hp ha hc h8 hmark
  have he : DecodeEnabled s := ⟨hm, hp, ha, hc⟩
  refine ⟨fun hvalid hcode hpart => ?_, fun hcache hsum hpart => ?_⟩
  · have hhit : cacheHit s (headerAt s) = true := cacheHit_iff.2 ⟨hvalid, hcode.symm⟩
    have hgood : HeaderGood s (headerAt s) { flen := s.flen, cnt := s.cnt } :=
      ⟨h8, rfl, hmark, (layoutFor_of_hit hhit).symm, .inl hhit⟩
    rw [he.exec_defer (verdict_defer_iff.2 ⟨hgood, hpart⟩), cacheLayout_of_hit hhit]
  · have hmiss := cacheHit_eq_false hcache
    have hgood := headerGood_of h8 hmark (layoutFor_of_miss hmiss).symm hsum
    rw [he.exec_defer (verdict_defer_iff.2 ⟨hgood, hpart⟩), cacheLayout, noteAnalyse_of_miss hmiss]

theorem verdict_overrun_of {l : Layout} {c : Nat} (hg : HeaderGood s (headerAt s) l) (hlen : (l.flen + 1) * 8 ≤ avail s.raw)
    (hc : c < s.cfg.nCh) (hover : s.cfg.chCap < (chan s c).head + 6 * l.cnt.getD c 0)
    (hbelow : ∀ d < c, (chan s d).head + 6 * l.cnt.getD d 0 ≤ s.cfg.chCap) :
    verdict s = .overrun (headerAt s) c :=
  verdict_overrun_iff.2 ⟨l, hg, hlen, firstOverrun_eq_some_iff.2 ⟨hc, hover, hbelow⟩⟩

/-- Settles O34: the verdict CH_OVERRUN, with the lowest channel without room. -/
theorem decodeOverrunFaults : Obligations.DecodeOverrunFaults := by
  unfold Obligations.DecodeOverrunFaults
  intro s l c hm hp ha hcur h8 hmark hl hsum hlen hc hover hbelow
  have hv := verdict_overrun_of (headerGood_of h8 hmark hl hsum) hlen hc hover hbelow
  exact ⟨_, DecodeEnabled.exec_overrun ⟨hm, hp, ha, hcur⟩ hv, takeFault_noteAnalyse_entered _ _ _ _⟩

end Sys2Proof.Machine
end

section
/-! SUPPORT. COPY and its slots (O35, O36; R173, R174): byte j of sample k of a channel, in the frame and in the channel. -/

namespace Sys2Proof.Machine

variable {s : State} {l : Layout} {c k j : Nat}

/-! COPY. -/

theorem verdict_copy_of (hg : HeaderGood s (headerAt s) l) (hlen : (l.flen + 1) * 8 ≤ avail s.raw)
    (hroom : ∀ c < s.cfg.nCh, (chan s c).head + 6 * l.cnt.getD c 0 ≤ s.cfg.chCap) :
    verdict s = .copy (headerAt s) l :=
  verdict_copy_iff.2 ⟨hg, hlen, firstOverrun_eq_none_iff.2 hroom⟩

/-- COPY writes RAW's read cursor, the channels, the cache and the record of `Analyse` calls. -/
theorem copyState_eq (h : Word8) (l : Layout) (s : State) :
    copyState h l s =
      { s with
        raw := { s.raw with read := s.raw.read + (l.flen + 1) * 8 }, ch := (copyState h l s).ch
        cacheValid := true, codeCache := h, flen := l.flen, cnt := l.cnt
        out := if cacheHit s h = true then s.out else .analyse h :: s.out } := by
  rw [← noteAnalyse_out]
  rcases noteAnalyse_cases h s with e | e <;> simp only [copyState, cacheLayout, e, frameSize]

/-- Byte `j` of sample `k` in the channel after COPY. -/
theorem memGet_copied (hw : Memory.wf s.cfg.fill (chan s c).mem = true) (hk : k < cntOf l c) (hj : j < 6) :
    memGet s.cfg.fill (memWrite s.cfg.fill (chan s c).mem (chan s c).head (channelBytes s l c)) ((chan s c).head + 6 * k + j) =
      memGet s.cfg.fill s.raw.mem (slotAddr s.raw.read l c k + j) := by
  have hlt : 6 * k + j < (channelBytes s l c).length := by
    rw [length_channelBytes]
    omega
  rw [Nat.add_assoc, memGet_memWrite_of_lt hw hlt, getElem_channelBytes hk hj hlt]

@[simp] theorem length_wordsAt (s : State) (p n : Nat) : (wordsAt s p n).length = n := by
  induction n generalizing p with
  | zero => rfl
  | succ n ih => simp [wordsAt, ih]

/-- The whole frame at the cursor runs the decoder, where its length is the one `Analyse` gives. -/
theorem exec_frameAt_eq_decode (hm : s.mode = .streaming) (hp : s.phase = .decode)
    (hmark : (headerAt s).b7 = s.cfg.marker) (hflen : l.flen = (s.cfg.analyse (headerAt s)).flen)
    (hlen : (l.flen + 1) * 8 ≤ avail s.raw) :
    exec (.frame (headerAt s) (wordsAt s (s.raw.read + 8) l.flen)) s = exec .decode s :=
  exec_frame_eq_decode hm hp (by simp [WellFormed, hmark, hflen]) (by simpa using hlen) (by rw [length_wordsAt])

/-- Settles O35: one COPY, its fields, and each channel byte by byte. -/
theorem decodeCopiesTheFrame : Obligations.DecodeCopiesTheFrame := by
  unfold Obligations.DecodeCopiesTheFrame
  intro s l hm hp ha hM hS hcur h8 hmark hl hsum hlen hroom
  have hv := verdict_copy_of (headerGood_of h8 hmark hl hsum) hlen hroom
  have hexec := DecodeEnabled.exec_copy ⟨hm, hp, ha, hcur⟩ hv (validLayout_iff.2 hsum)
  refine ⟨copyState (headerAt s) l s, hexec, (exec_hdr_eq_decode hm hp h8 hmark).trans hexec,
    fun hflen => (exec_frameAt_eq_decode hm hp hmark hflen hlen).trans hexec, copyState_eq _ l s, by simp, fun c hc => ?_⟩
  rw [chan_copyState hc hS]
  exact ⟨rfl, rfl, fun k hk j hj => memGet_copied (hM.chan c) hk hj,
    fun a hout => memGet_memWrite_of_not (hM.chan c) (by rwa [length_channelBytes])⟩

/-! SLOT. -/

theorem keptBytes_memWord (fill : Byte) (m : Memory) (a : Nat) : keptBytes (memWord fill m a) = memRead fill m a 6 := by
  simp [memWord, keptBytes, memRead, List.range_succ]

theorem chan_setChan_same {B : Buffer} (hc : c < s.ch.length) : chan (setChan s c B) c = B := by
  rw [chan_eq (by simpa using hc)]
  simp

/-- SLOT stores its word's kept bytes where COPY would (R174). -/
theorem exec_slot_of (he : DecodeEnabled s) {h : Word8} (hv : verdict s = .copy h l) (hvalid : validLayout l = true)
    (hc : c < s.cfg.nCh) (hk : k < cntOf l c) :
    exec (.slot c k (memWord s.cfg.fill s.raw.mem (slotAddr s.raw.read l c k))) s =
      .next (setChan s c { chan s c with
        mem := memWrite s.cfg.fill (chan s c).mem ((chan s c).head + 6 * k)
          (memRead s.cfg.fill s.raw.mem (slotAddr s.raw.read l c k) 6) }) := by
  have hin := payloadOutside_of_verdict_copy hv he.cursors hvalid
  simp [exec, execSlot, hasChannel_iff.2 hc, whenPhase_of he.mode he.phase, hv, he.aligned, hk,
    outside_of_inOrder he.cursors, hin, keptBytes_memWord]

/-- Settles O36: the six bytes written, and those around them. -/
theorem slotCopiesSixBytes : Obligations.SlotCopiesSixBytes := by
  unfold Obligations.SlotCopiesSixBytes
  intro s l c k hm hp ha hM hS hcur h8 hmark hl hsum hlen hroom hc hk
  have hv := verdict_copy_of (headerGood_of h8 hmark hl hsum) hlen hroom
  have hch : c < s.ch.length := by
    obtain ⟨hlength, -⟩ := hS
    rwa [hlength]
  refine ⟨_, exec_slot_of ⟨hm, hp, ha, hcur⟩ hv (validLayout_iff.2 hsum) hc hk, ?_, fun j hj => ?_, fun a hout => ?_⟩
  · rw [chan_setChan_same hch]; rfl
  · have hlt : j < (memRead s.cfg.fill s.raw.mem (slotAddr s.raw.read l c k) 6).length := by rwa [length_memRead]
    rw [chan_setChan_same hch, memGet_memWrite_of_lt (hM.chan c) hlt, getElem_memRead]
    rfl
  · rw [chan_setChan_same hch]
    exact memGet_memWrite_of_not (hM.chan c) (by rwa [length_memRead])

end Sys2Proof.Machine
end

section
/-! SUPPORT. What a DECODE that answers has done (O37, O38, O60; R8, R176, R178): its outcomes told apart by MODE and PHASE. -/

namespace Sys2Proof.Machine

variable {s t : State}

/-- A DECODE that answers ended the loop, faulted, deferred or copied (R170). -/
theorem exec_decode_cases (h : exec .decode s = .next t) :
    (avail s.raw < 8 ∧ t = { s with phase := .compact }) ∨
    t.mode = .faulting ∨
    (∃ hd l, HeaderGood s hd l ∧ avail s.raw < frameSize l ∧ t = { cacheLayout hd l s with phase := .compact }) ∨
    (∃ hd l, HeaderGood s hd l ∧ frameSize l ≤ avail s.raw ∧ t.phase = .decode ∧ t = copyState hd l s) := by
  obtain ⟨-, hp, -, -, -, rfl⟩ := execDecode_next h
  cases hv : verdict s with
  | empty => exact .inl ⟨verdict_empty_iff.1 hv, decodeState_of_verdict_empty hv⟩
  | desync => exact .inr (.inl (by simp [decodeState, hv]))
  | badLayout hd => exact .inr (.inl (by simp [decodeState, hv]))
  | overrun hd c => exact .inr (.inl (by simp [decodeState, hv]))
  | defer hd l =>
    obtain ⟨hg, hl⟩ := verdict_defer_iff.1 hv
    exact .inr (.inr (.inl ⟨hd, l, hg, hl, by simp [decodeState, hv]⟩))
  | copy hd l =>
    obtain ⟨hg, hl, -⟩ := verdict_copy_iff.1 hv
    exact .inr (.inr (.inr ⟨hd, l, hg, hl, by simp [decodeState, hv, hp], by simp [decodeState, hv]⟩))

/-- A DECODE that stays in its phase copied a frame. -/
theorem exec_decode_stays (h : exec .decode s = .next t) (hm : t.mode = .streaming) (hp : t.phase = .decode) :
    ∃ hd l, HeaderGood s hd l ∧ t = copyState hd l s := by
  rcases exec_decode_cases h with ⟨-, rfl⟩ | hf | ⟨hd, l, -, -, rfl⟩ | ⟨hd, l, hg, -, -, e⟩
  · exact absurd hp (by simp)
  · exact absurd (hm.symm.trans hf) (by decide)
  · exact absurd hp (by simp)
  · exact ⟨hd, l, hg, e⟩

theorem chan_copyState_cursors {hd : Word8} {l : Layout} {c : Nat} (hn : c < s.cfg.nCh) (hc : c < s.ch.length) :
    (chan (copyState hd l s) c).read = (chan s c).read ∧
      (chan (copyState hd l s) c).head = (chan s c).head + 6 * cntOf l c := by
  rw [chan_eq hc, chan_eq (by simpa using hc)]
  simp [copyChannel, hn]

/-- Settles O37: the copied frame's layout is the one in CNT, and it fills its frame. -/
theorem copyConsumesTheWholeFrame : Obligations.CopyConsumesTheWholeFrame := by
  unfold Obligations.CopyConsumesTheWholeFrame
  intro s t hK h hm hp
  obtain ⟨hd, l, hg, rfl⟩ := exec_decode_stays h hm hp
  obtain ⟨rfl, hvalid⟩ := layout_valid hK hg
  refine ⟨?_, rfl, rfl, by simp, by simp, fun c hn hc => chan_copyState_cursors hn hc⟩
  rw [copyState_raw, copyState_cnt, frameSize, validLayout_iff.1 hvalid]
  dsimp only
  omega

/-- Settles O38: a copied frame is at least its header. -/
theorem decodeMakesProgress : Obligations.DecodeMakesProgress := by
  unfold Obligations.DecodeMakesProgress
  intro s t h
  rcases exec_decode_cases h with ⟨-, rfl⟩ | hf | ⟨hd, l, -, -, rfl⟩ | ⟨hd, l, -, hl, hp, rfl⟩
  · exact .inl (.inr rfl)
  · exact .inl (.inl hf)
  · exact .inl (.inr rfl)
  · refine .inr ⟨hp, ?_⟩
    simp only [frameSize, avail, copyState_raw] at hl ⊢
    omega

/-! Sizing (R8). -/

theorem BurstSize.bytes_le (x : BurstSize) : x.bytes ≤ 32768 := by
  cases x <;> decide

theorem exec_burst_streaming (h : exec .burst s = .next t) (hr : s.raw.head + s.xfer.bytes ≤ s.cfg.rawCap) :
    t.mode = .streaming := by
  cases exec_effect h with
  | burst hm => exact hm
  | burstOverrun _ _ hover => exact absurd (rawOverruns_iff.1 hover) (Nat.not_lt.2 hr)
  | align hi => simp at hi
  | decode hi => simp at hi

/-- A residue of whole words that DECODE leaves is shorter than its frame, so no longer than the frame's payload. -/
theorem exec_decode_residue (hK : CacheOk s) (hwords : 8 ∣ avail s.raw) (h : exec .decode s = .next t)
    (hm : t.mode = .streaming) (hp : t.phase = .compact) : avail t.raw ≤ 8 * s.cfg.maxFlen := by
  rcases exec_decode_cases h with ⟨h8, rfl⟩ | hf | ⟨hd, l, hg, hl, rfl⟩ | ⟨_, _, -, -, hp', -⟩
  · dsimp only
    omega
  · exact absurd (hm.symm.trans hf) (by decide)
  · obtain ⟨rfl, -⟩ := layout_valid hK hg
    have hmax := analyse_le s.cfg hd
    rw [frameSize] at hl
    rw [cacheLayout_raw]
    omega
  · exact absurd (hp.symm.trans hp') (by decide)

/-- Settles O60: the largest burst behind the largest residue, and the residue that DECODE leaves. -/
theorem sizingPreventsRawOverrun : Obligations.SizingPreventsRawOverrun := by
  unfold Obligations.SizingPreventsRawOverrun
  intro s t hcap
  refine ⟨fun hhead h => ?_, fun hK hwords h hm hp => exec_decode_residue hK hwords h hm hp⟩
  have hbytes := s.xfer.bytes_le
  exact exec_burst_streaming h (by omega)

end Sys2Proof.Machine
end

section
/-! SUPPORT. The cache never changes a result (O39, R169): with a true cache DECODE finds the same with it and without it, and what
it does then differs in CACHE_VALID and in the calls of `Analyse` only. -/

namespace Sys2Proof.Machine

variable {s t : State}

/-- The state with its cache emptied. -/
def uncached (s : State) : State := { s with cacheValid := false }

theorem cacheHit_uncached (s : State) (h : Word8) : cacheHit (uncached s) h = false := rfl

theorem noteAnalyse_uncached (h : Word8) (s : State) :
    noteAnalyse h (uncached s) = { uncached s with out := .analyse h :: s.out } := rfl

/-- With a true cache the test of the layout fails on no hit, so it is the same test with the cache emptied. -/
theorem verdict_uncached (hK : CacheOk s) : verdict (uncached s) = verdict s := by
  have hlayout : layoutFor (uncached s) (headerAt s) = layoutFor s (headerAt s) :=
    (layoutFor_of_miss (cacheHit_uncached s _)).trans (layoutFor_of_cacheOk hK _).symm
  have hvalid : cacheHit s (headerAt s) = true → validLayout (layoutFor s (headerAt s)) = true := by
    intro hhit
    obtain ⟨hv, -⟩ := cacheHit_iff.1 hhit
    rw [layoutFor_of_hit hhit]
    exact (hK hv).2
  have htest : (cacheHit (uncached s) (headerAt s) = false ∧ validLayout (layoutFor s (headerAt s)) = false) ↔
      (cacheHit s (headerAt s) = false ∧ validLayout (layoutFor s (headerAt s)) = false) := by
    rw [cacheHit_uncached]
    cases hhit : cacheHit s (headerAt s) with
    | false => rfl
    | true => simp [hvalid hhit]
  change verdictFor (uncached s) (headerAt s) (layoutFor (uncached s) (headerAt s)) = _
  rw [hlayout, verdict, verdictFor, verdictFor]
  simp only [htest]
  rfl

theorem payloadOutside_uncached (hK : CacheOk s) : payloadOutside (uncached s) = payloadOutside s := by
  rw [payloadOutside, payloadOutside, verdict_uncached hK]
  rfl

theorem exec_decode_uncached (hK : CacheOk s) (h : exec .decode s = .next t) :
    exec .decode (uncached s) = .next (decodeState (uncached s)) := by
  obtain ⟨hm, hp, ha, ho, hpl, -⟩ := execDecode_next h
  refine (whenPhase_of hm hp).trans ((if_pos ha).trans ?_)
  exact runDecode_eq_next.2 ⟨⟨ho, (payloadOutside_uncached hK).trans hpl⟩, rfl⟩

/-! The same but for the cache's flag and the calls. -/

/-- `t'` is `t` but for CACHE_VALID and the calls of `Analyse`. -/
def SameButCalls (t t' : State) : Prop :=
  t' = { t with cacheValid := t'.cacheValid, out := t'.out } ∧ issued t' = issued t

/-- Without the cache the call is always made, which adds nothing else to what was issued. -/
theorem sameButCalls_noteAnalyse (h : Word8) (s : State) : SameButCalls (noteAnalyse h s) (noteAnalyse h (uncached s)) := by
  rw [noteAnalyse_uncached]
  rcases noteAnalyse_cases h s with e | e <;> rw [e] <;> exact ⟨rfl, rfl⟩

theorem SameButCalls.takeFault {u u' : State} (h : SameButCalls u u') (cause : Cause) (info : Nat) :
    SameButCalls (takeFault cause info u) (takeFault cause info u') := by
  obtain ⟨hstate, hissued⟩ := h
  refine ⟨by rw [hstate]; rfl, ?_⟩
  simpa [issued, Event.isAnalyse] using hissued

theorem sameButCalls_cacheLayout (h : Word8) (l : Layout) (s : State) :
    SameButCalls (cacheLayout h l s) (cacheLayout h l (uncached s)) := by
  obtain ⟨hstate, hissued⟩ := sameButCalls_noteAnalyse h s
  exact ⟨by rw [cacheLayout, hstate]; rfl, hissued⟩

theorem sameButCalls_decodeState (hK : CacheOk s) : SameButCalls (decodeState s) (decodeState (uncached s)) := by
  have hv := verdict_uncached hK
  cases hverdict : verdict s with
  | empty =>
    rw [decodeState_of_verdict_empty hverdict, decodeState_of_verdict_empty (hv.trans hverdict)]
    exact ⟨rfl, rfl⟩
  | desync =>
    simp only [decodeState, hv, hverdict]
    exact ⟨rfl, rfl⟩
  | badLayout h =>
    simp only [decodeState, hv, hverdict]
    exact (sameButCalls_noteAnalyse h s).takeFault _ _
  | overrun h c =>
    simp only [decodeState, hv, hverdict]
    exact (sameButCalls_noteAnalyse h s).takeFault _ _
  | defer h l =>
    simp only [decodeState, hv, hverdict]
    obtain ⟨hstate, hissued⟩ := sameButCalls_cacheLayout h l s
    exact ⟨by rw [hstate], hissued⟩
  | copy h l =>
    simp only [decodeState, hv, hverdict]
    obtain ⟨hstate, hissued⟩ := sameButCalls_cacheLayout h l s
    exact ⟨by rw [copyState, copyState, hstate]; rfl, hissued⟩

/-- A DECODE that found a header and raised no fault leaves its layout in the cache. -/
theorem exec_decode_cacheValid (h : exec .decode s = .next t) (hm : t.mode = .streaming) (h8 : 8 ≤ avail s.raw) :
    t.cacheValid = true := by
  rcases exec_decode_cases h with ⟨hempty, -⟩ | hf | ⟨hd, l, -, -, rfl⟩ | ⟨hd, l, -, -, -, rfl⟩
  · omega
  · exact absurd (hm.symm.trans hf) (by decide)
  · rfl
  · rfl

/-- Settles O39: DECODE without the cache has the same verdict, and so the same effect but for the calls. -/
theorem cacheIsTransparent : Obligations.CacheIsTransparent := by
  unfold Obligations.CacheIsTransparent
  intro s t hK h
  obtain ⟨-, -, -, -, -, rfl⟩ := execDecode_next h
  have h' := exec_decode_uncached hK h
  obtain ⟨hstate, hissued⟩ := sameButCalls_decodeState hK
  refine ⟨decodeState (uncached s), h', hstate, hissued, fun hm h8 => ?_⟩
  have hm' : (decodeState (uncached s)).mode = .streaming := by rw [hstate]; exact hm
  rw [exec_decode_cacheValid h hm h8, exec_decode_cacheValid h' hm' h8]

end Sys2Proof.Machine
end

section
/-! SUPPORT. ACT is read at two places (O51, R36, R128): every other instruction commutes with writing ACT and its previous value. -/

namespace Sys2Proof.Machine

variable {a b : Bool} {s : State}

/-- The state with other values of ACT and of what a stale read returns. -/
def withAct (a b : Bool) (s : State) : State := { s with act := a, actPrev := b }

/-- The outcome with `f` applied to its next state. -/
def mapNext (f : State → State) : Result → Result
  | .next s => .next (f s)
  | .fault e => .fault e
  | .refused e => .refused e

theorem mapNext_whenPhase (f : State → State) (ph : Phase) (s : State) (r : Result) :
    mapNext f (whenPhase ph s r) = whenPhase ph s (mapNext f r) := by
  unfold whenPhase
  split <;> rfl

theorem mapNext_whenMode (f : State → State) (m : Mode) (s : State) (r : Result) :
    mapNext f (whenMode m s r) = whenMode m s (mapNext f r) := by
  unfold whenMode
  split <;> rfl

/-! The operations that branch. -/

theorem alignState_withAct (a b : Bool) (s : State) : alignState (withAct a b s) = withAct a b (alignState s) := by
  have hwindow : alignWindow (withAct a b s) = alignWindow s := rfl
  have hfirst : firstMarked (withAct a b s) = firstMarked s := rfl
  unfold alignState
  rw [hwindow, hfirst]
  split
  · rfl
  · split <;> rfl

theorem noteAnalyse_withAct (h : Word8) (a b : Bool) (s : State) :
    noteAnalyse h (withAct a b s) = withAct a b (noteAnalyse h s) := by
  have hhit : cacheHit (withAct a b s) h = cacheHit s h := rfl
  unfold noteAnalyse
  rw [hhit]
  split <;> rfl

theorem decodeState_withAct (a b : Bool) (s : State) : decodeState (withAct a b s) = withAct a b (decodeState s) := by
  have hverdict : verdict (withAct a b s) = verdict s := rfl
  unfold decodeState
  rw [hverdict]
  split
  · rfl
  · rfl
  · rw [noteAnalyse_withAct]; rfl
  · rw [cacheLayout, noteAnalyse_withAct]; rfl
  · rw [noteAnalyse_withAct]; rfl
  · rw [copyState, cacheLayout, noteAnalyse_withAct]; rfl

theorem appendState_withAct (data : List Byte) (a b : Bool) (s : State) :
    appendState data (withAct a b s) = withAct a b (appendState data s) := by
  have hover : rawOverruns (withAct a b s) data.length = rawOverruns s data.length := rfl
  unfold appendState
  rw [hover]
  split <;> rfl

/-! The instructions. -/

theorem runAlign_withAct (a b : Bool) (s : State) : runAlign (withAct a b s) = mapNext (withAct a b) (runAlign s) := by
  rw [runAlign, alignState_withAct, runAlign, apply_ite (mapNext _)]
  rfl

theorem runDecode_withAct (a b : Bool) (s : State) : runDecode (withAct a b s) = mapNext (withAct a b) (runDecode s) := by
  rw [runDecode, decodeState_withAct, runDecode, apply_ite (mapNext _)]
  rfl

theorem execDecode_withAct (a b : Bool) (s : State) :
    execDecode (withAct a b s) = mapNext (withAct a b) (execDecode s) := by
  rw [execDecode, runDecode_withAct, execDecode, mapNext_whenPhase, apply_ite (mapNext _)]
  rfl

theorem ite_mapNext_refused (f : State → State) (P : Prop) [Decidable P] (r : Result) (e : Refusal) :
    (if P then mapNext f r else .refused e) = mapNext f (if P then r else .refused e) := by
  split <;> rfl

theorem runAtCursor_withAct (w : Word8) (a b : Bool) (s : State) :
    runAtCursor w (withAct a b s) = mapNext (withAct a b) (runAtCursor w s) := by
  have hphase : (withAct a b s).phase = s.phase := rfl
  rw [runAtCursor, runAlign_withAct, runDecode_withAct, runAtCursor, hphase, ← ite_mapNext_refused]
  refine if_congr Iff.rfl ?_ rfl
  cases s.phase with
  | decode => exact ite_mapNext_refused _ _ _ _
  | _ => rfl

theorem execBurst_withAct (a b : Bool) (s : State) : execBurst (withAct a b s) = mapNext (withAct a b) (execBurst s) := by
  have hdev : devAnswer (withAct a b s).inputs = devAnswer s.inputs := rfl
  have hover : rawOverruns (withAct a b s) (withAct a b s).xfer.bytes = rawOverruns s s.xfer.bytes := rfl
  rw [execBurst, execBurst, mapNext_whenPhase, hdev, hover]
  refine congrArg (whenPhase .burst s) ?_
  cases devAnswer s.inputs <;> cases rawOverruns s s.xfer.bytes <;> rfl

theorem execSlot_withAct (c k : Nat) (w : Word8) (a b : Bool) (s : State) :
    execSlot c k w (withAct a b s) = mapNext (withAct a b) (execSlot c k w s) := by
  have hverdict : verdict (withAct a b s) = verdict s := rfl
  rw [execSlot, execSlot, apply_ite (mapNext _), mapNext_whenPhase, hverdict]
  refine if_congr Iff.rfl rfl (congrArg (whenPhase .decode s) ?_)
  cases verdict s with
  | copy h l =>
    dsimp only
    rw [apply_ite (mapNext _), apply_ite (mapNext _)]
    rfl
  | _ => rfl

theorem execFrame_withAct (h : Word8) (ws : List Word8) (a b : Bool) (s : State) :
    execFrame h ws (withAct a b s) = mapNext (withAct a b) (execFrame h ws s) := by
  have hwords : wordsAt (withAct a b s) s.raw.read (ws.length + 1) = wordsAt s s.raw.read (ws.length + 1) := by
    generalize s.raw.read = p
    induction ws.length + 1 generalizing p with
    | zero => rfl
    | succ n ih => exact congrArg (_ :: ·) (ih (p + 8))
  rw [execFrame, runDecode_withAct, execFrame, apply_ite (mapNext _), mapNext_whenPhase, ← ite_mapNext_refused]
  refine if_congr Iff.rfl rfl (congrArg (whenPhase .decode s) (if_congr ?_ rfl rfl))
  exact and_congr Iff.rfl (and_congr Iff.rfl (Eq.congr_left hwords))

theorem execSendFail_withAct (c : Nat) (a b : Bool) (s : State) :
    execSendFail c (withAct a b s) = mapNext (withAct a b) (execSendFail c s) := by
  rw [execSendFail, execSendFail, ← ite_mapNext_refused, mapNext_whenPhase]
  rfl

theorem execAlign_withAct (a b : Bool) (s : State) : execAlign (withAct a b s) = mapNext (withAct a b) (execAlign s) := by
  rw [execAlign, runAlign_withAct, execAlign, mapNext_whenPhase]
  rfl

theorem raiser_withAct (cause : Cause) (info : Nat) (a b : Bool) (s : State) :
    raiser cause info (withAct a b s) = mapNext (withAct a b) (raiser cause info s) := by
  cases cause with
  | alignFail => exact execAlign_withAct a b s
  | desync => exact execDecode_withAct a b s
  | sendFail => exact execSendFail_withAct info a b s
  | badLayout => exact execDecode_withAct a b s
  | rawOverrun => exact execBurst_withAct a b s
  | chOverrun => exact execDecode_withAct a b s

theorem faultOutcome_withAct (cause : Cause) (info : Nat) (a b : Bool) (r : Result) :
    faultOutcome cause info (mapNext (withAct a b) r) = mapNext (withAct a b) (faultOutcome cause info r) := by
  cases r with
  | next t => exact ite_mapNext_refused _ _ (.next t) _
  | fault => rfl
  | refused => rfl

theorem execFaultEnter_withAct (cause : Cause) (info : Nat) (a b : Bool) (s : State) :
    execFaultEnter cause info (withAct a b s) = mapNext (withAct a b) (execFaultEnter cause info s) := by
  rw [execFaultEnter, raiser_withAct, faultOutcome_withAct, execFaultEnter, ← ite_mapNext_refused]
  rfl

theorem execDrain_withAct (c n : Nat) (a b : Bool) (s : State) :
    execDrain c n (withAct a b s) = mapNext (withAct a b) (execDrain c n s) := by
  rw [execDrain, execDrain, ← ite_mapNext_refused, mapNext_whenPhase, ← ite_mapNext_refused, apply_ite (mapNext _)]
  rfl

theorem exec_withAct {i : Instr} (hpoll : i ≠ .idlePoll) (htop : i ≠ .topCheck) (hact : ∀ x, i ≠ .envAct x) :
    exec i (withAct a b s) = mapNext (withAct a b) (exec i s) := by
  cases i with
  | idlePoll => exact absurd rfl hpoll
  | topCheck => exact absurd rfl htop
  | envAct x => exact absurd rfl (hact x)
  | hdr w =>
    exact (if_congr Iff.rfl (runAtCursor_withAct w a b s) rfl).trans (ite_mapNext_refused _ _ _ _)
  | nonhdr w =>
    exact (if_congr Iff.rfl (runAtCursor_withAct w a b s) rfl).trans (ite_mapNext_refused _ _ _ _)
  | frame h ws => exact execFrame_withAct h ws a b s
  | slot c k w => exact execSlot_withAct c k w a b s
  | start => exact (mapNext_whenMode (withAct a b) .starting s (.next (startState s))).symm
  | fcSelect =>
    exact (mapNext_whenPhase (withAct a b) .select s (.next (controlState (burstSizeFor (monRead s).occ) s))).symm
  | fcRepoll => exact (mapNext_whenPhase (withAct a b) .wait s (.next (controlState (repollSize s) s))).symm
  | burst => exact execBurst_withAct a b s
  | align => exact execAlign_withAct a b s
  | decode => exact execDecode_withAct a b s
  | compactRaw =>
    rw [exec, exec, execCompactRaw, execCompactRaw, mapNext_whenPhase, apply_ite (mapNext _)]
    rfl
  | drain c n => exact execDrain_withAct c n a b s
  | sendDone =>
    rw [exec, exec, execSendDone, execSendDone, mapNext_whenPhase, apply_ite (mapNext _)]
    rfl
  | sendFail c => exact execSendFail_withAct c a b s
  | faultEnter cause info => exact execFaultEnter_withAct cause info a b s
  | faultExit => exact (mapNext_whenMode (withAct a b) .faulting s (.next (leaveFault s))).symm
  | envDiagClear m => rfl
  | append data =>
    rw [exec, exec, execAppend, appendState_withAct, execAppend, ← ite_mapNext_refused]
    rfl

/-- Settles O51: each instruction but the two that read ACT, and the one that writes it, commutes with writing it. -/
theorem actIsReadAtTwoPlaces : Obligations.ActIsReadAtTwoPlaces := by
  unfold Obligations.ActIsReadAtTwoPlaces
  intro i s t a b hpoll htop hact h
  exact (exec_withAct hpoll htop hact).trans (congrArg (mapNext (withAct a b)) h)

end Sys2Proof.Machine
end

section
/-! SUPPORT. Session control and the external control path (O8 to O10, O47, O48; R121 to R127, R231, R240). -/

namespace Sys2Proof.Machine

/-- Whether a read is stale or not, it returns ACT or its previous value (U11). -/
theorem actRead_cases (s : State) : actRead s = s.act ∨ actRead s = s.actPrev := by
  unfold actRead
  split
  · exact .inr rfl
  · exact .inl rfl

theorem exec_idlePoll_of {s : State} (hm : s.mode = .idle) : exec .idlePoll s = .next (idlePollState s) := whenMode_of hm

/-- Settles O8: IDLE_POLL's three branches. -/
theorem idlePollFollowsAct : Obligations.IdlePollFollowsAct := by
  unfold Obligations.IdlePollFollowsAct
  intro s hm
  rw [exec_idlePoll_of hm]
  refine ⟨actRead_cases s, fun hr => ?_, fun hr harm => ?_, fun hr harm hrestart => ?_⟩
  · simp [idlePollState, hr]
  · simp [idlePollState, hr, harm]
  · simp [idlePollState, hr, harm, hrestart]

/-- Settles O9: START is enabled, and its effect is the state written out. -/
theorem startResetsTheSession : Obligations.StartResetsTheSession := by
  unfold Obligations.StartResetsTheSession
  exact fun s hm => whenMode_of hm

theorem exec_topCheck_of {s : State} (hm : s.mode = .streaming) (hp : s.phase = .top) :
    exec .topCheck s = .next (topCheckState s) := whenPhase_of hm hp

/-- Settles O10: TOP_CHECK's two branches. -/
theorem topCheckContinuesOrStops : Obligations.TopCheckContinuesOrStops := by
  unfold Obligations.TopCheckContinuesOrStops
  intro s hm hp
  refine ⟨fun hr => ?_, fun hr => ⟨topCheckState s, exec_topCheck_of hm hp, ?_⟩⟩
  · rw [exec_topCheck_of hm hp, topCheckState, if_pos hr]
  · simp [topCheckState, hr, stopState, tick]

/-- Settles O47: FAULT_EXIT is enabled, and its effect is the return to Idle. -/
theorem faultExitReturnsToIdle : Obligations.FaultExitReturnsToIdle := by
  unfold Obligations.FaultExitReturnsToIdle
  exact fun s hm => whenMode_of hm

/-- `DIAG & ~m`, bit by bit (R240). -/
theorem testBit_clearBits (d m k : Nat) : (clearBits d m).testBit k = (d.testBit k && !m.testBit k) := by
  rw [clearBits, Nat.testBit_xor, Nat.testBit_and]
  cases d.testBit k <;> cases m.testBit k <;> rfl

/-- Settles O48: the two writes, DIAG's bit by bit. -/
theorem externalWrites : Obligations.ExternalWrites := by
  unfold Obligations.ExternalWrites
  exact fun s => ⟨fun b => rfl, fun m => ⟨_, rfl, rfl, testBit_clearBits s.diag m⟩⟩

end Sys2Proof.Machine
end

section
/-! SUPPORT. What runs next (O5, O6; R104, R105, R126), and the Packetizer's move (O44, R211). -/

namespace Sys2Proof.Machine

variable {s : State}

theorem step_of_fetch {s1 : State} {i : Instr} (hf : fetch s = .run i s1) : step s = exec i s1 := by
  rw [step, hf]

/-- Settles O5: a record at the front of the agenda is fetched with the bytes after it left. -/
theorem stepRunsTheWaitingRecord : Obligations.StepRunsTheWaitingRecord := by
  unfold Obligations.StepRunsTheWaitingRecord
  intro s i rest hdec
  apply step_of_fetch
  cases hag : s.agenda with
  | nil => rw [hag] at hdec; cases hdec
  | cons b bs => rw [hag] at hdec; simp only [fetch, hag, hdec]

/-- With nothing waiting and the worker to move, the block moves. -/
theorem fetch_of_worker (hag : s.agenda = []) (hch : nextChoice s.inputs = .worker) :
    fetch s = blockMove .worker { s with inputs := afterChoice s.inputs } := by
  simp only [fetch, hag, unscripted, hch]

/-- Outside phase SEND the worker's operation runs. -/
theorem step_of_worker (hag : s.agenda = []) (hch : nextChoice s.inputs = .worker)
    (hsend : ¬(s.mode = .streaming ∧ s.phase = .send)) :
    step s = exec (workerOp s.mode s.phase) { s with inputs := afterChoice s.inputs } :=
  step_of_fetch ((fetch_of_worker hag hch).trans (if_neg hsend))

/-- In phase SEND the consumer moves. -/
theorem fetch_in_send (hag : s.agenda = []) (hch : nextChoice s.inputs = .worker) (hm : s.mode = .streaming)
    (hp : s.phase = .send) :
    fetch s = if s.cfg.packetizer = true then packetizerMove { s with inputs := afterChoice s.inputs }
      else .run .sendDone { s with inputs := afterChoice s.inputs } :=
  (fetch_of_worker hag hch).trans (if_pos ⟨hm, hp⟩)

/-- Settles O6: the worker's operation by MODE and PHASE, and in phase SEND the free consumer's. -/
theorem stepRunsTheEnabledOperation : Obligations.StepRunsTheEnabledOperation := by
  unfold Obligations.StepRunsTheEnabledOperation
  rintro s s1 hag hch rfl
  have hworker := step_of_worker hag hch
  refine ⟨fun hm => ?_, fun hm => ?_, fun hm => ?_, fun hm => ⟨fun hp => ?_, fun hp => ?_, fun hp => ?_, fun hp => ?_,
    fun hp => ?_, fun hp => ?_, fun hp => ?_, fun hp hfree => step_of_fetch ?_⟩⟩
  case refine_11 => rw [fetch_in_send hag hch hm hp, hfree, if_neg (by decide)]
  all_goals
    rw [hworker (by simp [*])]
    simp only [workerOp, *]

/-! The Packetizer (R211). -/

theorem nextServed_eq_none_iff : nextServed s = none ↔ ∀ c < s.cfg.nCh, avail (chan s c) < 6 * s.cfg.pktSamples := by
  rw [nextServed, List.find?_range_eq_none]
  simp only [Bool.not_eq_true', decide_eq_false_iff_not, not_le]
  rfl

theorem nextServed_eq_some_iff {c : Nat} :
    nextServed s = some c ↔ c < s.cfg.nCh ∧ 6 * s.cfg.pktSamples ≤ avail (chan s c) ∧
      ∀ d < c, avail (chan s d) < 6 * s.cfg.pktSamples := by
  rw [nextServed, List.find?_range_eq_some]
  simp only [decide_eq_true_eq, List.mem_range, Bool.not_eq_true', decide_eq_false_iff_not, not_le]
  exact and_left_comm

theorem packetizerMove_of_none (h : nextServed s = none) : packetizerMove s = .run .sendDone s := by
  rw [packetizerMove, h]

theorem packetizerMove_of_ok {c : Nat} (h : nextServed s = some c) (htx : txOk s.inputs = true) :
    packetizerMove s = .run (.drain c (6 * s.cfg.pktSamples)) (sendDatagram c s) := by
  simp only [packetizerMove, h, htx, if_true]
  rfl

theorem packetizerMove_of_fail {c : Nat} (h : nextServed s = some c) (htx : txOk s.inputs = false) :
    packetizerMove s = .run (.sendFail c) (sendDatagram c s) := by
  simp [packetizerMove, h, htx]

/-- The oldest `n` unread bytes. -/
theorem take_pending {fill : Byte} {B : Buffer} {n : Nat} (h : n ≤ avail B) :
    (pending fill B).take n = memRead fill B.mem B.read n := by
  rw [pending_advance h, List.take_left' length_memRead]

theorem sendDatagram_of_fail {c : Nat} (htx : txOk s.inputs = false) :
    sendDatagram c s = { s with seq := s.seq.set c (s.seq.getD c 0 + 1), inputs := afterTx s.inputs } := by
  rw [sendDatagram, htx, if_neg (by decide)]
  rfl

/-- The datagram that goes out carries the count before and the oldest payload. -/
theorem sendDatagram_of_ok {c : Nat} (htx : txOk s.inputs = true) (hav : 6 * s.cfg.pktSamples ≤ avail (chan s c)) :
    sendDatagram c s =
      { s with
        seq := s.seq.set c (s.seq.getD c 0 + 1), inputs := afterTx s.inputs
        out := .datagram c (datagram s.cfg (s.seq.getD c 0) s.cfg.pktSamples
          ((pending s.cfg.fill (chan s c)).take (6 * s.cfg.pktSamples))) :: s.out } := by
  rw [sendDatagram, htx, if_pos rfl, take_pending hav]
  rfl

/-- Settles O44: the lowest channel with a whole payload is served, by its DRAIN or its SEND_FAIL; with none, SEND_DONE. -/
theorem packetizerServesTheLowestChannel : Obligations.PacketizerServesTheLowestChannel := by
  unfold Obligations.PacketizerServesTheLowestChannel
  rintro s s1 hm hp hag hpk hch rfl
  have hfetch := (fetch_in_send hag hch hm hp).trans (if_pos hpk)
  refine ⟨fun hnone => step_of_fetch (hfetch.trans (packetizerMove_of_none (nextServed_eq_none_iff.2 hnone))), ?_⟩
  rintro c s2 hc hav hbelow rfl
  have hserved : nextServed { s with inputs := afterChoice s.inputs } = some c :=
    nextServed_eq_some_iff.2 ⟨hc, hav, hbelow⟩
  refine ⟨fun htx => step_of_fetch ?_, fun htx => step_of_fetch ?_⟩
  · rw [hfetch, packetizerMove_of_ok hserved htx, sendDatagram_of_ok htx hav]
    rfl
  · rw [hfetch, packetizerMove_of_fail hserved htx, sendDatagram_of_fail htx]

end Sys2Proof.Machine
end

section
/-! SUPPORT. The downstream operations (O41 to O43; R206, R207, R210). -/

namespace Sys2Proof.Machine

/-- Settles O41: DRAIN of what is buffered, and of more. -/
theorem drainHandsOutTheOldestBytes : Obligations.DrainHandsOutTheOldestBytes := by
  unfold Obligations.DrainHandsOutTheOldestBytes
  intro s c n hm hp hc hn hcur
  have hrun : exec (.drain c n) s =
      if n ≤ avail (chan s c) then .next (drainState c n s) else .refused .notEnabled := by
    simp [exec, execDrain, hasChannel_iff.2 hc, hn, whenPhase_of hm hp, outside_of_inOrder hcur]
  refine ⟨fun hav => ?_, fun hav => hrun.trans (if_neg (Nat.not_le.2 hav))⟩
  rw [hrun, if_pos hav, take_pending hav]
  rfl

/-- Settles O42: no channel lies outside its arena, so where SEND_DONE is enabled it has its effect. -/
theorem sendDoneCompactsEveryChannel : Obligations.SendDoneCompactsEveryChannel := by
  unfold Obligations.SendDoneCompactsEveryChannel
  intro s hC
  refine ⟨rfl, fun hm hp => ?_, fun hno => if_neg hno⟩
  simp [exec, execSendDone, whenPhase_of hm hp, hC.any_outside, sendDoneState]

/-- Settles O43: SEND_FAIL is enabled for the channel, and its effect is the fault entry. -/
theorem sendFailFaults : Obligations.SendFailFaults := by
  unfold Obligations.SendFailFaults
  intro s c hm hp hc
  exact ⟨_, (if_pos (hasChannel_iff.2 hc)).trans (whenPhase_of hm hp), takeFault_entered _ _ _⟩

end Sys2Proof.Machine
end

section
/-! SUPPORT. FAULT_ENTER (O46; R104, R230): where the operation that raises its cause enters exactly this fault, its outcome. -/

namespace Sys2Proof.Machine

variable {s t : State} {cause : Cause} {info : Nat} {calls : List Event}

theorem FaultEntered.record (h : FaultEntered cause info calls s t) :
    t.mode = .faulting ∧ t.faultCause = some cause ∧ t.faultInfo = info :=
  ⟨congrArg State.mode h, congrArg State.faultCause h, congrArg State.faultInfo h⟩

/-- A fault that the raising operation enters is a fault that FAULT_ENTER enters. -/
theorem exec_faultEnter_of (hok : infoOk s.cfg cause info = true)
    (h : ∃ t, raiser cause info s = .next t ∧ FaultEntered cause info calls s t) :
    ∃ t, exec (.faultEnter cause info) s = .next t ∧ FaultEntered cause info calls s t := by
  obtain ⟨t, hraise, hentered⟩ := h
  exact ⟨t, execFaultEnter_eq_next.2 ⟨hok, hraise, hentered.record⟩, hentered⟩

theorem exec_faultEnter_entered (h : exec (.faultEnter cause info) s = .next t) :
    s.mode = .streaming ∧ ∃ calls, FaultEntered cause info calls s t := by
  cases exec_effect h with
  | faultEnter hm => exact ⟨hm, _, rfl⟩
  | align hi => simp at hi
  | decode hi => simp at hi

/-- The operation that raised the fault, in its phase. -/
theorem raiser_cases (h : raiser cause info s = .next t) :
    (s.phase = .burst ∧ exec .burst s = .next t) ∨ (s.phase = .align ∧ exec .align s = .next t) ∨
      (s.phase = .decode ∧ exec .decode s = .next t) ∨ (s.phase = .send ∧ exec (.sendFail info) s = .next t) := by
  have hphase {ph : Phase} {r : Result} (hr : whenPhase ph s r = .next t) : s.phase = ph := (whenPhase_eq_next.1 hr).1.2
  cases cause with
  | rawOverrun => exact .inl ⟨hphase h, h⟩
  | alignFail => exact .inr (.inl ⟨hphase h, h⟩)
  | desync => exact .inr (.inr (.inl ⟨hphase h, h⟩))
  | badLayout => exact .inr (.inr (.inl ⟨hphase h, h⟩))
  | chOverrun => exact .inr (.inr (.inl ⟨hphase h, h⟩))
  | sendFail =>
    refine .inr (.inr (.inr ⟨?_, h⟩))
    simp only [raiser, execSendFail] at h
    split at h
    · exact hphase h
    · cases h

/-- Settles O46: each cause by the statement of the operation that raises it, and the converse by that operation's answer. -/
theorem faultEnterIsTheFaultEntry : Obligations.FaultEnterIsTheFaultEntry := by
  unfold Obligations.FaultEnterIsTheFaultEntry
  refine ⟨fun s hm => ⟨fun hp hr => ?_, fun c hc hp => ?_, fun hp hcur h8 hlimit hnone => ?_,
    fun hp ha hcur h8 => ⟨fun hmark => ?_, fun hmark hcache hsum => ?_, ?_⟩⟩, fun s t cause info h => ?_⟩
  · exact exec_faultEnter_of rfl ((burstOverrunAndStops s hm hp).1 hr)
  · exact exec_faultEnter_of (hasChannel_iff.2 hc) (sendFailFaults s c hm hp hc)
  · obtain ⟨t, halign, hentered, -⟩ := alignFailsWithoutAMarker s hm hp hcur h8 hlimit hnone
    exact exec_faultEnter_of rfl ⟨t, halign, hentered⟩
  · obtain ⟨t, hdecode, hentered, -⟩ := decodeDesyncFaults s hm hp ha hcur h8 hmark
    exact exec_faultEnter_of rfl ⟨t, hdecode, hentered⟩
  · exact exec_faultEnter_of rfl (decodeBadLayoutFaults s hm hp ha hcur h8 hmark hcache hsum)
  · intro l c hmark hl hsum hlen hc hover hbelow
    exact exec_faultEnter_of (hasChannel_iff.2 hc)
      (decodeOverrunFaults s l c hm hp ha hcur h8 hmark hl hsum hlen hc hover hbelow)
  · obtain ⟨-, hraise, -⟩ := execFaultEnter_eq_next.1 h
    obtain ⟨hm, hentered⟩ := exec_faultEnter_entered h
    exact ⟨hm, hentered, raiser_cases hraise⟩

end Sys2Proof.Machine
end

section
/-! SUPPORT. The state after power-on (O58, O59; R44, R261). -/

namespace Sys2Proof.Machine

theorem sizesOk_resetWith (p : Params) : SizesOk (State.resetWith p) := by
  simp [SizesOk, State.resetWith]

theorem memoriesOk_resetWith (p : Params) : MemoriesOk (State.resetWith p) := ⟨reset_raw_wf p, reset_ch_wf p⟩

/-- The cache is empty. -/
theorem cacheOk_resetWith (p : Params) : CacheOk (State.resetWith p) := fun h => absurd h (by simp [State.resetWith])

/-- The block is in Idle, and GRACE_CNT and DIAG are 0 (log 6). -/
theorem sequencingOk_resetWith (p : Params) : SequencingOk (State.resetWith p) :=
  ⟨alignmentOk_of_mode (by simp [State.resetWith]), compactedOk_of_mode (by simp [State.resetWith]),
    lifecycleOk_of_outside (.inl rfl) rfl, waitOk_of_mode (by simp [State.resetWith]), Nat.zero_le _, Nat.two_pow_pos _⟩

/-- Settles O58: the invariants one by one. -/
theorem powerOnMeetsTheInvariants : Obligations.PowerOnMeetsTheInvariants := by
  unfold Obligations.PowerOnMeetsTheInvariants
  intro p
  obtain ⟨hcursors, harenas⟩ := buffersOk_iff.1 (buffersOk_resetWith p)
  exact ⟨hcursors, harenas, memoriesOk_resetWith p, sizesOk_resetWith p, cacheOk_resetWith p, sequencingOk_resetWith p⟩

theorem chan_resetWith {p : Params} {c : Nat} (hc : c < p.nCh) : chan (State.resetWith p) c = Buffer.empty := by
  rw [chan_eq (by simpa [State.resetWith] using hc)]
  simp [State.resetWith]

/-- Settles O59: the fields of the power-on state, each channel an empty buffer. -/
theorem powerOnState : Obligations.PowerOnState := by
  unfold Obligations.PowerOnState
  refine ⟨rfl, rfl, rfl, rfl, rfl, rfl, rfl, fun c hc => ?_, rfl, rfl, rfl, rfl, rfl, rfl, rfl⟩
  rw [State.reset, chan_resetWith (p := Config.machine) hc]
  exact ⟨rfl, rfl⟩

end Sys2Proof.Machine
end
